-- ==== Sys2Proof/Word.lean ====
section
/-!
DEFINITION. The two word types of the block: the byte of the register and EEPROM spaces, of the command
word's operand fields and of the host buffers, and the 32-bit host register (spec rules R6, R19, R64).
-/

namespace Sys2Proof

/-- A byte (R9): a device register value, an operand field, a cell of a host buffer. -/
abbrev Byte := BitVec 8

/-- A 32-bit host register or command word (R19, R64). R9 never calls it a "word": that is an EEPROM pair. -/
abbrev Word32 := BitVec 32

end Sys2Proof
end

