-- ==== Sys2Proof/Config.lean ====
section
/-!
DEFINITION. What an implementation fixes and what nothing fixes: the OPEN parameters of rule R7 (the record
`Config` and its constraints), the answer a bus event may get (`Reply`), and the free values: constants
without a body, so that no proof can see what they are.
-/

namespace Sys2Proof

/-- The classes of status conditions (R133). -/
inductive FlagClass where
  | pfUnbalanced
  | modeSwHw
  | bleedEnable
  | wakeFromShort
  | lowPower
  | pfMosfet
  | pfOvervoltage
  | pfUndervoltage
  | swShutdownReq
  | undervoltage
  | overvoltage
  | temperature
  | chargeDischarge
  | mosfetEnable
  deriving DecidableEq, Repr, Inhabited

/-- One entry `(class, reg, bit)` of `P_FLAG_TABLE` (R133). -/
structure FlagEntry where
  cls : FlagClass
  reg : Byte
  bit : Fin 8
  deriving DecidableEq, Repr, Inhabited

/-- The OPEN parameters of R7, in the table's order; every one is fixed for the whole run. `P_KNOWN_ID`, a
predicate on bytes, is the list of the bytes it holds of (log 19). -/
structure Config where
  /-- `P_REG_EE_CTRL`: mode is written here, busy is bit 7 of its read value. -/
  regEeCtrl : Byte
  /-- `P_REG_EE_ADDR`: the EEPROM address-select register. -/
  regEeAddr : Byte
  /-- `P_REG_EE_RD_ODD`: read first by a word read. -/
  regEeRdOdd : Byte
  /-- `P_REG_EE_RD_EVEN`: read second by a word read. -/
  regEeRdEven : Byte
  /-- `P_REG_EE_WR_ODD`: written first by a word write. -/
  regEeWrOdd : Byte
  /-- `P_REG_EE_WR_EVEN`: written second by a word write. -/
  regEeWrEven : Byte
  /-- `P_REG_AUTH_PW_EVEN`: receives the password byte at EEPROM 0x7a. -/
  regAuthPwEven : Byte
  /-- `P_REG_AUTH_PW_ODD`: receives the password byte at EEPROM 0x7b. -/
  regAuthPwOdd : Byte
  /-- `P_REG_AUTH_STATUS`: the authentication status register. -/
  regAuthStatus : Byte
  /-- `P_AUTH_FAIL_BIT`. -/
  authFailBit : Fin 8
  /-- `P_AUTH_OK_BIT`. -/
  authOkBit : Fin 8
  /-- `P_AUTH_BUSY_BIT`. -/
  authBusyBit : Fin 8
  /-- `P_REG_CELL_BASE`: base of the cell-voltage register pairs. -/
  regCellBase : Byte
  /-- `P_CELL_LO_FIRST`: true when the low byte of a pair is at the lower address. -/
  cellLoFirst : Bool
  /-- `P_REG_CURRENT_LO`. -/
  regCurrentLo : Byte
  /-- `P_REG_CURRENT_HI`. -/
  regCurrentHi : Byte
  /-- `P_CURRENT_SIGNED`: whether the 16-bit raw current is two's complement. -/
  currentSigned : Bool
  /-- `P_EE_SENSE_ADDR`, 0..127: EEPROM byte address of the sense-resistor byte. -/
  eeSenseAddr : BitVec 7
  /-- `P_EE_OV_TH`: EEPROM word address of the overvoltage threshold. -/
  eeOvTh : Byte
  /-- `P_EE_OV_REL`: of the overvoltage release. -/
  eeOvRel : Byte
  /-- `P_EE_UV_TH`: of the undervoltage threshold. -/
  eeUvTh : Byte
  /-- `P_EE_UV_REL`: of the undervoltage release. -/
  eeUvRel : Byte
  /-- `P_REG_SHUTDOWN`: the status register that holds the unbalanced bit. -/
  regShutdown : Byte
  /-- `P_FLAG_TABLE`: the status-flag table. -/
  flagTable : List FlagEntry
  /-- `P_REG_DEVICE_ID`: the register the identity check reads. -/
  regDeviceId : Byte
  /-- `P_KNOWN_ID`: the identity bytes of known devices. -/
  knownIds : List Byte
  deriving DecidableEq, Repr, Inhabited

/-- An EEPROM word address is even and at most 126 (R52; the constraint of R7 on the threshold addresses). -/
abbrev Config.evenWordAddr (a : Byte) : Prop := a.toNat % 2 = 0 ∧ a.toNat ≤ 126

/-- The constraint column of R7. -/
abbrev Config.Legal (c : Config) : Prop :=
  (c.authFailBit ≠ c.authOkBit ∧ c.authFailBit ≠ c.authBusyBit ∧ c.authOkBit ≠ c.authBusyBit) ∧
  c.regCellBase.toNat + 25 ≤ 255 ∧
  c.regCurrentLo ≠ c.regCurrentHi ∧
  (Config.evenWordAddr c.eeOvTh ∧ Config.evenWordAddr c.eeOvRel ∧
    Config.evenWordAddr c.eeUvTh ∧ Config.evenWordAddr c.eeUvRel) ∧
  c.flagTable.length ≤ 32 ∧
  c.flagTable.head? = some ⟨.pfUnbalanced, c.regShutdown, 4⟩ ∧
  (c.flagTable.map fun e => (e.reg, e.bit)).Nodup

/-- What the transport and the target have ready as the answer to one bus event: each primitive reads the
fields that R78 gives it (`failed` is `err` for every primitive; `nack` for BusGetAck; `byte` for BusRead;
`clock` and `desc` for BusInit). One record for all primitives, so that any reply answers any event. -/
structure Reply where
  failed : Bool
  nack : Bool
  byte : Byte
  clock : Word32
  desc : List Byte
  deriving DecidableEq, Repr, Inhabited

/-- FREE VALUE (R3, R78; log 2): the answer to the n-th bus event that no script of State answers. -/
opaque Config.reply : Nat → Reply

/-- FREE VALUE (R38, R41; log 8): the n-th unspecified value a host read returns. -/
opaque Config.draw : Nat → Word32

/-- FREE VALUE (R7; log 1): the parameter record the block is built with, before its legality is looked at. -/
opaque Config.built : Config

/-- A legal record, used only so that `Config.deployed` is legal whatever `Config.built` is (log 1). -/
def Config.someLegal : Config :=
  { regEeCtrl := 0, regEeAddr := 0, regEeRdOdd := 0, regEeRdEven := 0, regEeWrOdd := 0, regEeWrEven := 0,
    regAuthPwEven := 0, regAuthPwOdd := 0, regAuthStatus := 0,
    authFailBit := 0, authOkBit := 1, authBusyBit := 2,
    regCellBase := 0, cellLoFirst := true,
    regCurrentLo := 0, regCurrentHi := 1, currentSigned := false,
    eeSenseAddr := 0, eeOvTh := 0, eeOvRel := 0, eeUvTh := 0, eeUvRel := 0,
    regShutdown := 0, flagTable := [⟨.pfUnbalanced, 0, 4⟩],
    regDeviceId := 0, knownIds := [] }

/-- The parameters of the machine after reset: any legal record, nobody knows which (R7; log 1). -/
def Config.deployed : Config :=
  if Config.built.Legal then Config.built else Config.someLegal

end Sys2Proof
end

