-- ==== Sys2Proof/Syntax.lean ====
section
/-!
DEFINITION. The commands: one constructor per row of spec/opcode_table.json (rule R68). Operands are the bytes
of the fields A, B, C of the command word, in that order (R65, R67).
-/

namespace Sys2Proof

/-- The 19 commands of R68, in the table's order. -/
inductive Instr where
  /-- READ_REG: read device register `a` (R86). -/
  | readReg (a : Byte)
  /-- WRITE_REG: write `v` to device register `a` (R87). -/
  | writeReg (a v : Byte)
  /-- BUSINIT: open the bus transport (R88). -/
  | busInit
  /-- BUSCLOSE: tear down the bus transport (R89). -/
  | busClose
  /-- EE_BUSY: one busy test (R100). -/
  | eeBusy
  /-- EE_LOCK: return the EEPROM to idle mode (R101). -/
  | eeLock
  /-- EE_READ_WORD: read the EEPROM word at `a` (R102). -/
  | eeReadWord (a : Byte)
  /-- EE_READ_IMAGE: read the 128-byte image into IMGBUF (R103). -/
  | eeReadImage
  /-- EE_WRITE_WORD: write `[even, odd]` to the EEPROM word at `a` (R104). -/
  | eeWriteWord (a even odd : Byte)
  /-- EE_PROGRAM: authenticated rewrite of the whole image from SRCBUF (R116). -/
  | eeProgram
  /-- VCELL: read and decode the voltage of cell `i` (R124). -/
  | vcell (i : Byte)
  /-- RSENSE: read and decode the sense-resistor value (R127). -/
  | rsense
  /-- ICUR: read and decode the current (R130). -/
  | icur
  /-- VTHR: read and decode threshold voltage `sel` (R132). -/
  | vthr (sel : Byte)
  /-- STATUS_DECODE: read and decode the status flags (R136). -/
  | statusDecode
  /-- DVOLT: decode a voltage pair given as operands (R137). -/
  | dvolt (hi lo : Byte)
  /-- DSENSE: decode a sense byte given as operand (R138). -/
  | dsense (raw : Byte)
  /-- DCUR: decode a current given as operands (R139). -/
  | dcur (lo hi sense : Byte)
  /-- CHK_ID: check the target device's identity (R142). -/
  | chkId
  deriving DecidableEq, Repr

end Sys2Proof
end

