-- ==== Sys2Proof/WellFormed.lean ====
section
/-!
DEFINITION. When a command is well formed: its operands lie in the command's legal range (rules R52, R72). An
operand outside it is still a legal encoding; the command's rule then faults (R72). The check that the machine
makes is Machine/Operands.lean's; this one is the syntax's own.
-/

namespace Sys2Proof

/-- The operands of `i` are in the ranges of R52, R68 and R72: a cell index at most 12, an EEPROM word address
even and at most 126, a threshold selector at most 3; every other operand byte is legal. -/
def Instr.wf (i : Instr) : Bool :=
  match i with
  | .eeReadWord a => a.toNat % 2 == 0 && a.toNat ≤ 126
  | .eeWriteWord a _ _ => a.toNat % 2 == 0 && a.toNat ≤ 126
  | .vcell i => i.toNat ≤ 12
  | .vthr sel => sel.toNat ≤ 3
  | .readReg _ => true
  | .writeReg _ _ => true
  | .busInit => true
  | .busClose => true
  | .eeBusy => true
  | .eeLock => true
  | .eeReadImage => true
  | .eeProgram => true
  | .rsense => true
  | .icur => true
  | .statusDecode => true
  | .dvolt _ _ => true
  | .dsense _ => true
  | .dcur _ _ _ => true
  | .chkId => true

end Sys2Proof
end

