-- ==== Sys2Proof/Decode.lean ====
section
/-!
DEFINITION. The command word (rules R64 to R76): its fields, formats and opcode map, the decoder (total over
all 2^32 words, rejecting by name), the encoder, the reader of the opcode table's words, and the assembler of
R74 on numbers.
-/

namespace Sys2Proof

/-- The four formats of R66, named by the operand fields they use. -/
inductive Format where
  | n
  | a
  | ab
  | abc
  deriving DecidableEq, Repr

/-- Why a word is no command (R69, R70); either way the fault is ILLEGAL_COMMAND. -/
inductive DecodeError where
  /-- An opcode that R68 does not assign (R69). -/
  | reservedOpcode
  /-- An assigned opcode with a reserved field that is not zero (R70). -/
  | reservedField
  deriving DecidableEq, Repr

/-- Field OP, bits 31:24 (R65). -/
def fieldOp (w : Word32) : Byte := w.extractLsb' 24 8
/-- Field A, bits 23:16 (R65). -/
def fieldA (w : Word32) : Byte := w.extractLsb' 16 8
/-- Field B, bits 15:8 (R65). -/
def fieldB (w : Word32) : Byte := w.extractLsb' 8 8
/-- Field C, bits 7:0 (R65). -/
def fieldC (w : Word32) : Byte := w.extractLsb' 0 8

/-- The mask column of R66: the bits that the format fixes, which are OP and the reserved fields. -/
def Format.mask : Format → Word32
  | .n => 0xFFFFFFFF#32
  | .a => 0xFF00FFFF#32
  | .ab => 0xFF0000FF#32
  | .abc => 0xFF000000#32

/-- The bits 23:0 that a format reserves and that must be 0 (R66, R70): those of its mask, not of the mask's complement,
which are the operand fields it uses (DEDUCED, log 26). -/
def Format.reserved (f : Format) : Word32 := f.mask &&& 0x00FFFFFF#32

/-- The opcode map of R68: the format of an assigned opcode and its command with the operands A, B, C; none for
a reserved opcode (R69). -/
def opcodeMap (op a b c : Byte) : Option (Format × Instr) :=
  match op.toNat with
  | 0x01 => some (.a, .readReg a)
  | 0x02 => some (.ab, .writeReg a b)
  | 0x08 => some (.n, .busInit)
  | 0x09 => some (.n, .busClose)
  | 0x10 => some (.n, .eeBusy)
  | 0x11 => some (.n, .eeLock)
  | 0x12 => some (.a, .eeReadWord a)
  | 0x13 => some (.n, .eeReadImage)
  | 0x14 => some (.abc, .eeWriteWord a b c)
  | 0x20 => some (.n, .eeProgram)
  | 0x30 => some (.a, .vcell a)
  | 0x31 => some (.n, .rsense)
  | 0x32 => some (.n, .icur)
  | 0x33 => some (.a, .vthr a)
  | 0x34 => some (.n, .statusDecode)
  | 0x38 => some (.ab, .dvolt a b)
  | 0x39 => some (.a, .dsense a)
  | 0x3A => some (.abc, .dcur a b c)
  | 0x40 => some (.n, .chkId)
  | _ => none

/-- Decoding, R76: a reserved opcode and a nonzero reserved field are rejected by name, in that order; every
other word is the command of R68 with its operands. DEDUCED (log 26): R76 writes its second test `w & ~mask(format) ≠ 0`,
which with the mask column of R66 tests the used operand bits; the model tests the reserved bits, as R66 and R70 say. -/
def decode (w : Word32) : Except DecodeError Instr :=
  match opcodeMap (fieldOp w) (fieldA w) (fieldB w) (fieldC w) with
  | none => .error .reservedOpcode
  | some (f, i) => if w &&& f.reserved = 0#32 then .ok i else .error .reservedField

/-- The opcode of a command (R68). -/
def opcodeOf : Instr → Byte
  | .readReg _ => 0x01#8
  | .writeReg _ _ => 0x02#8
  | .busInit => 0x08#8
  | .busClose => 0x09#8
  | .eeBusy => 0x10#8
  | .eeLock => 0x11#8
  | .eeReadWord _ => 0x12#8
  | .eeReadImage => 0x13#8
  | .eeWriteWord _ _ _ => 0x14#8
  | .eeProgram => 0x20#8
  | .vcell _ => 0x30#8
  | .rsense => 0x31#8
  | .icur => 0x32#8
  | .vthr _ => 0x33#8
  | .statusDecode => 0x34#8
  | .dvolt _ _ => 0x38#8
  | .dsense _ => 0x39#8
  | .dcur _ _ _ => 0x3A#8
  | .chkId => 0x40#8

/-- The operand bytes A, B, C of a command, zero where its format reserves the field (R66, R68). -/
def operandsOf : Instr → Byte × Byte × Byte
  | .readReg a => (a, 0, 0)
  | .writeReg a v => (a, v, 0)
  | .busInit => (0, 0, 0)
  | .busClose => (0, 0, 0)
  | .eeBusy => (0, 0, 0)
  | .eeLock => (0, 0, 0)
  | .eeReadWord a => (a, 0, 0)
  | .eeReadImage => (0, 0, 0)
  | .eeWriteWord a even odd => (a, even, odd)
  | .eeProgram => (0, 0, 0)
  | .vcell i => (i, 0, 0)
  | .rsense => (0, 0, 0)
  | .icur => (0, 0, 0)
  | .vthr sel => (sel, 0, 0)
  | .statusDecode => (0, 0, 0)
  | .dvolt hi lo => (hi, lo, 0)
  | .dsense raw => (raw, 0, 0)
  | .dcur lo hi sense => (lo, hi, sense)
  | .chkId => (0, 0, 0)

/-- The command word of a command: OP, A, B, C from the most significant byte down (R65). -/
def encode (i : Instr) : Word32 :=
  opcodeOf i ++ (operandsOf i).1 ++ (operandsOf i).2.1 ++ (operandsOf i).2.2

/-- The command word made of a table row's `nbits` low bits; every bit above them is 0. A command word has 32
bits (R64), so a longer row is none. -/
def tableWord (nbits w : Nat) : Option Word32 :=
  if nbits ≤ 32 then some (BitVec.ofNat 32 (w % 2 ^ nbits)) else none

/-- The command that the decoder reads from an opcode-table word (bit 0 the least significant). -/
def decodeTableWord (nbits w : Nat) : Option Instr :=
  match tableWord nbits w with
  | none => none
  | some v =>
    match decode v with
    | .ok i => some i
    | .error _ => none

/-- The assembler of R74, on a mnemonic and its operands as numbers in field order: it rejects an unknown
mnemonic, a wrong operand count and an operand that does not fit in 8 bits. -/
def assemble (mnemonic : String) (operands : List Nat) : Option Instr :=
  if operands.all (· < 256) then
    match mnemonic, operands.map (BitVec.ofNat 8) with
    | "READ_REG", [a] => some (.readReg a)
    | "WRITE_REG", [a, v] => some (.writeReg a v)
    | "BUSINIT", [] => some .busInit
    | "BUSCLOSE", [] => some .busClose
    | "EE_BUSY", [] => some .eeBusy
    | "EE_LOCK", [] => some .eeLock
    | "EE_READ_WORD", [a] => some (.eeReadWord a)
    | "EE_READ_IMAGE", [] => some .eeReadImage
    | "EE_WRITE_WORD", [a, even, odd] => some (.eeWriteWord a even odd)
    | "EE_PROGRAM", [] => some .eeProgram
    | "VCELL", [i] => some (.vcell i)
    | "RSENSE", [] => some .rsense
    | "ICUR", [] => some .icur
    | "VTHR", [sel] => some (.vthr sel)
    | "STATUS_DECODE", [] => some .statusDecode
    | "DVOLT", [hi, lo] => some (.dvolt hi lo)
    | "DSENSE", [raw] => some (.dsense raw)
    | "DCUR", [lo, hi, sense] => some (.dcur lo hi sense)
    | "CHK_ID", [] => some .chkId
    | _, _ => none
  else none

end Sys2Proof
end

