-- ==== Sys2Proof/Machine/State.lean ====
section
/-!
DEFINITION. The state of the block as plain data (rules R15 to R38), with the model's own input and observation
fields, the reasons a step can stop, and the state after reset (R37).
-/

namespace Sys2Proof.Machine

open Sys2Proof

/-- STAT.STATE (R18). -/
inductive Phase where
  | idle
  | running
  | done
  | fault
  deriving DecidableEq, Repr

/-- The block's fault codes (R145). These are recorded in STAT.FCODE; they are not stops of the model. -/
inductive FaultCode where
  | none
  | transport
  | auth
  | input
  | precondition
  | unknownDevice
  | timeout
  | illegalCommand
  | illegalOperand
  | lifecycle
  deriving DecidableEq, Repr

/-- The seven primitives of the bus port with their arguments (R78). `read ack` answers the byte it reads with
ACK when `ack` is true and with NACK when it is false. -/
inductive BusPrim where
  | init
  | close
  | start
  | stop
  | write (bytes : List Byte)
  | getAck
  | read (ack : Bool)
  deriving DecidableEq, Repr

/-- The answers of R78. -/
inductive Answer where
  | ok
  | err
  | opened (clock : Word32) (desc : List Byte)
  | ack
  | nack
  | byte (b : Byte)
  deriving DecidableEq, Repr

/-- One entry of the bus log: the primitive, its arguments and its answer (R81). -/
structure BusEvent where
  prim : BusPrim
  answer : Answer
  deriving DecidableEq, Repr

/-- What the host or the platform does in one step (R3, R39, R166; log 3). A host access names its offset and
its width in bits; a narrow write carries its value in the low bits. -/
inductive HostAction where
  /-- The host makes no access in this step: the block may advance. -/
  | quiet
  /-- A host write of `value` at `off`. -/
  | write (off width : Nat) (value : Word32)
  /-- A host read at `off`. -/
  | read (off width : Nat)
  /-- The platform asserts reset (R166). -/
  | reset
  deriving DecidableEq, Repr

/-- The observation of one host read (R180). -/
structure HostRead where
  off : Nat
  value : Word32
  deriving DecidableEq, Repr

/-- A host-readable register whose reset value is "unspecified (no value)" (R37, R38): its bits and whether they
have been written since reset. While `written` is false no read shows `bits` (log 6). -/
structure OutReg where
  written : Bool
  bits : Word32
  deriving DecidableEq, Repr

/-- The host buffers (R28 to R30), keyed by host offset. A byte that is not listed holds no value (R38; log 7). -/
abbrev Memory := List Host.Cell

/-- Where a register transaction stands (R83, R84, R85): the bus event it issues next. `WriteReg` passes through
`start`, `send` and `stop` only; `ackFail` is the BusStop of AckFail (R84). -/
inductive Beat where
  | start
  | send
  | ackSend
  | restart
  | sendRead
  | ackRead
  | data
  | dummy
  | stop
  | ackFail
  deriving DecidableEq, Repr

/-- The sequencer position (R17): none while no command is in progress; `entry` from acceptance until the checks
of R152 are made; then the line of the command's procedure and the bus event within its transaction. Loops of
fixed length are unrolled, so a line number holds the loop index too (log 5). -/
inductive Position where
  | none
  | entry
  | at (line : Nat) (beat : Beat)
  deriving DecidableEq, Repr

/-- The local variables of the procedures: `byte` is the answer of the transaction's BusRead(ACK) (R83), `odd` and
`even` the word of ReadWord (R96), `first` and `second` the raw bytes of VCELL and ICUR (R124, R130), `status`
the authentication status (R112), `flagBits` the F of STATUS_DECODE (R136). They end with the command (R44; log 14). -/
structure Scratch where
  byte : Byte
  odd : Byte
  even : Byte
  first : Byte
  second : Byte
  status : Byte
  flagBits : Word32
  deriving DecidableEq, Repr

/-- The local variables when no command is in progress (log 14). -/
def Scratch.clear : Scratch :=
  { byte := 0, odd := 0, even := 0, first := 0, second := 0, status := 0, flagBits := 0 }

/-- The whole state. Rules are those of spec/10_state.md unless another is named. -/
structure State where
  /-- The OPEN parameters (R7): not block state (R16), never changed by a step; carried here (log 1). -/
  config : Config
  /-- CFG (R20), 32 bits with its reserved bits 0. -/
  cfgReg : Word32
  /-- STAT.STATE (R18, R22). -/
  phase : Phase
  /-- STAT.FCODE (R22). -/
  fcode : FaultCode
  /-- STAT.RVALID (R22, R25). -/
  rvalid : Bool
  /-- STAT.BUS_READY (R22). -/
  busReady : Bool
  /-- STAT.ID_WARN (R22, R143). -/
  idWarn : Bool
  /-- STAT.AUTH_VALID (R22, R112). -/
  authValid : Bool
  /-- STAT.AUTH_FAIL (R22, R112). -/
  authFail : Bool
  /-- STAT.AUTH_OK (R22, R112). -/
  authOk : Bool
  /-- STAT.AUTH_BUSY (R22, R112). -/
  authBusy : Bool
  /-- STAT.UNBAL_CLEARED (R22, R136). -/
  unbalCleared : Bool
  /-- STAT.LAST_OP (R22). -/
  lastOp : Byte
  /-- SRC_LEN bits 15:0 (R23). -/
  srcLen : BitVec 16
  /-- STORE_LEN bits 8:0 (R24). -/
  storeLen : BitVec 9
  /-- RES0 (R25). -/
  res0 : OutReg
  /-- RES1 (R25). -/
  res1 : OutReg
  /-- RES2 (R25). -/
  res2 : OutReg
  /-- RES3 (R25). -/
  res3 : OutReg
  /-- FLAGS (R26). -/
  flags : OutReg
  /-- CLKRATE (R27). -/
  clkRate : OutReg
  /-- SRCBUF, IMGBUF and STORE (R28, R29, R30). -/
  mem : Memory
  /-- CFG_WRITTEN (R31). -/
  cfgWritten : Bool
  /-- POLLCOUNT (R32). -/
  pollCount : BitVec 17
  /-- LATCH (R33). -/
  latch : Word32
  /-- STORE_SEL as read when the command was accepted (R98; log 16). -/
  selLatch : Bool
  /-- The sequencer position (R17). -/
  pos : Position
  /-- The local variables of the running procedure (log 14). -/
  scratch : Scratch
  /-- MODEL: the coming actions of host and platform, next first (log 3). -/
  inbox : List HostAction
  /-- MODEL: the coming answers of the bus port, next first; after them the free value `Config.reply` (log 2). -/
  replies : List Reply
  /-- MODEL: how many answers `Config.reply` has given (log 2). -/
  answered : Nat
  /-- MODEL: how many values `Config.draw` has given (log 8). -/
  drawn : Nat
  /-- MODEL: the bus log (R81), newest event first (log 12). -/
  logRev : List BusEvent
  /-- MODEL: the host reads (R180), newest first (log 12). -/
  readsRev : List HostRead
  deriving DecidableEq, Repr

/-- The bus log of R81, in issue order. -/
def State.busLog (s : State) : List BusEvent := s.logRev.reverse

/-- The host reads of R180, in the order they were made. -/
def State.hostReads (s : State) : List HostRead := s.readsRev.reverse

/-- Why the model stops with a fault. The block's own faults are states (R150), so this is the model's alone. -/
inductive Fault where
  /-- Raised by `runCommand` (Machine/Ops.lean) when the sequencer stands at a line that the command's procedure
  does not have, or at a bus event that the line's transaction does not have. No run from reset reaches such a
  state. Safe: the model stops where the spec has no machine (log 15). -/
  | positionLost
  deriving DecidableEq, Repr

/-- Why the model gives a step no meaning. -/
inductive Refusal where
  /-- Raised by an arm of `exec` whose instruction has no meaning yet. Safe: nothing is proved of it. -/
  | notModelled (mnemonic : String)
  /-- Raised by a host access of a width, alignment or offset other than those of R39. Safe (R39: "is refused"). -/
  | hostAccessIllegal
  /-- Raised by a host write of CMD, CFG, SRC_LEN, STORE_LEN, SRCBUF or STORE while STATE = RUNNING. Safe (R40:
  "is refused by the model"). -/
  | hostWriteWhileRunning
  /-- Raised by a procedure that would consume an SRCBUF or STORE byte that holds no value. Safe (R38: "is refused
  by the model"). -/
  | byteHoldsNoValue
  deriving DecidableEq, Repr

/-- What a step, a meaning or a line of a procedure answers. -/
abbrev Out := Host.Outcome State Fault Refusal

/-- A register of R37's rows "unspecified (no value)" after reset: nothing written; the bits are a choice that no
read shows (log 6). -/
def OutReg.unwritten : OutReg := { written := false, bits := 0 }

/-- The state after reset (R37), with no host action and no scripted bus answer ahead and nothing observed yet. -/
def State.reset : State :=
  { config := Config.deployed
    cfgReg := 0
    phase := .idle
    fcode := .none
    rvalid := false
    busReady := false
    idWarn := false
    authValid := false
    authFail := false
    authOk := false
    authBusy := false
    unbalCleared := false
    lastOp := 0
    srcLen := 0
    storeLen := 0
    res0 := OutReg.unwritten
    res1 := OutReg.unwritten
    res2 := OutReg.unwritten
    res3 := OutReg.unwritten
    flags := OutReg.unwritten
    clkRate := OutReg.unwritten
    mem := []
    cfgWritten := false
    pollCount := 0
    latch := 0
    selLatch := false
    pos := .none
    scratch := Scratch.clear
    inbox := []
    replies := []
    answered := 0
    drawn := 0
    logRev := []
    readsRev := [] }

end Sys2Proof.Machine
end

