-- ==== Sys2Proof/Machine/Ops.lean ====
section
/-!
DEFINITION. The operations that every command shares: the host buffers, the result registers, taking a fault and
finishing (rules R150, R151), accepting a command (R21), reset (R166), the bus events with their answers and log
(R78 to R81), the two register transactions as lines of a procedure (R83 to R85), and the sequencer that runs a
command's procedure one bus event at a time (R17).
-/

namespace Sys2Proof.Machine

open Sys2Proof

/-! ## The host buffers -/

/-- The byte at a host offset, none while it holds no value (R38). -/
def Memory.read : Memory → Nat → Option Byte
  | [], _ => none
  | (a, b) :: m, x => if x = a then some b else Memory.read m x

/-- Writing a byte at a host offset; offsets stay strictly rising. -/
def Memory.write : Memory → Nat → Byte → Memory
  | [], x, v => [(x, v)]
  | (a, b) :: m, x, v =>
    if x < a then (x, v) :: (a, b) :: m
    else if x = a then (x, v) :: m
    else (a, b) :: Memory.write m x v

/-- The host buffers of R10. -/
inductive Buffer where
  | srcbuf
  | imgbuf
  | store
  deriving DecidableEq, Repr

/-- The host offset of a buffer's byte 0 (R19). -/
def Buffer.base : Buffer → Nat
  | .srcbuf => 0x100
  | .imgbuf => 0x200
  | .store => 0x300

/-- How many bytes a buffer has (R28, R29, R30). -/
def Buffer.size : Buffer → Nat
  | .srcbuf => 128
  | .imgbuf => 128
  | .store => 256

/-- Whether a host offset lies in one of the three buffers (R19). -/
def inBuffer (x : Nat) : Bool :=
  [Buffer.srcbuf, Buffer.imgbuf, Buffer.store].any fun b => b.base ≤ x && x < b.base + b.size

/-- The canonical form: offsets strictly rising, each in one of the buffers. Every listed byte differs from what
an unlisted one reads as, since that is no value. -/
abbrev Memory.wf (m : Memory) : Prop :=
  List.Pairwise (fun x y => x.1 < y.1) m ∧ ∀ c ∈ m, inBuffer c.1 = true

/-- `MemRead(S, addr, 1)` (R10): none when the byte holds no value. -/
def memRead (buf : Buffer) (a : Nat) (s : State) : Option Byte := s.mem.read (buf.base + a)

/-- `MemWrite(S, addr, 1, v)` (R10). -/
def memWrite (buf : Buffer) (a : Nat) (v : Byte) (s : State) : State :=
  { s with mem := s.mem.write (buf.base + a) v }

/-! ## CFG fields (R20) and the address bytes (R80) -/

/-- CFG.DEV_ADDR. -/
def State.devAddr (s : State) : BitVec 7 := s.cfgReg.extractLsb' 0 7
/-- CFG.STORE_SEL. -/
def State.storeSel (s : State) : Bool := s.cfgReg.getLsbD 8
/-- CFG.ID_OVERRIDE. -/
def State.idOverride (s : State) : Bool := s.cfgReg.getLsbD 9
/-- CFG.VERBOSITY: stored, of no effect (R43). -/
def State.verbosity (s : State) : BitVec 4 := s.cfgReg.extractLsb' 12 4
/-- CFG.POLL_LIMIT. -/
def State.pollLimit (s : State) : BitVec 16 := s.cfgReg.extractLsb' 16 16

/-- `ADDR_W = DEV_ADDR ‖ 0b0` (R80; log 11). -/
def State.addrW (s : State) : Byte := s.devAddr ++ 0#1
/-- `ADDR_R = DEV_ADDR ‖ 0b1` (R80; log 11). -/
def State.addrR (s : State) : Byte := s.devAddr ++ 1#1

/-! ## Result registers (R25, R26, R27) -/

/-- `zext_32` of a byte (R9). -/
def zext32 (b : Byte) : Word32 := b.setWidth 32

/-- A register with these bits, written. -/
def OutReg.holding (v : Word32) : OutReg := { written := true, bits := v }

/-- `H.RES0 <- v; H.STAT.RVALID <- 1` (R25). -/
def State.setRes0 (s : State) (v : Word32) : State := { s with res0 := OutReg.holding v, rvalid := true }
/-- `H.RES1 <- v; H.STAT.RVALID <- 1` (R25). -/
def State.setRes1 (s : State) (v : Word32) : State := { s with res1 := OutReg.holding v, rvalid := true }
/-- `H.RES2 <- v; H.STAT.RVALID <- 1` (R25). -/
def State.setRes2 (s : State) (v : Word32) : State := { s with res2 := OutReg.holding v, rvalid := true }
/-- `H.RES3 <- v; H.STAT.RVALID <- 1` (R25). -/
def State.setRes3 (s : State) (v : Word32) : State := { s with res3 := OutReg.holding v, rvalid := true }
/-- `H.FLAGS <- v; H.STAT.RVALID <- 1` (R136). -/
def State.setFlags (s : State) (v : Word32) : State := { s with flags := OutReg.holding v, rvalid := true }
/-- `H.CLKRATE <- v; H.STAT.RVALID <- 1` (R88). -/
def State.setClkRate (s : State) (v : Word32) : State := { s with clkRate := OutReg.holding v, rvalid := true }

/-! ## Faults, completion, acceptance, reset -/

/-- Fault entry (R150): the code and STATE = FAULT; nothing else that the host or the device can see changes. The
position and the local variables of the procedure end with the command (R17, R44). There is no return from a
fault but reset (R155). -/
def raiseFault (c : FaultCode) (s : State) : State :=
  { s with fcode := c, phase := .fault, pos := .none, scratch := Scratch.clear }

/-- Completion (R151): STATE = DONE; FCODE and the results stay. -/
def finish (s : State) : State :=
  { s with phase := .done, pos := .none, scratch := Scratch.clear }

/-- Acceptance of the command word `w` (R21, R33; STORE_SEL is sampled here, R98). -/
def accept (w : Word32) (s : State) : State :=
  { s with
    latch := w
    phase := .running
    lastOp := fieldOp w
    rvalid := false
    authValid := false
    authFail := false
    authOk := false
    authBusy := false
    unbalCleared := false
    selLatch := s.storeSel
    pos := .entry
    scratch := Scratch.clear }

/-- Reset (R166, R167): every piece of block state takes its value of R37, whatever the block was doing. The
parameters, the coming inputs and the record of the run are not block state and stay (log 12). It is the only way
out of FAULT (R155). -/
def resetBlock (s : State) : State :=
  { State.reset with
    config := s.config
    inbox := s.inbox
    replies := s.replies
    answered := s.answered
    drawn := s.drawn
    logRev := s.logRev
    readsRev := s.readsRev }

/-! ## Bus events -/

/-- The answer waiting for the next bus event: the script's next entry, or the free value (R3; log 2). -/
def State.nextReply (s : State) : Reply :=
  match s.replies with
  | r :: _ => r
  | [] => Config.reply s.answered

/-- The state once that answer is taken. -/
def State.takeReply (s : State) : State :=
  match s.replies with
  | _ :: rs => { s with replies := rs }
  | [] => { s with answered := s.answered + 1 }

/-- What a reply means as the answer of a primitive (R78). -/
def answerOf (p : BusPrim) (r : Reply) : Answer :=
  if r.failed then .err
  else
    match p with
    | .init => .opened r.clock r.desc
    | .close => .ok
    | .start => .ok
    | .stop => .ok
    | .write _ => .ok
    | .getAck => if r.nack then .nack else .ack
    | .read _ => .byte r.byte

/-- A bus event is recorded with its arguments and its answer (R81). -/
def recordEvent (p : BusPrim) (s : State) : State :=
  { s.takeReply with logRev := ⟨p, answerOf p s.nextReply⟩ :: s.logRev }

/-- One bus event: it is logged; the answer `err` is Fault(TRANSPORT) at once (R79); any other answer goes on. -/
def busCall (p : BusPrim) (s : State) (k : Reply → State → Out) : Out :=
  if s.nextReply.failed then .next (raiseFault .transport (recordEvent p s))
  else k s.nextReply (recordEvent p s)

/-! ## Procedures -/

/-- What a silent part of a procedure decides. -/
inductive Verdict where
  /-- Go on with the next line. -/
  | proceed (s : State)
  /-- Go on with the line after the next one. -/
  | skip (s : State)
  /-- Do the same line again, from its first bus event. -/
  | again (s : State)
  /-- `raise Fault(code)` (R10). -/
  | raise (c : FaultCode) (s : State)
  /-- The model gives the run no meaning (R38). -/
  | refuse (r : Refusal)

/-- A line of a command's procedure. Lines are computed from the command and the state at every step and never
stored. -/
inductive Line where
  /-- `BusInit()` and what is done with its clock rate (R88). -/
  | busInit (use : Word32 → State → State)
  /-- `BusClose()` and what is done after it (R89). -/
  | busClose (after : State → State)
  /-- `b <- ReadReg(a)` and what is done with `b` (R83). -/
  | readReg (a : Byte) (use : Byte → State → Verdict)
  /-- `WriteReg(a, v)` and what is done after it (R85). -/
  | writeReg (a v : Byte) (after : State → State)
  /-- A line with no bus event. -/
  | silent (act : State → Verdict)

/-- The first step of line `j`, or `finish()` when the procedure has no line `j` (R151). -/
def goTo (n j : Nat) (s : State) : State :=
  if j < n then { s with pos := .at j .start } else finish s

/-- The sequencer stands before another bus event of the same line. -/
def toBeat (j : Nat) (b : Beat) (s : State) : State := { s with pos := .at j b }

/-- What follows line `j` of a procedure of `n` lines. -/
def settle (n j : Nat) : Verdict → Out
  | .proceed s => .next (goTo n (j + 1) s)
  | .skip s => .next (goTo n (j + 2) s)
  | .again s => .next (toBeat j .start s)
  | .raise c s => .next (raiseFault c s)
  | .refuse r => .refused r

/-- `ReadReg(a)` (R83, R84), one bus event a step: Start, Write [ADDR_W, a], GetAck, Start, Write [ADDR_R], GetAck,
Read(ACK), Read(NACK), Stop; a NACK leads to AckFail's Stop and Fault(TRANSPORT). -/
def readRegBeat (n j : Nat) (a : Byte) (use : Byte → State → Verdict) (b : Beat) (s : State) : Out :=
  match b with
  | .start => busCall .start s fun _ t => .next (toBeat j .send t)
  | .send => busCall (.write [s.addrW, a]) s fun _ t => .next (toBeat j .ackSend t)
  | .ackSend =>
    busCall .getAck s fun r t => .next (if r.nack then toBeat j .ackFail t else toBeat j .restart t)
  | .restart => busCall .start s fun _ t => .next (toBeat j .sendRead t)
  | .sendRead => busCall (.write [s.addrR]) s fun _ t => .next (toBeat j .ackRead t)
  | .ackRead =>
    busCall .getAck s fun r t => .next (if r.nack then toBeat j .ackFail t else toBeat j .data t)
  | .data =>
    busCall (.read true) s fun r t => .next (toBeat j .dummy { t with scratch := { t.scratch with byte := r.byte } })
  | .dummy => busCall (.read false) s fun _ t => .next (toBeat j .stop t)
  | .stop => busCall .stop s fun _ t => settle n j (use t.scratch.byte t)
  | .ackFail => busCall .stop s fun _ t => .next (raiseFault .transport t)

/-- `WriteReg(a, v)` (R85), one bus event a step: Start, Write [ADDR_W, a, v], Stop; no acknowledgement is asked
for. -/
def writeRegBeat (n j : Nat) (a v : Byte) (after : State → State) (b : Beat) (s : State) : Out :=
  match b with
  | .start => busCall .start s fun _ t => .next (toBeat j .send t)
  | .send => busCall (.write [s.addrW, a, v]) s fun _ t => .next (toBeat j .stop t)
  | .stop => busCall .stop s fun _ t => settle n j (.proceed (after t))
  | .ackSend => .fault .positionLost
  | .restart => .fault .positionLost
  | .sendRead => .fault .positionLost
  | .ackRead => .fault .positionLost
  | .data => .fault .positionLost
  | .dummy => .fault .positionLost
  | .ackFail => .fault .positionLost

/-- One step of a line. A line that is not a transaction has only its first beat. -/
def runLine (n j : Nat) (b : Beat) (line : Line) (s : State) : Out :=
  match line with
  | .readReg a use => readRegBeat n j a use b s
  | .writeReg a v after => writeRegBeat n j a v after b s
  | .busInit use =>
    if b = .start then busCall .init s fun r t => settle n j (.proceed (use r.clock t)) else .fault .positionLost
  | .busClose after =>
    if b = .start then busCall .close s fun _ t => settle n j (.proceed (after t)) else .fault .positionLost
  | .silent act => if b = .start then settle n j (act s) else .fault .positionLost

/-- What the checks before the procedure lead to: its first line, a fault, or a refusal. -/
def settleEntry (n : Nat) : Verdict → Out
  | .proceed s => .next (goTo n 0 s)
  | .skip s => .next (goTo n 1 s)
  | .again s => .next { s with pos := .entry }
  | .raise c s => .next (raiseFault c s)
  | .refuse r => .refused r

/-- One step of a command: at its entry the checks of R152 and the assignments that stand before the first bus
event; after that, one step of the line the sequencer stands at (R17). -/
def runCommand (entry : State → Verdict) (lines : List Line) (s : State) : Out :=
  match s.pos with
  | .none => settleEntry lines.length (entry s)
  | .entry => settleEntry lines.length (entry s)
  | .at j b =>
    match lines[j]? with
    | some line => runLine lines.length j b line s
    | none => .fault .positionLost

/-- The lifecycle check of a command that uses the bus (R82, R152): LIFECYCLE while BUS_READY = 0. -/
def needBus (s : State) : Verdict := if s.busReady then .proceed s else .raise .lifecycle s

/-- The same for a command that uses the bus only for ReadWord (R152): no bus is needed with STORE_SEL = 1. -/
def needBusForWord (s : State) : Verdict := if s.selLatch then .proceed s else needBus s

/-- An operand check before the others (R152, step 2): the fault `c` unless `legal`. -/
def requireOperand (legal : Bool) (c : FaultCode) (rest : State → Verdict) (s : State) : Verdict :=
  if legal then rest s else .raise c s

/-- A line `b <- ReadReg(a)` that goes on with the next line. -/
def readInto (a : Byte) (use : Byte → State → State) : Line := .readReg a fun b s => .proceed (use b s)

/-- A line `WriteReg(a, v)` after which nothing else is done. -/
def writeTo (a v : Byte) : Line := .writeReg a v id

end Sys2Proof.Machine
end

