-- ==== Sys2Proof/Machine/Flags.lean ====
section
/-!
DEFINITION. The status bits: the STAT word (rule R22), the busy bit (R94), the authentication status (R112), and
the status-flag table (R133 to R136).
-/

namespace Sys2Proof.Machine

open Sys2Proof

/-- The two bits of STAT.STATE (R18). -/
def Phase.code : Phase → BitVec 2
  | .idle => 0
  | .running => 1
  | .done => 2
  | .fault => 3

/-- The four bits of STAT.FCODE (R145). -/
def FaultCode.code : FaultCode → BitVec 4
  | .none => 0
  | .transport => 1
  | .auth => 2
  | .input => 3
  | .precondition => 4
  | .unknownDevice => 5
  | .timeout => 6
  | .illegalCommand => 7
  | .illegalOperand => 8
  | .lifecycle => 9

/-- STAT as the host reads it (R22), most significant field first; reserved bits are 0. -/
def State.statWord (s : State) : Word32 :=
  0#8 ++ s.lastOp ++ BitVec.ofBool s.unbalCleared ++ BitVec.ofBool s.authBusy ++ BitVec.ofBool s.authOk ++
    BitVec.ofBool s.authFail ++ BitVec.ofBool s.authValid ++ BitVec.ofBool s.idWarn ++
    BitVec.ofBool s.busReady ++ BitVec.ofBool s.rvalid ++ s.fcode.code ++ 0#2 ++ s.phase.code

/-- The EEPROM is busy iff bit 7 of the control register's byte is 1 (R94). -/
def busyBit (c : Byte) : Bool := c.getLsbD 7

/-- The authentication status latched into STAT (R112). -/
def State.latchAuth (s : State) (status : Byte) : State :=
  { s with
    authFail := status.getLsbD s.config.authFailBit
    authOk := status.getLsbD s.config.authOkBit
    authBusy := status.getLsbD s.config.authBusyBit
    authValid := true }

/-- The verdict reads the ok bit alone (R113). -/
def authPermits (c : Config) (status : Byte) : Bool := status.getLsbD c.authOkBit

/-- Bit `k` of a 32-bit value set to `b`; a `k` above 31 changes nothing. -/
def setBit (f : Word32) (k : Nat) (b : Bool) : Word32 :=
  if b then f ||| (1#32 <<< k) else f &&& ~~~(1#32 <<< k)

/-- `for each k with P_FLAG_TABLE[k].reg = reg: F[k] <- v[P_FLAG_TABLE[k].bit]` (R136), from entry `k` on. -/
def latchFlags (reg v : Byte) : Nat → List FlagEntry → Word32 → Word32
  | _, [], f => f
  | k, e :: es, f => latchFlags reg v (k + 1) es (if e.reg = reg then setBit f k (v.getLsbD e.bit) else f)

/-- The distinct registers of the flag table in ascending address order (R134). -/
def flagRegs (c : Config) : List Byte :=
  ((List.range 256).map (BitVec.ofNat 8)).filter fun r => c.flagTable.any fun e => e.reg = r

/-- The unbalanced bit of the shutdown register's byte: bit 4, value 0x10 (R6, R135). -/
def unbalancedBit (v : Byte) : Bool := v.getLsbD 4

end Sys2Proof.Machine
end

