-- ==== Sys2Proof/Machine/Operands.lean ====
section
/-!
DEFINITION. The operand checks (rules R52, R72, R124, R132), the registers and addresses that operands name (R123,
R126, R132), and the decode functions of rules R119 to R131: pure functions of their input bytes.
-/

namespace Sys2Proof.Machine

open Sys2Proof

/-- An EEPROM word address operand is legal (R52, R102): even and at most 126. -/
def wordAddrLegal (a : Byte) : Bool := !a.getLsbD 0 && a.toNat ≤ 126

/-- A cell index operand is legal (R124). -/
def cellIndexLegal (i : Byte) : Bool := i.toNat ≤ 12

/-- A threshold selector operand is legal (R132). -/
def selectorLegal (sel : Byte) : Bool := sel.toNat ≤ 3

/-- The two registers of cell `i`, in the order they are read (R123). -/
def cellRegA (c : Config) (i : Byte) : Byte := c.regCellBase + 2 * i
/-- The second register of cell `i` (R123). -/
def cellRegB (c : Config) (i : Byte) : Byte := c.regCellBase + 2 * i + 1

/-- The bytes (hi, lo) of a cell pair from the bytes read first and second (R123). -/
def cellPair (c : Config) (first second : Byte) : Byte × Byte :=
  if c.cellLoFirst then (second, first) else (first, second)

/-- `P_EE_SENSE_ADDR & 0x7E`: the word that holds the sense byte (R126). -/
def senseWordAddr (c : Config) : Byte := c.eeSenseAddr.setWidth 8 &&& 0x7E#8

/-- The sense byte of that word (R126). -/
def senseByte (c : Config) (even odd : Byte) : Byte := if c.eeSenseAddr.getLsbD 0 then odd else even

/-- The word address of threshold `sel` (R132): 0 OV_TH, 1 OV_REL, 2 UV_TH, 3 UV_REL. -/
def thresholdAddr (c : Config) (sel : Byte) : Byte :=
  match sel.toNat with
  | 0 => c.eeOvTh
  | 1 => c.eeOvRel
  | 2 => c.eeUvTh
  | _ => c.eeUvRel

/-- A word or a 16-bit value as a 32-bit register: high byte in bits 15:8, low byte in 7:0 (R51, R67, R129). -/
def pack16 (hi lo : Byte) : Word32 := (hi ++ lo : BitVec 16).setWidth 32

/-- `Sample(hi, lo) = (hi << 5) + (lo >> 3)` on integers (R119, R121). -/
def sample (hi lo : Byte) : Nat := hi.toNat * 32 + lo.toNat / 8

/-- `V10(sample) = sample × 122`, in units of 10 µV (R122). -/
def v10 (smp : Nat) : Nat := smp * 122

/-- `SenseValue(raw)`: 25 for 0, else `raw` (R125). -/
def senseValue (raw : Byte) : Nat := if raw = 0 then 25 else raw.toNat

/-- The raw current as an integer (R129): two's complement when `signed`, else unsigned. -/
def rawCurrent (isSigned : Bool) (hi lo : Byte) : Int :=
  if hi.msb && isSigned then (hi.toNat * 256 + lo.toNat : Int) - 65536 else hi.toNat * 256 + lo.toNat

/-- `NUM = r × 763` (R128). -/
def currentNum (r : Int) : Int := r * 763

/-- `DEN = 10000 × sense` (R128). -/
def currentDen (sense : Nat) : Nat := 10000 * sense

/-- `RES0 <- smp; RES1 <- smp × 122` (R124, R132, R137). -/
def State.setVoltage (s : State) (hi lo : Byte) : State :=
  (s.setRes0 (BitVec.ofNat 32 (sample hi lo))).setRes1 (BitVec.ofNat 32 (v10 (sample hi lo)))

/-- `RES0 <- SenseValue(raw); RES1 <- raw` (R127, R138). -/
def State.setSense (s : State) (raw : Byte) : State :=
  (s.setRes0 (BitVec.ofNat 32 (senseValue raw))).setRes1 (zext32 raw)

/-- `RES0 <- raw16; RES1 <- sense; RES2 <- (r × 763) mod 2^32; RES3 <- 10000 × sense` (R130, R139). -/
def State.setCurrent (s : State) (hi lo raw : Byte) : State :=
  (((s.setRes0 (pack16 hi lo)).setRes1 (BitVec.ofNat 32 (senseValue raw))).setRes2
    (BitVec.ofInt 32 (currentNum (rawCurrent s.config.currentSigned hi lo)))).setRes3
    (BitVec.ofNat 32 (currentDen (senseValue raw)))

end Sys2Proof.Machine
end

