-- ==== Sys2Proof/Machine/Eeprom.lean ====
section
/-!
DEFINITION. Spec/41_eeprom_access.md: the procedures PollNotBusy, Lock, ReadWord and WriteWord as lines, and the
commands EE_BUSY, EE_LOCK, EE_READ_WORD, EE_READ_IMAGE, EE_WRITE_WORD.
-/

namespace Sys2Proof.Machine

open Sys2Proof

/-- What PollNotBusy does with the control register's byte (R93): not busy returns; busy counts, and faults TIMEOUT
when POLL_LIMIT is not 0 and that many reads in a row were busy; else it reads again. -/
def pollTest (c : Byte) (s : State) : Verdict :=
  if busyBit c then
    let t := { s with pollCount := s.pollCount + 1 }
    if t.pollLimit ≠ 0 ∧ t.pollLimit.toNat ≤ t.pollCount.toNat then .raise .timeout t else .again t
  else .proceed s

/-- `POLLCOUNT <- 0` (R93, R32). -/
def pollReset (s : State) : Verdict := .proceed { s with pollCount := 0 }

/-- `PollNotBusy()` (R93). -/
def linesPoll (c : Config) : List Line := [.silent pollReset, .readReg c.regEeCtrl pollTest]

/-- `Lock()` (R95): poll until not busy, then mode = idle/locked 0x00. -/
def linesLock (c : Config) : List Line := linesPoll c ++ [writeTo c.regEeCtrl 0x00#8]

/-- `odd <- b` (R96). -/
def saveOdd (b : Byte) (s : State) : State := { s with scratch := { s.scratch with odd := b } }
/-- `even <- b` (R96). -/
def saveEven (b : Byte) (s : State) : State := { s with scratch := { s.scratch with even := b } }

/-- `ReadWordDev(a)` (R96): address before mode, odd byte before even byte, then Lock. The word is left in the
local variables `even` and `odd`. -/
def linesReadWordDev (c : Config) (a : Byte) : List Line :=
  linesPoll c ++ [writeTo c.regEeAddr a] ++
  linesPoll c ++ [writeTo c.regEeCtrl 0x55#8] ++
  linesPoll c ++ [readInto c.regEeRdOdd saveOdd] ++
  linesPoll c ++ [readInto c.regEeRdEven saveEven] ++
  linesLock c

/-- `ReadWordStore(a)` (R97): INPUT when `a + 2 > STORE_LEN`; refused when a byte holds no value (R38). -/
def readWordStore (a : Byte) (s : State) : Verdict :=
  if a.toNat + 2 > s.storeLen.toNat then .raise .input s
  else
    match memRead .store a.toNat s, memRead .store (a.toNat + 1) s with
    | some even, some odd => .proceed (saveOdd odd (saveEven even s))
    | _, _ => .refuse .byteHoldsNoValue

/-- `ReadWord(a)` (R98): the variant that STORE_SEL named when the command was accepted. -/
def linesReadWord (s : State) (a : Byte) : List Line :=
  if s.selLatch then [.silent (readWordStore a)] else linesReadWordDev s.config a

/-- `WriteWord(a, even, odd)` (R99): mode before address, odd byte before even byte, no poll between the two data
writes, then Lock. -/
def linesWriteWord (c : Config) (a even odd : Byte) : List Line :=
  linesPoll c ++ [writeTo c.regEeCtrl 0x52#8] ++
  linesPoll c ++ [writeTo c.regEeAddr a] ++
  linesPoll c ++ [writeTo c.regEeWrOdd odd, writeTo c.regEeWrEven even] ++
  linesLock c

/-! ## Commands -/

/-- EE_BUSY (R100): RES0 the control byte, RES1 its busy bit. -/
def linesEeBusy (c : Config) : List Line :=
  [readInto c.regEeCtrl fun b s => (s.setRes0 (zext32 b)).setRes1 (if busyBit b then 1 else 0)]

/-- EE_BUSY (R100): exactly one read. -/
def execEeBusy (s : State) : Out := runCommand needBus (linesEeBusy s.config) s

/-- EE_LOCK (R101). -/
def execEeLock (s : State) : Out := runCommand needBus (linesLock s.config) s

/-- `H.RES0 <- zext_32(odd ‖ even); H.STAT.RVALID <- 1` (R102, R51). -/
def wordResult (s : State) : Verdict := .proceed (s.setRes0 (pack16 s.scratch.odd s.scratch.even))

/-- EE_READ_WORD (R102). -/
def linesEeReadWord (s : State) (a : Byte) : List Line := linesReadWord s a ++ [.silent wordResult]

/-- EE_READ_WORD (R102): ILLEGAL_OPERAND, then LIFECYCLE in the device variant. -/
def execEeReadWord (a : Byte) (s : State) : Out :=
  runCommand (requireOperand (wordAddrLegal a) .illegalOperand needBusForWord) (linesEeReadWord s a) s

/-- `H.RES0 <- 0; H.STAT.RVALID <- 1` before the word loop (R103, R116). -/
def startCount (v : Verdict) : Verdict :=
  match v with
  | .proceed s => .proceed (s.setRes0 0)
  | other => other

/-- `MemWrite(IMGBUF, 2k, 1, even); MemWrite(IMGBUF, 2k + 1, 1, odd); H.RES0 <- k + 1` (R103). -/
def storeImageWord (k : Nat) (s : State) : Verdict :=
  .proceed
    ((memWrite .imgbuf (2 * k + 1) s.scratch.odd (memWrite .imgbuf (2 * k) s.scratch.even s)).setRes0
      (BitVec.ofNat 32 (k + 1)))

/-- The word `k` of EE_READ_IMAGE (R103). -/
def linesImageWord (s : State) (k : Nat) : List Line :=
  linesReadWord s (BitVec.ofNat 8 (2 * k)) ++ [.silent (storeImageWord k)]

/-- EE_READ_IMAGE (R103): the 64 words in ascending order. -/
def linesEeReadImage (s : State) : List Line := (List.range 64).flatMap (linesImageWord s)

/-- The check of EE_READ_IMAGE, then `H.RES0 <- 0; H.STAT.RVALID <- 1` (R103). -/
def entryEeReadImage (s : State) : Verdict := startCount (needBusForWord s)

/-- EE_READ_IMAGE (R103). -/
def execEeReadImage (s : State) : Out := runCommand entryEeReadImage (linesEeReadImage s) s

/-- EE_WRITE_WORD (R104): always addresses the device, whatever STORE_SEL is. -/
def execEeWriteWord (a even odd : Byte) (s : State) : Out :=
  runCommand (requireOperand (wordAddrLegal a) .illegalOperand needBus) (linesWriteWord s.config a even odd) s

end Sys2Proof.Machine
end

