-- ==== Sys2Proof/Machine/Identity.lean ====
section
/-!
DEFINITION. Spec/44_device_identity.md: the command CHK_ID.
-/

namespace Sys2Proof.Machine

open Sys2Proof

/-- `P_KNOWN_ID(id)` (R141). -/
def identityKnown (c : Config) (id : Byte) : Bool := c.knownIds.contains id

/-- What CHK_ID does with the identity byte (R142, R143): RES0 and RES1 are written first; an unknown identity
faults UNKNOWN_DEVICE unless CFG.ID_OVERRIDE makes it the sticky warning. -/
def checkIdentity (id : Byte) (s : State) : Verdict :=
  let t := (s.setRes0 (zext32 id)).setRes1 (if identityKnown s.config id then 1 else 0)
  if identityKnown s.config id then .proceed t
  else if t.idOverride then .proceed { t with idWarn := true }
  else .raise .unknownDevice t

/-- CHK_ID (R142): the identity register is read once (R141). -/
def linesChkId (c : Config) : List Line := [.readReg c.regDeviceId checkIdentity]

/-- CHK_ID (R142). -/
def execChkId (s : State) : Out := runCommand needBus (linesChkId s.config) s

end Sys2Proof.Machine
end

