-- ==== Sys2Proof/Machine/Program.lean ====
section
/-!
DEFINITION. Spec/42_authenticated_programming.md: the nine steps of the authenticated rewrite and the command
EE_PROGRAM.
-/

namespace Sys2Proof.Machine

open Sys2Proof

/-- The checks of EE_PROGRAM (R109, R116, R152): INPUT when SRC_LEN is not 128, then LIFECYCLE; then RES0 <- 0 and
RVALID <- 1. -/
def entryEeProgram (s : State) : Verdict :=
  if s.srcLen ≠ 128#16 then .raise .input s else startCount (needBus s)

/-- Steps 3 and 4 (R111): mode 0x50, then the password bytes, even first, with no poll before them. -/
def linesUnlock (s : State) : List Line :=
  linesPoll s.config ++
  [writeTo s.config.regEeCtrl 0x50#8,
   writeTo s.config.regAuthPwEven s.scratch.even,
   writeTo s.config.regAuthPwOdd s.scratch.odd]

/-- Step 5 (R112): the status byte is kept and its three bits are latched into STAT. -/
def takeStatus (b : Byte) (s : State) : State :=
  ({ s with scratch := { s.scratch with status := b } }).latchAuth b

/-- Step 7 (R113): AUTH unless the ok bit is set. -/
def verdictAuth (s : State) : Verdict :=
  if authPermits s.config s.scratch.status then .proceed s else .raise .auth s

/-- `MemRead(SRCBUF, 2k, 1)` and `MemRead(SRCBUF, 2k + 1, 1)` (R115): refused when a byte holds no value (R38). -/
def fetchSourceWord (k : Nat) (s : State) : Verdict :=
  match memRead .srcbuf (2 * k) s, memRead .srcbuf (2 * k + 1) s with
  | some even, some odd => .proceed (saveOdd odd (saveEven even s))
  | _, _ => .refuse .byteHoldsNoValue

/-- `H.RES0 <- k + 1` (R115). -/
def countWord (k : Nat) (s : State) : Verdict := .proceed (s.setRes0 (BitVec.ofNat 32 (k + 1)))

/-- Word `k` of step 9 (R115). -/
def linesProgramWord (s : State) (k : Nat) : List Line :=
  [.silent (fetchSourceWord k)] ++
  linesWriteWord s.config (BitVec.ofNat 8 (2 * k)) s.scratch.even s.scratch.odd ++
  [.silent (countWord k)]

/-- EE_PROGRAM (R116): password read (R110), unlock (R111), status (R112), session lock and verdict (R113), erase
(R114), the 64 words in ascending order (R115). -/
def linesEeProgram (s : State) : List Line :=
  linesReadWord s 0x7A#8 ++
  linesUnlock s ++
  [readInto s.config.regAuthStatus takeStatus] ++
  linesLock s.config ++
  [.silent verdictAuth] ++
  linesPoll s.config ++ [writeTo s.config.regEeCtrl 0x53#8] ++
  (List.range 64).flatMap (linesProgramWord s)

/-- EE_PROGRAM (R116). -/
def execEeProgram (s : State) : Out := runCommand entryEeProgram (linesEeProgram s) s

end Sys2Proof.Machine
end

