-- ==== Sys2Proof/Machine/RegisterAccess.lean ====
section
/-!
DEFINITION. The commands of spec/40_register_access.md: READ_REG, WRITE_REG, BUSINIT, BUSCLOSE. Each has its
procedure (`lines…`) and its meaning (`exec…`).
-/

namespace Sys2Proof.Machine

open Sys2Proof

/-- READ_REG (R86): `b <- ReadReg(a); H.RES0 <- zext_32(b); H.STAT.RVALID <- 1`. -/
def linesReadReg (a : Byte) : List Line := [readInto a fun b s => s.setRes0 (zext32 b)]

/-- READ_REG (R86). -/
def execReadReg (a : Byte) (s : State) : Out := runCommand needBus (linesReadReg a) s

/-- WRITE_REG (R87): `WriteReg(a, v)`. No busy poll, whatever `a` is. -/
def linesWriteReg (a v : Byte) : List Line := [writeTo a v]

/-- WRITE_REG (R87). -/
def execWriteReg (a v : Byte) (s : State) : Out := runCommand needBus (linesWriteReg a v) s

/-- BUSINIT's check (R88): LIFECYCLE when the transport is open or CFG was never written. -/
def entryBusInit (s : State) : Verdict :=
  if s.busReady || !s.cfgWritten then .raise .lifecycle s else .proceed s

/-- BUSINIT (R88): `BusInit()`, then CLKRATE, RVALID and BUS_READY. -/
def linesBusInit : List Line := [.busInit fun clock s => { s.setClkRate clock with busReady := true }]

/-- BUSINIT (R88). -/
def execBusInit (s : State) : Out := runCommand entryBusInit linesBusInit s

/-- BUSCLOSE (R89): `BusClose()`, then BUS_READY is 0; no lock of the EEPROM. -/
def linesBusClose : List Line := [.busClose fun s => { s with busReady := false }]

/-- BUSCLOSE (R89). -/
def execBusClose (s : State) : Out := runCommand needBus linesBusClose s

end Sys2Proof.Machine
end

