-- ==== Sys2Proof/Machine/Telemetry.lean ====
section
/-!
DEFINITION. Spec/43_telemetry_decoding.md: the commands VCELL, RSENSE, ICUR, VTHR, STATUS_DECODE (read and decode)
and DVOLT, DSENSE, DCUR (decode operands only).
-/

namespace Sys2Proof.Machine

open Sys2Proof

/-- The first raw byte of a pair (R124 `bA`, R130 `lo`). -/
def saveFirst (b : Byte) (s : State) : State := { s with scratch := { s.scratch with first := b } }
/-- The second raw byte of a pair (R124 `bB`, R130 `hi`). -/
def saveSecond (b : Byte) (s : State) : State := { s with scratch := { s.scratch with second := b } }

/-- VCELL's result from the bytes read first and second (R124). -/
def cellResult (first second : Byte) (s : State) : State :=
  let hi := (cellPair s.config first second).1
  let lo := (cellPair s.config first second).2
  (s.setVoltage hi lo).setRes2 (pack16 hi lo)

/-- VCELL (R124): the register pair, lower address first. -/
def linesVcell (c : Config) (i : Byte) : List Line :=
  [readInto (cellRegA c i) saveFirst,
   readInto (cellRegB c i) fun b s => cellResult s.scratch.first b s]

/-- VCELL (R124): PRECONDITION for an index above 12, before LIFECYCLE. -/
def execVcell (i : Byte) (s : State) : Out :=
  runCommand (requireOperand (cellIndexLegal i) .precondition needBus) (linesVcell s.config i) s

/-- RSENSE's result (R126, R127). -/
def senseResult (s : State) : Verdict :=
  .proceed (s.setSense (senseByte s.config s.scratch.even s.scratch.odd))

/-- RSENSE (R127): the word that holds the sense byte, then the result. -/
def linesRsense (s : State) : List Line := linesReadWord s (senseWordAddr s.config) ++ [.silent senseResult]

/-- RSENSE (R127). -/
def execRsense (s : State) : Out := runCommand needBusForWord (linesRsense s) s

/-- ICUR's result (R130). -/
def currentResult (s : State) : Verdict :=
  .proceed (s.setCurrent s.scratch.second s.scratch.first (senseByte s.config s.scratch.even s.scratch.odd))

/-- ICUR (R130): current low byte, current high byte, then the sense byte. -/
def linesIcur (s : State) : List Line :=
  [readInto s.config.regCurrentLo saveFirst, readInto s.config.regCurrentHi saveSecond] ++
  linesReadWord s (senseWordAddr s.config) ++ [.silent currentResult]

/-- ICUR (R130): always needs the bus. -/
def execIcur (s : State) : Out := runCommand needBus (linesIcur s) s

/-- VTHR's result (R131, R132): lo is the even byte, hi the odd byte. -/
def thresholdResult (s : State) : Verdict :=
  .proceed ((s.setVoltage s.scratch.odd s.scratch.even).setRes2 (pack16 s.scratch.odd s.scratch.even))

/-- VTHR (R132). -/
def linesVthr (s : State) (sel : Byte) : List Line :=
  linesReadWord s (thresholdAddr s.config sel) ++ [.silent thresholdResult]

/-- VTHR (R132): ILLEGAL_OPERAND for a selector above 3, before LIFECYCLE. -/
def execVthr (sel : Byte) (s : State) : Out :=
  runCommand (requireOperand (selectorLegal sel) .illegalOperand needBusForWord) (linesVthr s sel) s

/-- `for each k with P_FLAG_TABLE[k].reg = reg: F[k] <- v[bit]` (R136). -/
def takeFlags (reg v : Byte) (s : State) : State :=
  { s with scratch := { s.scratch with flagBits := latchFlags reg v 0 s.config.flagTable s.scratch.flagBits } }

/-- The read of one register of the flag table; the shutdown register's is followed by the corrective write of 0x10
when its bit 4 is 1, and by nothing when it is 0 (R134, R135). -/
def linesFlagReg (c : Config) (reg : Byte) : List Line :=
  if reg = c.regShutdown then
    [.readReg reg fun v s =>
        if unbalancedBit v then .proceed (takeFlags reg v s) else .skip (takeFlags reg v s),
     .writeReg reg 0x10#8 fun s => { s with unbalCleared := true }]
  else [readInto reg (takeFlags reg)]

/-- `H.FLAGS <- F; H.STAT.RVALID <- 1` (R136). -/
def flagsResult (s : State) : Verdict := .proceed (s.setFlags s.scratch.flagBits)

/-- STATUS_DECODE (R136): the registers of the flag table in ascending order, then FLAGS. -/
def linesStatusDecode (c : Config) : List Line :=
  (flagRegs c).flatMap (linesFlagReg c) ++ [.silent flagsResult]

/-- `F <- 0` after the lifecycle check (R136). -/
def entryStatusDecode (s : State) : Verdict :=
  needBus { s with scratch := { s.scratch with flagBits := 0 } }

/-- STATUS_DECODE (R136). -/
def execStatusDecode (s : State) : Out := runCommand entryStatusDecode (linesStatusDecode s.config) s

/-- DVOLT's whole effect (R137): no bus event, no check after decoding. -/
def entryDvolt (hi lo : Byte) (s : State) : Verdict := .proceed (s.setVoltage hi lo)

/-- DVOLT (R137). -/
def execDvolt (hi lo : Byte) (s : State) : Out := runCommand (entryDvolt hi lo) [] s

/-- DSENSE's whole effect (R138). -/
def entryDsense (raw : Byte) (s : State) : Verdict := .proceed (s.setSense raw)

/-- DSENSE (R138). -/
def execDsense (raw : Byte) (s : State) : Out := runCommand (entryDsense raw) [] s

/-- DCUR's whole effect (R139). -/
def entryDcur (lo hi sense : Byte) (s : State) : Verdict := .proceed (s.setCurrent hi lo sense)

/-- DCUR (R139). -/
def execDcur (lo hi sense : Byte) (s : State) : Out := runCommand (entryDcur lo hi sense) [] s

end Sys2Proof.Machine
end

