-- ==== Sys2Proof/Machine/Dispatch.lean ====
section
/-!
DEFINITION. The meaning of every command: one step of it, at the position the sequencer holds (rules R17, R76).
-/

namespace Sys2Proof.Machine

open Sys2Proof

/-- One step of command `i` (R76): its checks when it has just been accepted, else the next bus event or silent line
of its procedure. -/
def exec (i : Instr) (s : State) : Host.Outcome State Fault Refusal :=
  match i with
  | .readReg a => Sys2Proof.Machine.execReadReg a s
  | .writeReg a v => Sys2Proof.Machine.execWriteReg a v s
  | .busInit => Sys2Proof.Machine.execBusInit s
  | .busClose => Sys2Proof.Machine.execBusClose s
  | .eeBusy => Sys2Proof.Machine.execEeBusy s
  | .eeLock => Sys2Proof.Machine.execEeLock s
  | .eeReadWord a => Sys2Proof.Machine.execEeReadWord a s
  | .eeReadImage => Sys2Proof.Machine.execEeReadImage s
  | .eeWriteWord a even odd => Sys2Proof.Machine.execEeWriteWord a even odd s
  | .eeProgram => Sys2Proof.Machine.execEeProgram s
  | .vcell k => Sys2Proof.Machine.execVcell k s
  | .rsense => Sys2Proof.Machine.execRsense s
  | .icur => Sys2Proof.Machine.execIcur s
  | .vthr sel => Sys2Proof.Machine.execVthr sel s
  | .statusDecode => Sys2Proof.Machine.execStatusDecode s
  | .dvolt hi lo => Sys2Proof.Machine.execDvolt hi lo s
  | .dsense raw => Sys2Proof.Machine.execDsense raw s
  | .dcur lo hi sense => Sys2Proof.Machine.execDcur lo hi sense s
  | .chkId => Sys2Proof.Machine.execChkId s

end Sys2Proof.Machine
end

