-- ==== Sys2Proof/Machine/HostPort.lean ====
section
/-!
DEFINITION. The host interface: the 1 KiB map of rule R19 with the widths of R39, host writes (R20 to R24, R28, R30,
R40, R42) and host reads (R22, R38, R41, R42). A host access is not a bus event (R48).
-/

namespace Sys2Proof.Machine

open Sys2Proof

/-- What stands at a host offset (R19). -/
inductive HostLoc where
  | cmd
  | stat
  | cfg
  | srcLen
  | storeLen
  | res0
  | res1
  | res2
  | res3
  | flags
  | clkRate
  | reserved
  | buffer (b : Buffer)
  deriving DecidableEq, Repr

/-- The location of a register offset, a multiple of 4 below 0x100 (R19). -/
def regLoc (off : Nat) : HostLoc :=
  match off with
  | 0x000 => .cmd
  | 0x004 => .stat
  | 0x008 => .cfg
  | 0x00C => .srcLen
  | 0x010 => .storeLen
  | 0x014 => .res0
  | 0x018 => .res1
  | 0x01C => .res2
  | 0x020 => .res3
  | 0x024 => .flags
  | 0x028 => .clkRate
  | _ => .reserved

/-- The location of a byte offset from 0x100 to 0x3FF (R19). -/
def byteLoc (off : Nat) : HostLoc :=
  if off < 0x180 then .buffer .srcbuf
  else if off < 0x200 then .reserved
  else if off < 0x280 then .buffer .imgbuf
  else if off < 0x300 then .reserved
  else .buffer .store

/-- The location that an access reaches: 32-bit aligned accesses below 0x100, byte accesses from 0x100 to 0x3FF,
nothing else (R39). -/
def hostLoc (off width : Nat) : Option HostLoc :=
  if off < 0x100 then (if width = 32 ∧ off % 4 = 0 then some (regLoc off) else none)
  else if off < 0x400 then (if width = 8 then some (byteLoc off) else none)
  else none

/-- A host write that R40 refuses while STATE = RUNNING. -/
def whenNotRunning (s : State) (t : State) : Out :=
  if s.phase = .running then .refused .hostWriteWhileRunning else .next t

/-- The bits of CFG that are not reserved (R20, R42): all but 7 and 11:10. -/
def cfgMask : Word32 := 0xFFFFF37F#32

/-- An accepted write of CFG (R20, R31): reserved bits stay 0; DEV_ADDR keeps its value while BUS_READY = 1. -/
def writeCfg (v : Word32) (s : State) : State :=
  { s with
    cfgReg :=
      if s.busReady then (s.cfgReg &&& 0x0000007F#32) ||| (v &&& 0xFFFFF300#32) else v &&& cfgMask
    cfgWritten := true }

/-- A write of CMD (R21): accepted in IDLE and DONE, ignored in FAULT, refused in RUNNING. -/
def writeCmd (w : Word32) (s : State) : Out :=
  match s.phase with
  | .idle => .next (accept w s)
  | .done => .next (accept w s)
  | .fault => .next s
  | .running => .refused .hostWriteWhileRunning

/-- STORE_LEN holds `min(v[15:0], 256)` (R24). -/
def clampStoreLen (v : Word32) : BitVec 9 := BitVec.ofNat 9 (min (v.extractLsb' 0 16).toNat 256)

/-- A host write at a location (R20 to R24, R28, R30, R42). Writes of the read-only registers, of IMGBUF and of
reserved offsets change nothing (R22, R42; log 9). -/
def writeLoc (loc : HostLoc) (off : Nat) (v : Word32) (s : State) : Out :=
  match loc with
  | .cmd => writeCmd v s
  | .cfg => whenNotRunning s (writeCfg v s)
  | .srcLen => whenNotRunning s { s with srcLen := v.extractLsb' 0 16 }
  | .storeLen => whenNotRunning s { s with storeLen := clampStoreLen v }
  | .buffer .srcbuf => whenNotRunning s { s with mem := s.mem.write off (v.extractLsb' 0 8) }
  | .buffer .store => whenNotRunning s { s with mem := s.mem.write off (v.extractLsb' 0 8) }
  | .buffer .imgbuf => .next s
  | .stat => .next s
  | .res0 => .next s
  | .res1 => .next s
  | .res2 => .next s
  | .res3 => .next s
  | .flags => .next s
  | .clkRate => .next s
  | .reserved => .next s

/-- What a register of R37's "no value" rows shows when a read of it is defined (R38, R41). -/
def OutReg.shown (r : OutReg) (isDefined : Bool) : Option Word32 :=
  if isDefined && r.written then some r.bits else none

/-- The value of a host read; none where it is unspecified (R38, R41). -/
def readLoc (loc : HostLoc) (off : Nat) (s : State) : Option Word32 :=
  let quietBlock := s.phase ≠ .running
  match loc with
  | .cmd => some 0
  | .stat => some s.statWord
  | .cfg => some s.cfgReg
  | .srcLen => some (s.srcLen.setWidth 32)
  | .storeLen => some (s.storeLen.setWidth 32)
  | .res0 => s.res0.shown (quietBlock && s.rvalid)
  | .res1 => s.res1.shown (quietBlock && s.rvalid)
  | .res2 => s.res2.shown (quietBlock && s.rvalid)
  | .res3 => s.res3.shown (quietBlock && s.rvalid)
  | .flags => s.flags.shown quietBlock
  | .clkRate => s.clkRate.shown quietBlock
  | .reserved => some 0
  | .buffer .imgbuf => if quietBlock then (s.mem.read off).map zext32 else none
  | .buffer .srcbuf => (s.mem.read off).map zext32
  | .buffer .store => (s.mem.read off).map zext32

/-- The next draw, cut to the width of the access: any byte or any 32-bit value (R38; log 8). -/
def nextDraw (width : Nat) (s : State) : Word32 :=
  if width = 8 then zext32 ((Config.draw s.drawn).setWidth 8) else Config.draw s.drawn

/-- A host read: its value is observed (R180); an unspecified one is a fresh draw (R38, R41). -/
def hostRead (loc : HostLoc) (off width : Nat) (s : State) : State :=
  match readLoc loc off s with
  | some v => { s with readsRev := ⟨off, v⟩ :: s.readsRev }
  | none => { s with readsRev := ⟨off, nextDraw width s⟩ :: s.readsRev, drawn := s.drawn + 1 }

/-- One action of host or platform, but for `quiet`, on which the block advances instead (log 3). -/
def hostStep (a : HostAction) (s : State) : Out :=
  match a with
  | .quiet => .next s
  | .reset => .next (resetBlock s)
  | .write off width v =>
    match hostLoc off width with
    | some loc => writeLoc loc off v s
    | none => .refused .hostAccessIllegal
  | .read off width =>
    match hostLoc off width with
    | some loc => .next (hostRead loc off width s)
    | none => .refused .hostAccessIllegal

end Sys2Proof.Machine
end

