-- ==== Sys2Proof/Machine/Advance.lean ====
section
/-!
DEFINITION. One step of the machine: the host's next action, or one step of the running command (rules R17, R58,
R76, R180); and how a word of the opcode table is placed as the running command.
-/

namespace Sys2Proof.Machine

open Sys2Proof

/-- One step of the block itself: while RUNNING, the command in LATCH is decoded and does its next step (R33, R76),
and a word that is no command faults ILLEGAL_COMMAND; in IDLE, DONE and FAULT the block waits for the host (R18,
R155, R169). -/
def advance (s : State) : Out :=
  if s.phase = .running then
    match decode s.latch with
    | .ok i => exec i s
    | .error _ => .next (raiseFault .illegalCommand s)
  else .next s

/-- One step of a run (R180): the host's next action if it makes one, else one step of the block (log 3). -/
def runStep (s : State) : Out :=
  match s.inbox with
  | [] => advance s
  | a :: rest => if a = .quiet then advance { s with inbox := rest } else hostStep a { s with inbox := rest }

/-- The host makes no access in the next step; its coming accesses stay in their order (log 3). -/
def hostWaits (s : State) : State :=
  match s.inbox with
  | [] => s
  | a :: _ => if a = .quiet then s else { s with inbox := .quiet :: s.inbox }

/-- The word is accepted as if the host had written it to CMD (R21), and the next step is the block's. -/
def placeCommand (w : Word32) (s : State) : State := accept w (hostWaits s)

end Sys2Proof.Machine
end

