-- ==== Sys2Proof/Machine/Step.lean ====
section
/-!
DEFINITION. The step of the machine, and where the host places a word of the opcode table.
-/

namespace Sys2Proof.Machine

open Sys2Proof

/-- One step (Machine/Advance.lean says what it is). -/
def step (s : State) : Host.Outcome State Fault Refusal := runStep s

/-- The block has just accepted the command word of an opcode-table row, so the very next step decodes it and does
its first step. The block fetches nothing (R61); a command reaches LATCH by a host write of CMD (R21; log 4). A row
longer than a command word changes nothing. -/
def State.withFetchWord (s : State) (nbits w : Nat) : State :=
  match tableWord nbits w with
  | some v => placeCommand v s
  | none => s

end Sys2Proof.Machine
end

