-- ==== Sys2Proof/Machine/Procedures.lean ====
section
/-!
DEFINITION. The checks and the procedure of every command in one place each, for statements about all commands:
`exec i` is `runCommand (entryOf i) (linesOf i s) s` (Laws/Ops.lean proves it).
-/

namespace Sys2Proof.Machine

open Sys2Proof

/-- What a command does before its first line: its checks (R152) and the assignments before its first event. -/
def entryOf (i : Instr) (s : State) : Verdict :=
  match i with
  | .readReg _ => needBus s
  | .writeReg _ _ => needBus s
  | .busInit => entryBusInit s
  | .busClose => needBus s
  | .eeBusy => needBus s
  | .eeLock => needBus s
  | .eeReadWord a => requireOperand (wordAddrLegal a) .illegalOperand needBusForWord s
  | .eeReadImage => entryEeReadImage s
  | .eeWriteWord a _ _ => requireOperand (wordAddrLegal a) .illegalOperand needBus s
  | .eeProgram => entryEeProgram s
  | .vcell k => requireOperand (cellIndexLegal k) .precondition needBus s
  | .rsense => needBusForWord s
  | .icur => needBus s
  | .vthr sel => requireOperand (selectorLegal sel) .illegalOperand needBusForWord s
  | .statusDecode => entryStatusDecode s
  | .dvolt hi lo => entryDvolt hi lo s
  | .dsense raw => entryDsense raw s
  | .dcur lo hi sense => entryDcur lo hi sense s
  | .chkId => needBus s

/-- The procedure of a command, line by line, in state `s` (R17). -/
def linesOf (i : Instr) (s : State) : List Line :=
  match i with
  | .readReg a => linesReadReg a
  | .writeReg a v => linesWriteReg a v
  | .busInit => linesBusInit
  | .busClose => linesBusClose
  | .eeBusy => linesEeBusy s.config
  | .eeLock => linesLock s.config
  | .eeReadWord a => linesEeReadWord s a
  | .eeReadImage => linesEeReadImage s
  | .eeWriteWord a even odd => linesWriteWord s.config a even odd
  | .eeProgram => linesEeProgram s
  | .vcell k => linesVcell s.config k
  | .rsense => linesRsense s
  | .icur => linesIcur s
  | .vthr sel => linesVthr s sel
  | .statusDecode => linesStatusDecode s.config
  | .dvolt _ _ => []
  | .dsense _ => []
  | .dcur _ _ _ => []
  | .chkId => linesChkId s.config

/-- The bus events that a line's transaction has (R83 to R85); a line of another kind has its first beat only. -/
def Line.hasBeat (line : Line) (b : Beat) : Bool :=
  match line with
  | .readReg _ _ => true
  | .writeReg _ _ _ => b = .start || b = .send || b = .stop
  | .busInit _ => b = .start
  | .busClose _ => b = .start
  | .silent _ => b = .start

end Sys2Proof.Machine
end

