-- ==== Sys2Proof/Safety.lean ====
section
/-!
DEFINITION. The terms that statements about the machine use: when a command has just been accepted, the transactions
of a run in the spec's own notation (`rd X→v`, `wr X←v`) with the answers that serve them and the events they
leave in the bus log, the order of the checks of R152, the invariant of every state that a run reaches, and what every step
keeps of the bus log.
-/

namespace Sys2Proof.Machine

open Sys2Proof

/-! ## Runs -/

/-- The command has just been accepted (R21): the next step of the block makes its checks. -/
abbrev State.Accepted (i : Instr) (s : State) : Prop :=
  s.phase = .running ∧ s.pos = .entry ∧ decode s.latch = .ok i

/-- The state `t` is reached from `s` by steps of the machine. -/
def Reaches (s t : State) : Prop := ∃ n, Sys2Proof.core.run n s = .next t

/-- A command has ended in state `s`: STATE and FCODE are `p` and `c`, there is no position and no local variable
(R17, R44, R150, R151). -/
def State.ended (s : State) (p : Phase) (c : FaultCode) : State :=
  { s with phase := p, fcode := c, pos := .none, scratch := Scratch.clear }

/-- The state once the answer waiting for the next bus event is taken and the event `e` is the newest of the bus log. -/
def State.logged (s : State) (e : BusEvent) : State := { s.takeReply with logRev := e :: s.logRev }

/-- A register that has been written with `v`. -/
def holds (v : Word32) : OutReg := ⟨true, v⟩

/-! ## Opcodes by format (R66, R68) -/

/-- The opcodes of format N. -/
def opcodesN : List Byte := [0x08, 0x09, 0x10, 0x11, 0x13, 0x20, 0x31, 0x32, 0x34, 0x40]
/-- The opcodes of format A. -/
def opcodesA : List Byte := [0x01, 0x12, 0x30, 0x33, 0x39]
/-- The opcodes of format AB. -/
def opcodesAB : List Byte := [0x02, 0x38]
/-- The opcodes of format ABC. -/
def opcodesABC : List Byte := [0x14, 0x3A]

/-- The words that are no command: a reserved opcode (R69), or a nonzero reserved field (R70). -/
def illegalWord (w : Word32) : Prop :=
  fieldOp w ∉ opcodesN ++ opcodesA ++ opcodesAB ++ opcodesABC ∨
  (fieldOp w ∈ opcodesN ∧ w.extractLsb' 0 24 ≠ 0) ∨
  (fieldOp w ∈ opcodesA ∧ w.extractLsb' 0 16 ≠ 0) ∨
  (fieldOp w ∈ opcodesAB ∧ w.extractLsb' 0 8 ≠ 0)

/-- How many of RES0, RES1, … a command may write (R68, "Results"). -/
def resultCount : Instr → Nat
  | .readReg _ => 1
  | .writeReg _ _ => 0
  | .busInit => 0
  | .busClose => 0
  | .eeBusy => 2
  | .eeLock => 0
  | .eeReadWord _ => 1
  | .eeReadImage => 1
  | .eeWriteWord _ _ _ => 0
  | .eeProgram => 1
  | .vcell _ => 3
  | .rsense => 2
  | .icur => 4
  | .vthr _ => 3
  | .statusDecode => 0
  | .dvolt _ _ => 2
  | .dsense _ => 2
  | .dcur _ _ _ => 4
  | .chkId => 2

/-! ## Transactions (spec/41_eeprom_access.md, notation of the examples) -/

/-- One register transaction: `rd a b` is ReadReg of `a` answering `b`, `wr a v` is WriteReg of `v` to `a`. -/
inductive Xfer where
  | rd (a b : Byte)
  | wr (a v : Byte)
  deriving DecidableEq, Repr

/-- A reply that fails nothing, acknowledges, and carries `b` as its byte. -/
def Reply.serving (b : Byte) : Reply := { failed := false, nack := false, byte := b, clock := 0, desc := [] }

/-- The replies that serve a transaction, one for each bus event. -/
def Xfer.replies : Xfer → List Reply
  | .rd _ b => List.replicate 9 (Reply.serving b)
  | .wr _ _ => List.replicate 3 (Reply.serving 0)

/-- The bus events of a transaction in issue order, with the address bytes of `s` (R83, R85). -/
def Xfer.events (s : State) : Xfer → List BusEvent
  | .rd a b =>
    [⟨.start, .ok⟩, ⟨.write [s.addrW, a], .ok⟩, ⟨.getAck, .ack⟩, ⟨.start, .ok⟩, ⟨.write [s.addrR], .ok⟩,
     ⟨.getAck, .ack⟩, ⟨.read true, .byte b⟩, ⟨.read false, .byte b⟩, ⟨.stop, .ok⟩]
  | .wr a v => [⟨.start, .ok⟩, ⟨.write [s.addrW, a, v], .ok⟩, ⟨.stop, .ok⟩]

/-- The replies that serve a list of transactions. -/
def serveAll (xs : List Xfer) : List Reply := xs.flatMap Xfer.replies

/-- The state in which the transactions `xs` have happened: their replies are used up, leaving `rest`, and their
events are in the bus log. -/
def State.afterXfers (s : State) (xs : List Xfer) (rest : List Reply) : State :=
  { s with replies := rest, logRev := (xs.flatMap (Xfer.events s)).reverse ++ s.logRev }

/-- Lock when the one poll answers `q` (R95). -/
def lockXfers (c : Config) (q : Byte) : List Xfer := [.rd c.regEeCtrl q, .wr c.regEeCtrl 0x00#8]

/-- ReadWordDev when every poll answers `q` (R96). -/
def readWordXfers (c : Config) (q a even odd : Byte) : List Xfer :=
  [.rd c.regEeCtrl q, .wr c.regEeAddr a, .rd c.regEeCtrl q, .wr c.regEeCtrl 0x55#8, .rd c.regEeCtrl q,
   .rd c.regEeRdOdd odd, .rd c.regEeCtrl q, .rd c.regEeRdEven even] ++ lockXfers c q

/-- WriteWord when every poll answers `q` (R99). -/
def writeWordXfers (c : Config) (q a even odd : Byte) : List Xfer :=
  [.rd c.regEeCtrl q, .wr c.regEeCtrl 0x52#8, .rd c.regEeCtrl q, .wr c.regEeAddr a, .rd c.regEeCtrl q,
   .wr c.regEeWrOdd odd, .wr c.regEeWrEven even] ++ lockXfers c q

/-- The authentication session when every poll answers `q`: unlock with the password `[pe, po]`, status `st`, session
lock (R111 to R113). -/
def sessionXfers (c : Config) (q pe po st : Byte) : List Xfer :=
  [.rd c.regEeCtrl q, .wr c.regEeCtrl 0x50#8, .wr c.regAuthPwEven pe, .wr c.regAuthPwOdd po,
   .rd c.regAuthStatus st] ++ lockXfers c q

/-- Where the password word is read from STORE (R98, R110), STORE holds it: the two bytes lie below STORE_LEN and are `pe`
and `po`. -/
def State.passwordHeld (s : State) (pe po : Byte) : Prop :=
  s.selLatch = true →
    0x7C ≤ s.storeLen.toNat ∧ s.mem.read 0x37A = some pe ∧ s.mem.read 0x37B = some po

/-- The erase and the 64 word writes of the image `img` when every poll answers `q` (R114, R115). -/
def rewriteXfers (c : Config) (q : Byte) (img : Nat → Byte) : List Xfer :=
  [.rd c.regEeCtrl q, .wr c.regEeCtrl 0x53#8] ++
  (List.range 64).flatMap fun k => writeWordXfers c q (BitVec.ofNat 8 (2 * k)) (img (2 * k)) (img (2 * k + 1))

/-- The 64 word reads of an image when every poll answers `q` (R103). -/
def readImageXfers (c : Config) (q : Byte) (img : Nat → Byte) : List Xfer :=
  (List.range 64).flatMap fun k => readWordXfers c q (BitVec.ofNat 8 (2 * k)) (img (2 * k)) (img (2 * k + 1))

/-- STATUS_DECODE when register `r` answers `v r`: the registers of the flag table in ascending order, each read once,
and the corrective write right after the shutdown register when its bit 4 reads 1 (R134, R135). -/
def statusXfers (c : Config) (v : Byte → Byte) : List Xfer :=
  (flagRegs c).flatMap fun r =>
    .rd r (v r) :: (if r = c.regShutdown ∧ (v r).getLsbD 4 = true then [.wr r 0x10#8] else [])

/-- Every WriteReg of a procedure whose line before is `prev` comes right after a busy poll's read (R105), but for the
second data byte of a word write, which comes right after the first, and the password bytes, which come right after
the password-unlock mode and each other (R111). -/
def pollDisciplined (c : Config) : Option Line → List Line → Prop
  | _, [] => True
  | prev, line :: rest =>
    (match line with
      | .writeReg a _ _ =>
        prev = some (.readReg c.regEeCtrl pollTest) ∨
        (a = c.regEeWrEven ∧ ∃ v, prev = some (writeTo c.regEeWrOdd v)) ∨
        (a = c.regAuthPwEven ∧ prev = some (writeTo c.regEeCtrl 0x50#8)) ∨
        (a = c.regAuthPwOdd ∧ ∃ v, prev = some (writeTo c.regAuthPwEven v))
      | _ => True) ∧
    pollDisciplined c (some line) rest

/-! ## The checks before any bus event -/

/-- The commands that issue a bus event under the sampled STORE_SEL, BUSINIT apart (R152, step 4). -/
def usesBus (i : Instr) (s : State) : Bool :=
  match i with
  | .readReg _ => true
  | .writeReg _ _ => true
  | .busInit => false
  | .busClose => true
  | .eeBusy => true
  | .eeLock => true
  | .eeReadWord _ => !s.selLatch
  | .eeReadImage => !s.selLatch
  | .eeWriteWord _ _ _ => true
  | .eeProgram => true
  | .vcell _ => true
  | .rsense => !s.selLatch
  | .icur => true
  | .vthr _ => !s.selLatch
  | .statusDecode => true
  | .dvolt _ _ => false
  | .dsense _ => false
  | .dcur _ _ _ => false
  | .chkId => true

/-- The fault that the checks after decoding lead to, in the order of R152: operand range, image length, bus
lifecycle; none when the command goes on. -/
def checkFault (i : Instr) (s : State) : FaultCode :=
  if i.wf = false then (match i with | .vcell _ => .precondition | _ => .illegalOperand)
  else if i = .eeProgram ∧ s.srcLen.toNat ≠ 128 then .input
  else if i = .busInit ∧ (s.busReady = true ∨ s.cfgWritten = false) then .lifecycle
  else if usesBus i s = true ∧ s.busReady = false then .lifecycle
  else .none

/-! ## The invariant -/

/-- The sequencer stands at a line that the running command's procedure has, before a bus event that the line has
(R17). -/
def State.PositionInProcedure (s : State) : Prop :=
  match s.pos with
  | .none => True
  | .entry => True
  | .at j b =>
    ∃ i line, decode s.latch = .ok i ∧ (linesOf i s)[j]? = some line ∧ line.hasBeat b = true

/-- What holds of every state that a run from reset reaches. -/
structure State.Inv (s : State) : Prop where
  /-- R7: the parameters meet their constraints. -/
  config_legal : s.config.Legal
  /-- The host buffers are in canonical form. -/
  mem_wf : Memory.wf s.mem
  /-- R20, R42: the reserved bits of CFG are 0. -/
  cfg_reserved : s.cfgReg &&& ~~~cfgMask = 0
  /-- R24: STORE_LEN is at most 256. -/
  store_len : s.storeLen.toNat ≤ 256
  /-- R22: FCODE is 0 unless STATE = FAULT. -/
  fcode_fault : s.fcode = .none ↔ s.phase ≠ .fault
  /-- R17: there is a position exactly while STATE = RUNNING. -/
  pos_running : s.pos = .none ↔ s.phase ≠ .running
  /-- R44: no byte of the target is kept between commands. -/
  scratch_clear : s.phase ≠ .running → s.scratch = Scratch.clear
  /-- R31, R88: the bus is never open with a CFG that nobody wrote. -/
  bus_configured : s.busReady = true → s.cfgWritten = true
  /-- R88: BUSINIT gets past its check only with CFG written. -/
  init_configured : decode s.latch = .ok .busInit → s.pos ≠ .none → s.pos ≠ .entry → s.cfgWritten = true
  /-- R22: bits 14:12 of STAT are 0 unless AUTH_VALID = 1. -/
  auth_valid : s.authValid = false → s.authFail = false ∧ s.authOk = false ∧ s.authBusy = false
  /-- R25: RVALID = 1 only when some result has been written. -/
  rvalid_written :
    s.rvalid = true → s.res0.written = true ∨ s.flags.written = true ∨ s.clkRate.written = true
  /-- R17: the position is one of the command's procedure. -/
  position : s.PositionInProcedure

/-- The events of the transaction in progress are the newest of the bus log, in issue order, and the byte that
ReadReg will return is the answer to its BusRead(ACK) (R81, R83, R84, R85, R90). -/
def State.InFlight (s : State) : Prop :=
  match s.pos with
  | .none => True
  | .entry => True
  | .at j b =>
    ∀ i line, decode s.latch = .ok i → (linesOf i s)[j]? = some line →
      match line with
      | .readReg a _ =>
        let sent : List BusEvent := [⟨.write [s.addrW, a], .ok⟩, ⟨.start, .ok⟩]
        let again : List BusEvent := [⟨.write [s.addrR], .ok⟩, ⟨.start, .ok⟩, ⟨.getAck, .ack⟩] ++ sent
        match b with
        | .start => True
        | .send => [⟨.start, .ok⟩] <+: s.logRev
        | .ackSend => sent <+: s.logRev
        | .restart => [⟨.getAck, .ack⟩] ++ sent <+: s.logRev
        | .sendRead => [⟨.start, .ok⟩, ⟨.getAck, .ack⟩] ++ sent <+: s.logRev
        | .ackRead => again <+: s.logRev
        | .data => [⟨.getAck, .ack⟩] ++ again <+: s.logRev
        | .dummy => [⟨.read true, .byte s.scratch.byte⟩, ⟨.getAck, .ack⟩] ++ again <+: s.logRev
        | .stop =>
          ∃ d, [⟨.read false, .byte d⟩, ⟨.read true, .byte s.scratch.byte⟩, ⟨.getAck, .ack⟩] ++ again <+: s.logRev
        | .ackFail =>
          [⟨.getAck, .nack⟩] ++ sent <+: s.logRev ∨ [⟨.getAck, .nack⟩] ++ again <+: s.logRev
      | .writeReg a v _ =>
        match b with
        | .send => [⟨.start, .ok⟩] <+: s.logRev
        | .stop => [⟨.write [s.addrW, a, v], .ok⟩, ⟨.start, .ok⟩] <+: s.logRev
        | _ => True
      | _ => True

/-- The newest nine events of the bus log are a ReadReg of `a` that returned `c` (R83), newest first. -/
def State.hasJustRead (s : State) (a c : Byte) : Prop :=
  ∃ dummy,
    [⟨.stop, .ok⟩, ⟨.read false, .byte dummy⟩, ⟨.read true, .byte c⟩, ⟨.getAck, .ack⟩, ⟨.write [s.addrR], .ok⟩,
      ⟨.start, .ok⟩, ⟨.getAck, .ack⟩, ⟨.write [s.addrW, a], .ok⟩, ⟨.start, .ok⟩] <+: s.logRev

/-- The newest three events of the bus log are a WriteReg of `v` to `a` (R85), newest first. -/
def State.hasJustWritten (s : State) (a v : Byte) : Prop :=
  [⟨.stop, .ok⟩, ⟨.write [s.addrW, a, v], .ok⟩, ⟨.start, .ok⟩] <+: s.logRev

/-- The poll discipline in the bus log (R105): a command other than WRITE_REG and STATUS_DECODE that stands before a
WriteReg has just read the control register with bit 7 = 0, or the write is the even data byte after the odd one, or a
password byte of the unlock (R111). An address that is none of the exceptions' has been polled; the even data register,
when no other written register has its address (R7 lets them coincide), comes right after the odd one. -/
def State.FollowsPoll (s : State) : Prop :=
  ∀ j i a v after, s.pos = .at j .start → decode s.latch = .ok i →
    (∀ a v, i ≠ .writeReg a v) → i ≠ .statusDecode → (linesOf i s)[j]? = some (.writeReg a v after) →
    let c := s.config
    ((∃ b, b.getLsbD 7 = false ∧ s.hasJustRead c.regEeCtrl b) ∨
      (a = c.regEeWrEven ∧ ∃ x, s.hasJustWritten c.regEeWrOdd x) ∨
      (a = c.regAuthPwEven ∧ s.hasJustWritten c.regEeCtrl 0x50#8) ∨
      (a = c.regAuthPwOdd ∧ ∃ x, s.hasJustWritten c.regAuthPwEven x)) ∧
    (a = c.regEeWrEven → a ∉ [c.regEeCtrl, c.regEeAddr, c.regEeWrOdd, c.regAuthPwEven, c.regAuthPwOdd] →
      ∃ x, s.hasJustWritten c.regEeWrOdd x)

end Sys2Proof.Machine
end

