-- ==== Sys2Proof/Certificates/Slice0/Obligations.lean ====
section
/-!
DEFINITION. The statements for the provers. Each docstring names the rules of spec/ it rests on; the states are all
states, also those that no run reaches, unless a premise says otherwise.
-/

open Sys2Proof Sys2Proof.Machine

/-! ## Encoding -/

/-- R65, R66, R68, R76: decoding the word of a command gives the command back, with every operand byte.
Which bits R76's second test reads is the model's deduction from R66 and R70 (log 26). -/
def Obligations.DecodeInvertsEncode : Prop := ∀ i : Instr, decode (encode i) = .ok i

/-- R65, R66, R68, R76: a word that decodes is the word of the command it decodes to, so no bit of it is dropped.
Which bits R76's second test reads is the model's deduction from R66 and R70 (log 26). -/
def Obligations.EncodeInvertsDecode : Prop := ∀ (w : Word32) (i : Instr), decode w = .ok i → encode i = w

/-- R68: the words of the opcode map's examples decode to their commands. -/
def Obligations.SpecWordsDecode : Prop :=
  decode 0x01200000#32 = .ok (.readReg 0x20#8) ∧
  decode 0x02D01000#32 = .ok (.writeReg 0xD0#8 0x10#8) ∧
  decode 0x127A0000#32 = .ok (.eeReadWord 0x7A#8) ∧
  decode 0x1410AA55#32 = .ok (.eeWriteWord 0x10#8 0xAA#8 0x55#8) ∧
  decode 0x20000000#32 = .ok .eeProgram ∧
  decode 0x3AE80319#32 = .ok (.dcur 0xE8#8 0x03#8 0x19#8) ∧
  decode 0x40000000#32 = .ok .chkId

/-- R69, R70: a running word with a reserved opcode or a nonzero reserved field faults ILLEGAL_COMMAND before any bus
event and before any other check; every other word is a command. -/
def Obligations.IllegalWordsFaultFirst : Prop :=
  (∀ s : State, s.phase = .running → s.inbox = [] → illegalWord s.latch →
    step s = .next (s.ended .fault .illegalCommand)) ∧
  (∀ w : Word32, ¬ illegalWord w → ∃ i, decode w = .ok i)

/-! ## The step -/

/-- R17, R33, R76: while a command runs, a step in which the host makes no access is one step of the command that LATCH
decodes to; a placed word is such a command.
The host's side is the model's (log 3, 4). -/
def Obligations.StepRunsDecodedCommand : Prop :=
  (∀ (s : State) (i : Instr), s.phase = .running → decode s.latch = .ok i →
    (s.inbox = [] → step s = exec i s) ∧
    (∀ rest, s.inbox = .quiet :: rest → step s = exec i { s with inbox := rest })) ∧
  (∀ (s : State) (w : Word32) (i : Instr), s.inbox = [] → decode w = .ok i →
    (s.withFetchWord 32 w.toNat).Accepted i ∧
    step (s.withFetchWord 32 w.toNat) = exec i (s.withFetchWord 32 w.toNat))

/-- R18: the four values of STATE and the only transitions between them. -/
def Obligations.OnlyTheListedTransitions : Prop :=
  (Phase.idle.code = 0 ∧ Phase.running.code = 1 ∧ Phase.done.code = 2 ∧ Phase.fault.code = 3) ∧
  ∀ s t : State, step s = .next t → t.phase ≠ s.phase →
    (∃ rest, s.inbox = .reset :: rest ∧ t.phase = .idle) ∨
    ((s.phase = .idle ∨ s.phase = .done) ∧ t.phase = .running ∧
      ∃ w rest, s.inbox = .write 0x000 32 w :: rest) ∨
    (s.phase = .running ∧ (t.phase = .done ∨ t.phase = .fault))

/-- R17, R58: a step issues at most one bus event, and the bus log only grows. -/
def Obligations.OneBusEventAStep : Prop :=
  ∀ s t : State, step s = .next t → t.logRev = s.logRev ∨ ∃ e, t.logRev = e :: s.logRev

/-- R33, R40, R98: while a command runs and goes on running, LATCH, the sampled STORE_SEL, CFG, the lengths, the
parameters, LAST_OP, SRCBUF and STORE keep their values, whatever the host does. -/
def Obligations.RunningCommandKeepsItsInputs : Prop :=
  ∀ s t : State, s.phase = .running → step s = .next t → t.phase = .running →
    t.latch = s.latch ∧ t.selLatch = s.selLatch ∧ t.cfgReg = s.cfgReg ∧ t.srcLen = s.srcLen ∧
    t.storeLen = s.storeLen ∧ t.config = s.config ∧ t.lastOp = s.lastOp ∧
    ∀ x, x < 0x200 ∨ 0x280 ≤ x → t.mem.read x = s.mem.read x

/-- R155: in FAULT nothing but reset changes STATE or FCODE, no bus event is issued, and a write of CMD is ignored. -/
def Obligations.FaultEndsOnlyByReset : Prop :=
  ∀ s : State, s.phase = .fault →
    (∀ t, step s = .next t → (∀ rest, s.inbox ≠ .reset :: rest) →
      t.phase = .fault ∧ t.fcode = s.fcode ∧ t.logRev = s.logRev ∧ t.replies = s.replies) ∧
    (∀ w rest, s.inbox = .write 0x000 32 w :: rest → step s = .next { s with inbox := rest })

/-! ## Reset and the host interface -/

/-- R37, R38: the state right after reset. The bits of the registers without a value and of LATCH are the model's
choice (log 6) and are not stated. -/
def Obligations.ResetValues : Prop :=
  let s := State.reset
  s.phase = .idle ∧ s.fcode = .none ∧ s.rvalid = false ∧ s.busReady = false ∧ s.idWarn = false ∧
  s.authValid = false ∧ s.authFail = false ∧ s.authOk = false ∧ s.authBusy = false ∧
  s.unbalCleared = false ∧ s.lastOp = 0x00#8 ∧ s.cfgReg = 0x00000000#32 ∧ s.cfgWritten = false ∧
  s.srcLen = 0#16 ∧ s.storeLen = 0#9 ∧ s.pollCount = 0#17 ∧ s.pos = .none ∧
  s.res0.written = false ∧ s.res1.written = false ∧ s.res2.written = false ∧ s.res3.written = false ∧
  s.flags.written = false ∧ s.clkRate.written = false ∧ ∀ x, s.mem.read x = none

/-- R166, R167: reset in any state gives every piece of block state its reset value, issues no bus event, and leaves the
parameters and the record of the run (log 12). -/
def Obligations.ResetFromAnyState : Prop :=
  ∀ (s : State) (rest : List HostAction), s.inbox = .reset :: rest →
    step s = .next
      { State.reset with
        config := s.config, inbox := rest, replies := s.replies, answered := s.answered,
        drawn := s.drawn, logRev := s.logRev, readsRev := s.readsRev }

/-- R21: a write of CMD is accepted in IDLE and DONE, ignored in FAULT, refused in RUNNING; a read of CMD returns 0.
The position, the cleared local variables and the sampled STORE_SEL are the model's form of R17, R44 and R98 (log 5, 14,
16). -/
def Obligations.CommandAcceptance : Prop :=
  ∀ (s : State) (w : Word32) (rest : List HostAction),
    (s.inbox = .write 0x000 32 w :: rest →
      (s.phase = .idle ∨ s.phase = .done →
        step s = .next
          { s with
            inbox := rest, latch := w, phase := .running, lastOp := w.extractLsb' 24 8, rvalid := false,
            authValid := false, authFail := false, authOk := false, authBusy := false, unbalCleared := false,
            selLatch := s.cfgReg.getLsbD 8, pos := .entry, scratch := Scratch.clear }) ∧
      (s.phase = .fault → step s = .next { s with inbox := rest }) ∧
      (s.phase = .running → step s = .refused .hostWriteWhileRunning)) ∧
    (s.inbox = .read 0x000 32 :: rest →
      step s = .next { s with inbox := rest, readsRev := ⟨0x000, 0⟩ :: s.readsRev })

/-- R20, R31, R42: a write of CFG outside RUNNING sets its fields, keeps the reserved bits 0, keeps DEV_ADDR while
BUS_READY = 1, and sets CFG_WRITTEN; it changes nothing else. -/
def Obligations.CfgWriteFields : Prop :=
  ∀ (s : State) (v : Word32) (rest : List HostAction),
    s.phase ≠ .running → s.inbox = .write 0x008 32 v :: rest →
    ∃ c : Word32,
      step s = .next { s with inbox := rest, cfgReg := c, cfgWritten := true } ∧
      c.extractLsb' 0 7 = (if s.busReady then s.cfgReg.extractLsb' 0 7 else v.extractLsb' 0 7) ∧
      c.getLsbD 7 = false ∧ c.getLsbD 8 = v.getLsbD 8 ∧ c.getLsbD 9 = v.getLsbD 9 ∧
      c.getLsbD 10 = false ∧ c.getLsbD 11 = false ∧
      c.extractLsb' 12 4 = v.extractLsb' 12 4 ∧ c.extractLsb' 16 16 = v.extractLsb' 16 16

/-- R23, R24: a write of SRC_LEN stores v[15:0] as written and a write of STORE_LEN stores min(v[15:0], 256); while RUNNING
both are refused. A read of STORE_LEN shows it zero-extended, in RUNNING too (the last is the model's choice, log 10).
Both are 0 after reset. -/
def Obligations.StoreLenClamps : Prop :=
  (∀ (s : State) (v : Word32) (rest : List HostAction), s.inbox = .write 0x010 32 v :: rest →
    (s.phase ≠ .running →
      ∃ n : BitVec 9, n.toNat = min (v.toNat % 65536) 256 ∧ step s = .next { s with inbox := rest, storeLen := n }) ∧
    (s.phase = .running → step s = .refused .hostWriteWhileRunning)) ∧
  (∀ (s : State) (rest : List HostAction), s.inbox = .read 0x010 32 :: rest →
    step s = .next
      { s with inbox := rest, readsRev := ⟨0x010, BitVec.ofNat 32 s.storeLen.toNat⟩ :: s.readsRev }) ∧
  (∀ (s : State) (v : Word32) (rest : List HostAction), s.inbox = .write 0x00C 32 v :: rest →
    (s.phase ≠ .running →
      ∃ n : BitVec 16, n.toNat = v.toNat % 65536 ∧ step s = .next { s with inbox := rest, srcLen := n }) ∧
    (s.phase = .running → step s = .refused .hostWriteWhileRunning)) ∧
  State.reset.storeLen = 0 ∧ State.reset.srcLen = 0

/-- R40: while RUNNING, host writes of CMD, CFG, SRC_LEN, STORE_LEN, SRCBUF and STORE are refused. -/
def Obligations.RunningRefusesHostWrites : Prop :=
  ∀ (s : State) (off width : Nat) (v : Word32) (rest : List HostAction),
    s.phase = .running → s.inbox = .write off width v :: rest →
    (width = 32 ∧ (off = 0x000 ∨ off = 0x008 ∨ off = 0x00C ∨ off = 0x010)) ∨
    (width = 8 ∧ ((0x100 ≤ off ∧ off ≤ 0x17F) ∨ (0x300 ≤ off ∧ off ≤ 0x3FF))) →
    step s = .refused .hostWriteWhileRunning

/-- R39: an access that is neither 32 bits wide at a multiple of 4 below 0x100 nor 8 bits wide from 0x100 to 0x3FF is
refused; a read that is one of these is serviced. -/
def Obligations.HostAccessWidths : Prop :=
  ∀ (s : State) (off width : Nat) (v : Word32) (rest : List HostAction),
    let legal := (off ≤ 0x0FF ∧ off % 4 = 0 ∧ width = 32) ∨ (0x100 ≤ off ∧ off ≤ 0x3FF ∧ width = 8)
    (¬ legal → s.inbox = .write off width v :: rest → step s = .refused .hostAccessIllegal) ∧
    (¬ legal → s.inbox = .read off width :: rest → step s = .refused .hostAccessIllegal) ∧
    (legal → s.inbox = .read off width :: rest → ∃ t x, step s = .next t ∧ t.readsRev = ⟨off, x⟩ :: s.readsRev)

/-- R42: reserved offsets read 0 and ignore writes; the reserved fields of STAT, CFG, SRC_LEN and STORE_LEN read 0, and a
write of CFG leaves them 0. The premise on CFG is part of the invariant, which a statement of its own says every step
keeps. -/
def Obligations.ReservedReadZero : Prop :=
  (∀ (s : State) (off width : Nat) (v : Word32) (rest : List HostAction),
    (width = 32 ∧ off % 4 = 0 ∧ 0x02C ≤ off ∧ off ≤ 0x0FF) ∨
      (width = 8 ∧ ((0x180 ≤ off ∧ off ≤ 0x1FF) ∨ (0x280 ≤ off ∧ off ≤ 0x2FF))) →
    (s.inbox = .write off width v :: rest → step s = .next { s with inbox := rest }) ∧
    (s.inbox = .read off width :: rest →
      step s = .next { s with inbox := rest, readsRev := ⟨off, 0⟩ :: s.readsRev })) ∧
  (∀ (s : State) (off : Nat) (rest : List HostAction) (t : State) (x : Word32),
    s.cfgReg &&& ~~~cfgMask = 0 → s.inbox = .read off 32 :: rest →
    step s = .next t → t.readsRev = ⟨off, x⟩ :: s.readsRev →
    (off = 0x004 → x.extractLsb' 2 2 = 0 ∧ x.extractLsb' 24 8 = 0) ∧
    (off = 0x008 → x.getLsbD 7 = false ∧ x.extractLsb' 10 2 = 0) ∧
    (off = 0x00C → x.extractLsb' 16 16 = 0) ∧
    (off = 0x010 → x.extractLsb' 9 23 = 0)) ∧
  (∀ (s : State) (v : Word32) (rest : List HostAction),
    s.phase ≠ .running → s.cfgReg &&& ~~~cfgMask = 0 → s.inbox = .write 0x008 32 v :: rest →
    ∃ t, step s = .next t ∧ t.cfgReg &&& ~~~cfgMask = 0)

/-- R22, R145: the ten fault codes, the fields of STAT as a host read shows them, and that a host write of STAT is ignored;
in any state. -/
def Obligations.StatFields : Prop :=
  (FaultCode.none.code = 0 ∧ FaultCode.transport.code = 1 ∧ FaultCode.auth.code = 2 ∧ FaultCode.input.code = 3 ∧
    FaultCode.precondition.code = 4 ∧ FaultCode.unknownDevice.code = 5 ∧ FaultCode.timeout.code = 6 ∧
    FaultCode.illegalCommand.code = 7 ∧ FaultCode.illegalOperand.code = 8 ∧ FaultCode.lifecycle.code = 9) ∧
  (∀ (s : State) (rest : List HostAction), s.inbox = .read 0x004 32 :: rest →
    ∃ x : Word32,
      step s = .next { s with inbox := rest, readsRev := ⟨0x004, x⟩ :: s.readsRev } ∧
      x.extractLsb' 0 2 = s.phase.code ∧ x.extractLsb' 4 4 = s.fcode.code ∧ x.getLsbD 8 = s.rvalid ∧
      x.getLsbD 9 = s.busReady ∧ x.getLsbD 10 = s.idWarn ∧ x.getLsbD 11 = s.authValid ∧
      x.getLsbD 12 = s.authFail ∧ x.getLsbD 13 = s.authOk ∧ x.getLsbD 14 = s.authBusy ∧
      x.getLsbD 15 = s.unbalCleared ∧ x.extractLsb' 16 8 = s.lastOp) ∧
  (∀ (s : State) (v : Word32) (rest : List HostAction), s.inbox = .write 0x004 32 v :: rest →
    step s = .next { s with inbox := rest })

/-- R41, R25, R38, R20, R23, R28, R29, R30: a read of RES0, FLAGS, CLKRATE or an IMGBUF byte during RUNNING, of RES0 with
RVALID = 0, and of a register or a buffer byte that holds no value is a free draw; outside RUNNING, with RVALID = 1 where
the register is RES0, a written register shows its bits. RES1, RES2 and RES3 are read as RES0 is. A read of STAT shows its
word, a read of CFG or SRC_LEN its bits, and a read of a written byte of SRCBUF or STORE that byte, in every STATE (during
RUNNING the last three are the model's choice, log 10). The draw is the free value `Config.draw` (log 8). -/
def Obligations.ResultReads : Prop :=
  ∀ (s : State) (rest : List HostAction),
    let drawn (off : Nat) (x : Word32) : State :=
      { s with inbox := rest, readsRev := ⟨off, x⟩ :: s.readsRev, drawn := s.drawn + 1 }
    let shown (off : Nat) (x : Word32) : State :=
      { s with inbox := rest, readsRev := ⟨off, x⟩ :: s.readsRev }
    let byteDrawn (off : Nat) : State := drawn off (((Config.draw s.drawn).extractLsb' 0 8).setWidth 32)
    (∀ off r, (off = 0x014 ∧ r = s.res0) ∨ (off = 0x018 ∧ r = s.res1) ∨ (off = 0x01C ∧ r = s.res2) ∨
        (off = 0x020 ∧ r = s.res3) → s.inbox = .read off 32 :: rest →
      (s.phase = .running ∨ s.rvalid = false ∨ r.written = false →
        step s = .next (drawn off (Config.draw s.drawn))) ∧
      (s.phase ≠ .running → s.rvalid = true → r.written = true → step s = .next (shown off r.bits))) ∧
    (∀ off r, (off = 0x024 ∧ r = s.flags) ∨ (off = 0x028 ∧ r = s.clkRate) → s.inbox = .read off 32 :: rest →
      (s.phase = .running ∨ r.written = false → step s = .next (drawn off (Config.draw s.drawn))) ∧
      (s.phase ≠ .running → r.written = true → step s = .next (shown off r.bits))) ∧
    (∀ off, 0x200 ≤ off → off ≤ 0x27F → s.inbox = .read off 8 :: rest →
      (s.phase = .running ∨ s.mem.read off = none → step s = .next (byteDrawn off)) ∧
      (∀ b, s.phase ≠ .running → s.mem.read off = some b → step s = .next (shown off (b.setWidth 32)))) ∧
    (∀ off, (0x100 ≤ off ∧ off ≤ 0x17F) ∨ (0x300 ≤ off ∧ off ≤ 0x3FF) → s.inbox = .read off 8 :: rest →
      (s.mem.read off = none → step s = .next (byteDrawn off)) ∧
      (∀ b, s.mem.read off = some b → step s = .next (shown off (b.setWidth 32)))) ∧
    (s.inbox = .read 0x004 32 :: rest → step s = .next (shown 0x004 s.statWord)) ∧
    (s.inbox = .read 0x008 32 :: rest → step s = .next (shown 0x008 s.cfgReg)) ∧
    (s.inbox = .read 0x00C 32 :: rest → step s = .next (shown 0x00C (BitVec.ofNat 32 s.srcLen.toNat)))

/-- R28, R29, R30: a byte written to SRCBUF or STORE is held at its offset and nothing else changes; a write of IMGBUF, of
RES0 to RES3, of FLAGS or of CLKRATE changes nothing (the last is the model's choice, log 9). -/
def Obligations.BufferWrites : Prop :=
  (∀ (s : State) (off : Nat) (v : Word32) (rest : List HostAction), s.inbox = .write off 8 v :: rest →
    (s.phase ≠ .running → (0x100 ≤ off ∧ off ≤ 0x17F) ∨ (0x300 ≤ off ∧ off ≤ 0x3FF) →
      ∃ m : Memory,
        step s = .next { s with inbox := rest, mem := m } ∧ m.read off = some (v.extractLsb' 0 8) ∧
        ∀ x, x ≠ off → m.read x = s.mem.read x) ∧
    (0x200 ≤ off ∧ off ≤ 0x27F → step s = .next { s with inbox := rest })) ∧
  (∀ (s : State) (off : Nat) (v : Word32) (rest : List HostAction), s.inbox = .write off 32 v :: rest →
    off = 0x014 ∨ off = 0x018 ∨ off = 0x01C ∨ off = 0x020 ∨ off = 0x024 ∨ off = 0x028 →
    step s = .next { s with inbox := rest })

/-! ## Checks, faults and frames, for every command -/

/-- R152, R72, R82, R88, R109, R17: the checks of an accepted command are made in the order operand range, image length,
lifecycle; the first that applies is the fault, with no bus event and nothing written. When none applies DVOLT, DSENSE
and DCUR are done, and every other command stands at the first event of its first line, still without a bus event (the
form of the position is the model's, log 5). -/
def Obligations.ChecksInOrder : Prop :=
  ∀ (i : Instr) (s : State), s.pos = .entry →
    let decodesOnly : Prop := (∃ hi lo, i = .dvolt hi lo) ∨ (∃ raw, i = .dsense raw) ∨ ∃ lo hi raw, i = .dcur lo hi raw
    (checkFault i s ≠ .none → exec i s = .next (s.ended .fault (checkFault i s))) ∧
    (checkFault i s = .none →
      ∃ t, exec i s = .next t ∧ t.fcode = s.fcode ∧ t.logRev = s.logRev ∧ (decodesOnly → t.phase = .done) ∧
        (¬ decodesOnly → t.phase = s.phase ∧ t.pos = .at 0 .start))

/-- R79: an `err` answer to any bus event of any command is Fault(TRANSPORT) at once; no result, flag or buffer
byte is written by that step, and the command issues nothing further (it has no position left). -/
def Obligations.ErrIsTransport : Prop :=
  ∀ (i : Instr) (s t : State) (p : BusPrim), exec i s = .next t → t.logRev = ⟨p, .err⟩ :: s.logRev →
    t = (s.logged ⟨p, .err⟩).ended .fault .transport

/-- R84: after a NACK at a BusGetAck of any command, the command's next step is BusStop and then Fault(TRANSPORT);
no byte is returned, so no result, flag or buffer byte is written. -/
def Obligations.NackStopsThenFaults : Prop :=
  ∀ (i : Instr) (s t : State), exec i s = .next t → t.logRev = ⟨.getAck, .nack⟩ :: s.logRev →
    ∃ a, exec i t = .next ((t.logged ⟨.stop, a⟩).ended .fault .transport) ∧
      t.res0 = s.res0 ∧ t.res1 = s.res1 ∧ t.res2 = s.res2 ∧ t.res3 = s.res3 ∧ t.rvalid = s.rvalid ∧
      t.flags = s.flags ∧ t.mem = s.mem

/-- R20, R23, R24, R31, R33: no command changes a register that the host writes, LATCH, LAST_OP, the parameters, or the
host's side of the run. -/
def Obligations.CommandsKeepHostState : Prop :=
  ∀ (i : Instr) (s t : State), exec i s = .next t →
    t.config = s.config ∧ t.cfgReg = s.cfgReg ∧ t.cfgWritten = s.cfgWritten ∧ t.srcLen = s.srcLen ∧
    t.storeLen = s.storeLen ∧ t.latch = s.latch ∧ t.selLatch = s.selLatch ∧ t.lastOp = s.lastOp ∧
    t.inbox = s.inbox ∧ t.drawn = s.drawn ∧ t.readsRev = s.readsRev

/-- R22, R26, R27, R36: each status bit, FLAGS and CLKRATE is changed only by the commands that the tables name. -/
def Obligations.StatusBitsHaveOneWriter : Prop :=
  ∀ (i : Instr) (s t : State), exec i s = .next t →
    (i ≠ .eeProgram → t.authValid = s.authValid ∧ t.authFail = s.authFail ∧ t.authOk = s.authOk ∧
      t.authBusy = s.authBusy) ∧
    (i ≠ .statusDecode → t.unbalCleared = s.unbalCleared ∧ t.flags = s.flags) ∧
    (i ≠ .chkId → t.idWarn = s.idWarn) ∧
    (i ≠ .busInit → t.clkRate = s.clkRate) ∧
    (i ≠ .busInit → i ≠ .busClose → t.busReady = s.busReady) ∧
    (t.phase ≠ .fault → t.fcode = s.fcode)

/-- R68 ("Results"), R25: a command writes only its own result registers; one that has no results leaves RVALID, and
RVALID is never cleared by a command. -/
def Obligations.ResultRegisterFrame : Prop :=
  ∀ (i : Instr) (s t : State), exec i s = .next t →
    (resultCount i = 0 → t.res0 = s.res0) ∧ (resultCount i ≤ 1 → t.res1 = s.res1) ∧
    (resultCount i ≤ 2 → t.res2 = s.res2) ∧ (resultCount i ≤ 3 → t.res3 = s.res3) ∧
    (resultCount i = 0 → i ≠ .busInit → i ≠ .statusDecode → t.rvalid = s.rvalid) ∧
    (s.rvalid = true → t.rvalid = true)

/-- R28, R29, R30, R103: no command but EE_READ_IMAGE changes a byte of memory; EE_READ_IMAGE changes only the two bytes
of word k of IMGBUF, at the last line of word k, where they become the word's even and odd byte. -/
def Obligations.MemoryFrame : Prop :=
  ∀ (i : Instr) (s t : State), exec i s = .next t →
    (i ≠ .eeReadImage → ∀ x, t.mem.read x = s.mem.read x) ∧
    (i = .eeReadImage → ∀ j b, s.pos = .at j b → ∀ k r, j = k * (if s.selLatch then 2 else 16) + r →
      r < (if s.selLatch then 2 else 16) →
      (r + 1 = (if s.selLatch then 2 else 16) →
        t.mem.read (0x200 + 2 * k) = some s.scratch.even ∧ t.mem.read (0x200 + 2 * k + 1) = some s.scratch.odd ∧
        ∀ x, x ≠ 0x200 + 2 * k → x ≠ 0x200 + 2 * k + 1 → t.mem.read x = s.mem.read x) ∧
      (r + 1 ≠ (if s.selLatch then 2 else 16) → ∀ x, t.mem.read x = s.mem.read x)) ∧
    ((∀ j b, s.pos ≠ .at j b) → ∀ x, t.mem.read x = s.mem.read x)

/-! ## The last step of every command: where it completes, with its result -/

/-- R137, R138, R119, R122, R125: DVOLT and DSENSE complete in one step: the sample and its value in units of 10 µV; the
sense value, where 25 stands for a zero byte, and the byte itself. Each from its command word. -/
def Obligations.DvoltDsenseResults : Prop :=
  (∀ hi lo : Byte, decode (0x38#8 ++ hi ++ lo ++ 0#8) = .ok (.dvolt hi lo)) ∧
  (∀ raw : Byte, decode (0x39#8 ++ raw ++ 0#8 ++ 0#8) = .ok (.dsense raw)) ∧
  ∀ s : State, s.pos = .entry →
    (∀ hi lo : Byte, exec (.dvolt hi lo) s = .next
      { s.ended .done s.fcode with
        res0 := holds (BitVec.ofNat 32 (hi.toNat * 32 + lo.toNat / 8))
        res1 := holds (BitVec.ofNat 32 ((hi.toNat * 32 + lo.toNat / 8) * 122))
        rvalid := true }) ∧
    (∀ raw : Byte, exec (.dsense raw) s = .next
      { s.ended .done s.fcode with
        res0 := holds (if raw = 0#8 then 25#32 else raw.setWidth 32)
        res1 := holds (raw.setWidth 32)
        rvalid := true })

/-- R139, R128, R129: DCUR completes in one step with the raw current, the sense value, and the exact fraction
r × 763 over 10000 × sense, for both readings of the sign. From its command word. -/
def Obligations.DcurResult : Prop :=
  (∀ lo hi raw : Byte, decode (0x3A#8 ++ lo ++ hi ++ raw) = .ok (.dcur lo hi raw)) ∧
  ∀ (s : State) (lo hi raw : Byte), s.pos = .entry →
    let sense : Nat := if raw = 0#8 then 25 else raw.toNat
    let r : Int := if s.config.currentSigned then (hi ++ lo : BitVec 16).toInt else (hi ++ lo : BitVec 16).toNat
    exec (.dcur lo hi raw) s = .next
      { s.ended .done s.fcode with
        res0 := holds ((hi ++ lo : BitVec 16).setWidth 32)
        res1 := holds (BitVec.ofNat 32 sense)
        res2 := holds (BitVec.ofInt 32 (r * 763))
        res3 := holds (BitVec.ofNat 32 (10000 * sense))
        rvalid := true }

/-- R88, R89: the bus event of BUSINIT and of BUSCLOSE, answered ok, completes the command with its effect; and the whole
command from acceptance, BUSINIT with the bus closed and CFG written, BUSCLOSE with the bus open. -/
def Obligations.BusLifecycleCompletes : Prop :=
  ∀ s : State, s.nextReply.failed = false →
    let opened : State :=
      { (s.logged ⟨.init, .opened s.nextReply.clock s.nextReply.desc⟩).ended .done s.fcode with
        clkRate := holds s.nextReply.clock, rvalid := true, busReady := true }
    let closed : State := { (s.logged ⟨.close, .ok⟩).ended .done s.fcode with busReady := false }
    (s.pos = .at 0 .start → exec .busInit s = .next opened ∧ exec .busClose s = .next closed) ∧
    (s.Accepted .busInit → s.inbox = [] → s.busReady = false → s.cfgWritten = true → Reaches s opened) ∧
    (s.Accepted .busClose → s.inbox = [] → s.busReady = true → Reaches s closed)

/-- R86, R100, R124, R142: the BusStop of the last ReadReg of READ_REG, EE_BUSY, VCELL and CHK_ID, answered ok, completes
the command with its results (CHK_ID where the identity is known or ID_OVERRIDE = 1). -/
def Obligations.ReadCommandsComplete : Prop :=
  ∀ s : State, s.nextReply.failed = false →
    let t := (s.logged ⟨.stop, .ok⟩).ended .done s.fcode
    let b := s.scratch.byte
    (s.pos = .at 0 .stop → ∀ a, exec (.readReg a) s = .next { t with res0 := holds (b.setWidth 32), rvalid := true }) ∧
    (s.pos = .at 0 .stop → exec .eeBusy s = .next
      { t with res0 := holds (b.setWidth 32), res1 := holds (if b.getLsbD 7 then 1 else 0), rvalid := true }) ∧
    (s.pos = .at 1 .stop → ∀ k,
      let hi := if s.config.cellLoFirst then b else s.scratch.first
      let lo := if s.config.cellLoFirst then s.scratch.first else b
      exec (.vcell k) s = .next
        { t with
          res0 := holds (BitVec.ofNat 32 (hi.toNat * 32 + lo.toNat / 8))
          res1 := holds (BitVec.ofNat 32 ((hi.toNat * 32 + lo.toNat / 8) * 122))
          res2 := holds ((hi ++ lo : BitVec 16).setWidth 32)
          rvalid := true }) ∧
    (s.pos = .at 0 .stop → b ∈ s.config.knownIds → exec .chkId s = .next
      { t with res0 := holds (b.setWidth 32), res1 := holds 1, rvalid := true }) ∧
    (s.pos = .at 0 .stop → b ∉ s.config.knownIds → s.cfgReg.getLsbD 9 = true → exec .chkId s = .next
      { t with res0 := holds (b.setWidth 32), res1 := holds 0, rvalid := true, idWarn := true })

/-- R87, R101, R104: the BusStop of the last WriteReg of WRITE_REG, EE_LOCK and EE_WRITE_WORD, answered ok, completes the
command and writes nothing else. -/
def Obligations.WriteCommandsComplete : Prop :=
  ∀ s : State, s.nextReply.failed = false →
    let t := (s.logged ⟨.stop, .ok⟩).ended .done s.fcode
    (s.pos = .at 0 .stop → ∀ a v, exec (.writeReg a v) s = .next t) ∧
    (s.pos = .at 2 .stop → exec .eeLock s = .next t) ∧
    (s.pos = .at 12 .stop → ∀ a even odd, exec (.eeWriteWord a even odd) s = .next t)

/-- R102, R127, R130, R132: the last line of EE_READ_WORD, RSENSE, ICUR and VTHR, in the device variant (whole word read
before) and in the store variant, completes the command with its results from the word that was read. -/
def Obligations.WordCommandsComplete : Prop :=
  ∀ s : State,
    let t := s.ended .done s.fcode
    let even := s.scratch.even
    let odd := s.scratch.odd
    let raw := if s.config.eeSenseAddr.getLsbD 0 then odd else even
    let sense : Nat := if raw = 0#8 then 25 else raw.toNat
    let hi := s.scratch.second
    let lo := s.scratch.first
    let r : Int := if s.config.currentSigned then (hi ++ lo : BitVec 16).toInt else (hi ++ lo : BitVec 16).toNat
    (s.pos = .at (if s.selLatch then 1 else 15) .start →
      (∀ a, exec (.eeReadWord a) s = .next
        { t with res0 := holds ((odd ++ even : BitVec 16).setWidth 32), rvalid := true }) ∧
      exec .rsense s = .next
        { t with res0 := holds (BitVec.ofNat 32 sense), res1 := holds (raw.setWidth 32), rvalid := true } ∧
      (∀ sel, exec (.vthr sel) s = .next
        { t with
          res0 := holds (BitVec.ofNat 32 (odd.toNat * 32 + even.toNat / 8))
          res1 := holds (BitVec.ofNat 32 ((odd.toNat * 32 + even.toNat / 8) * 122))
          res2 := holds ((odd ++ even : BitVec 16).setWidth 32)
          rvalid := true })) ∧
    (s.pos = .at (if s.selLatch then 3 else 17) .start →
      exec .icur s = .next
        { t with
          res0 := holds ((hi ++ lo : BitVec 16).setWidth 32)
          res1 := holds (BitVec.ofNat 32 sense)
          res2 := holds (BitVec.ofInt 32 (r * 763))
          res3 := holds (BitVec.ofNat 32 (10000 * sense))
          rvalid := true })

/-- R103, R115, R136: the last line of EE_READ_IMAGE, EE_PROGRAM and STATUS_DECODE completes the command: the last word is
stored and counted, the last word is counted, FLAGS is written. -/
def Obligations.LongCommandsComplete : Prop :=
  ∀ s : State,
    let t := s.ended .done s.fcode
    (s.pos = .at (if s.selLatch then 127 else 1023) .start →
      exec .eeReadImage s = .next
        { t with
          mem := (s.mem.write 0x27E s.scratch.even).write 0x27F s.scratch.odd
          res0 := holds 64
          rvalid := true }) ∧
    (s.pos = .at (if s.selLatch then 973 else 987) .start →
      exec .eeProgram s = .next { t with res0 := holds 64, rvalid := true }) ∧
    (s.pos = .at ((linesStatusDecode s.config).length - 1) .start →
      exec .statusDecode s = .next { t with flags := holds s.scratch.flagBits, rvalid := true })

/-- R38: a procedure that would consume a byte of STORE or of SRCBUF that holds no value is refused, at the line that
reads it: the word read of the store variant, and the word of SRCBUF before EE_PROGRAM writes it. -/
def Obligations.ByteWithoutValueRefused : Prop :=
  ∀ s : State,
    let missing (base a : Nat) : Prop := s.mem.read (base + a) = none ∨ s.mem.read (base + a + 1) = none
    let unheld (a : Nat) : Prop := s.selLatch = true ∧ a + 2 ≤ s.storeLen.toNat ∧ missing 0x300 a
    let stops (i : Instr) : Prop := exec i s = .refused .byteHoldsNoValue
    (s.pos = .at 0 .start →
      (∀ a : Byte, unheld a.toNat → stops (.eeReadWord a)) ∧
      (unheld (s.config.eeSenseAddr.toNat / 2 * 2) → stops .rsense) ∧
      (∀ sel a : Byte, (sel = 0#8 ∧ a = s.config.eeOvTh) ∨ (sel = 1#8 ∧ a = s.config.eeOvRel) ∨
        (sel = 2#8 ∧ a = s.config.eeUvTh) ∨ (sel = 3#8 ∧ a = s.config.eeUvRel) → unheld a.toNat → stops (.vthr sel)) ∧
      (unheld 0x7A → stops .eeProgram)) ∧
    (s.pos = .at 2 .start → unheld (s.config.eeSenseAddr.toNat / 2 * 2) → stops .icur) ∧
    (∀ k, k < 64 → s.pos = .at (2 * k) .start → unheld (2 * k) → stops .eeReadImage) ∧
    (∀ k, k < 64 → s.pos = .at ((if s.selLatch then 14 else 28) + 15 * k) .start → missing 0x100 (2 * k) →
      stops .eeProgram)

/-! ## Whole commands, from acceptance to their end -/

/-- R83, R86, R90: READ_REG with every event answered and both acknowledgements ACK: nine events in this order, and RES0
is the byte that BusRead(ACK) answered; the dummy byte is not used. The address bytes are R80's, which the spec supplies
from general knowledge (log 11). -/
def Obligations.ReadRegRun : Prop :=
  ∀ (s : State) (a : Byte) (r1 r2 r3 r4 r5 r6 r7 r8 r9 : Reply) (rest : List Reply),
    s.Accepted (.readReg a) → s.inbox = [] → s.busReady = true →
    s.replies = [r1, r2, r3, r4, r5, r6, r7, r8, r9] ++ rest →
    (∀ r ∈ [r1, r2, r3, r4, r5, r6, r7, r8, r9], r.failed = false) → r3.nack = false → r6.nack = false →
    Reaches s
      { s.ended .done s.fcode with
        replies := rest
        res0 := holds (r7.byte.setWidth 32)
        rvalid := true
        logRev :=
          [⟨.stop, .ok⟩, ⟨.read false, .byte r8.byte⟩, ⟨.read true, .byte r7.byte⟩, ⟨.getAck, .ack⟩,
           ⟨.write [s.cfgReg.extractLsb' 0 7 ++ 1#1], .ok⟩, ⟨.start, .ok⟩, ⟨.getAck, .ack⟩,
           ⟨.write [s.cfgReg.extractLsb' 0 7 ++ 0#1, a], .ok⟩, ⟨.start, .ok⟩] ++ s.logRev }

/-- R85, R87: WRITE_REG: three events, no acknowledgement asked for, so a NACK of the device changes nothing. The address
byte is R80's (log 11). -/
def Obligations.WriteRegRun : Prop :=
  ∀ (s : State) (a v : Byte) (r1 r2 r3 : Reply) (rest : List Reply),
    s.Accepted (.writeReg a v) → s.inbox = [] → s.busReady = true →
    s.replies = [r1, r2, r3] ++ rest → (∀ r ∈ [r1, r2, r3], r.failed = false) →
    Reaches s
      { s.ended .done s.fcode with
        replies := rest
        logRev :=
          [⟨.stop, .ok⟩, ⟨.write [s.cfgReg.extractLsb' 0 7 ++ 0#1, a, v], .ok⟩, ⟨.start, .ok⟩] ++ s.logRev }

/-- R93, R95, R101: EE_LOCK reads the control register until bit 7 is 0, then writes 0x00, when the poll is unbounded or
fewer than POLL_LIMIT reads are busy.
POLLCOUNT wraps at 17 bits (log 13). -/
def Obligations.LockWaitsForClear : Prop :=
  ∀ (s : State) (k : Nat) (busy q : Byte) (rest : List Reply),
    s.Accepted .eeLock → s.inbox = [] → s.busReady = true → busy.getLsbD 7 = true → q.getLsbD 7 = false →
    s.pollLimit = 0 ∨ k < s.pollLimit.toNat →
    let xs := List.replicate k (Xfer.rd s.config.regEeCtrl busy) ++ lockXfers s.config q
    s.replies = serveAll xs ++ rest →
    Reaches s { (s.afterXfers xs rest).ended .done s.fcode with pollCount := BitVec.ofNat 17 k }

/-- R93, R107, R145: a busy poll with POLL_LIMIT = N > 0 makes N reads that all answer busy and faults TIMEOUT; no write
follows. -/
def Obligations.PollTimesOut : Prop :=
  ∀ (s : State) (busy : Byte) (rest : List Reply),
    s.Accepted .eeLock → s.inbox = [] → s.busReady = true → busy.getLsbD 7 = true → s.pollLimit ≠ 0 →
    let xs := List.replicate s.pollLimit.toNat (Xfer.rd s.config.regEeCtrl busy)
    s.replies = serveAll xs ++ rest →
    Reaches s { (s.afterXfers xs rest).ended .fault .timeout with pollCount := s.pollLimit.setWidth 17 }

/-- R93, R175: with POLL_LIMIT = 0 and n busy answers, EE_LOCK is still RUNNING after it has read n times: the model
admits runs of any length that never finish.
The number of steps is the model's (log 5). -/
def Obligations.UnboundedPollRunsOn : Prop :=
  ∀ (s : State) (n : Nat) (busy : Byte) (rest : List Reply),
    s.Accepted .eeLock → s.inbox = [] → s.busReady = true → busy.getLsbD 7 = true → s.pollLimit = 0 →
    let xs := List.replicate n (Xfer.rd s.config.regEeCtrl busy)
    s.replies = serveAll xs ++ rest →
    ∃ t, Sys2Proof.core.run (9 * n + 2) s = .next t ∧ t.phase = .running ∧
      t.logRev = (s.afterXfers xs rest).logRev ∧ t.replies = rest

/-- R96, R98, R102: EE_READ_WORD in the device variant, every poll answering `q` with bit 7 = 0. -/
def Obligations.ReadWordDeviceRun : Prop :=
  ∀ (s : State) (a q even odd : Byte) (rest : List Reply),
    s.Accepted (.eeReadWord a) → s.inbox = [] → s.busReady = true → s.selLatch = false →
    a.toNat % 2 = 0 → a.toNat ≤ 126 → q.getLsbD 7 = false →
    let xs := readWordXfers s.config q a even odd
    s.replies = serveAll xs ++ rest →
    Reaches s
      { (s.afterXfers xs rest).ended .done s.fcode with
        pollCount := 0, res0 := holds ((odd ++ even : BitVec 16).setWidth 32), rvalid := true }

/-- R97, R98, R102: EE_READ_WORD in the store variant: no bus event, no bus needed; the word of STORE, or INPUT when
`a + 2 > STORE_LEN`, or the refusal where a byte of it holds no value. -/
def Obligations.ReadWordStoreRun : Prop :=
  ∀ (s : State) (a : Byte),
    s.Accepted (.eeReadWord a) → s.inbox = [] → s.selLatch = true → a.toNat % 2 = 0 → a.toNat ≤ 126 →
    (s.storeLen.toNat < a.toNat + 2 → Reaches s (s.ended .fault .input)) ∧
    (a.toNat + 2 ≤ s.storeLen.toNat →
      (∀ even odd, s.mem.read (0x300 + a.toNat) = some even → s.mem.read (0x300 + a.toNat + 1) = some odd →
        Reaches s
          { s.ended .done s.fcode with
            res0 := holds ((odd ++ even : BitVec 16).setWidth 32), rvalid := true }) ∧
      (s.mem.read (0x300 + a.toNat) = none ∨ s.mem.read (0x300 + a.toNat + 1) = none →
        ∃ n, Sys2Proof.core.run n s = .refused .byteHoldsNoValue))

/-- R103, R96: EE_READ_IMAGE in the device variant reads the 64 words in ascending order and leaves the image in IMGBUF. -/
def Obligations.ReadImageDeviceRun : Prop :=
  ∀ (s : State) (q : Byte) (img : Nat → Byte) (rest : List Reply),
    s.Accepted .eeReadImage → s.inbox = [] → s.busReady = true → s.selLatch = false → q.getLsbD 7 = false →
    let xs := readImageXfers s.config q img
    s.replies = serveAll xs ++ rest →
    ∃ m : Memory,
      Reaches s
        { (s.afterXfers xs rest).ended .done s.fcode with
          pollCount := 0, res0 := holds 64, rvalid := true, mem := m } ∧
      (∀ a, a < 128 → m.read (0x200 + a) = some (img a)) ∧
      ∀ x, x < 0x200 ∨ 0x280 ≤ x → m.read x = s.mem.read x

/-- R103, R97: EE_READ_IMAGE in the store variant with L = STORE_LEN: the words below L are copied; with L of 128 or more
the command is done with RES0 = 64, else it faults INPUT with RES0 the number of words copied. No bus event. -/
def Obligations.ReadImageStoreRun : Prop :=
  ∀ (s : State) (img : Nat → Byte),
    s.Accepted .eeReadImage → s.inbox = [] → s.selLatch = true →
    (∀ a, a < min s.storeLen.toNat 128 → s.mem.read (0x300 + a) = some (img a)) →
    let n := min (s.storeLen.toNat / 2) 64
    ∃ m : Memory,
      Reaches s
        { (if n = 64 then s.ended .done s.fcode else s.ended .fault .input) with
          res0 := holds (BitVec.ofNat 32 n), rvalid := true, mem := m } ∧
      (∀ a, a < 2 * n → m.read (0x200 + a) = some (img a)) ∧
      ∀ x, x < 0x200 ∨ 0x200 + 2 * n ≤ x → m.read x = s.mem.read x

/-- R99, R104: EE_WRITE_WORD, every poll answering `q` with bit 7 = 0, whatever STORE_SEL is. -/
def Obligations.WriteWordRun : Prop :=
  ∀ (s : State) (a q even odd : Byte) (rest : List Reply),
    s.Accepted (.eeWriteWord a even odd) → s.inbox = [] → s.busReady = true →
    a.toNat % 2 = 0 → a.toNat ≤ 126 → q.getLsbD 7 = false →
    let xs := writeWordXfers s.config q a even odd
    s.replies = serveAll xs ++ rest →
    Reaches s { (s.afterXfers xs rest).ended .done s.fcode with pollCount := 0 }

/-- R116, R117, R110, R98: EE_PROGRAM with a status whose ok bit is 1: password read (from the device, or from STORE
without a bus event), unlock, status, session lock, one erase, then the 64 words of SRCBUF in ascending order; STAT holds
the decoded status and RES0 is 64. With STORE_SEL = 1 and STORE_LEN below 0x7C it faults INPUT at the password read. -/
def Obligations.ProgramRun : Prop :=
  ∀ (s : State),
    s.Accepted .eeProgram → s.inbox = [] → s.busReady = true → s.srcLen = 128#16 →
    (∀ (q pe po st : Byte) (img : Nat → Byte) (rest : List Reply),
      q.getLsbD 7 = false → st.getLsbD s.config.authOkBit = true → s.passwordHeld pe po →
      (∀ a, a < 128 → s.mem.read (0x100 + a) = some (img a)) →
      let password := if s.selLatch then [] else readWordXfers s.config q 0x7A#8 pe po
      let xs := password ++ sessionXfers s.config q pe po st ++ rewriteXfers s.config q img
      s.replies = serveAll xs ++ rest →
      Reaches s
        { (s.afterXfers xs rest).ended .done s.fcode with
          pollCount := 0, res0 := holds 64, rvalid := true, authValid := true,
          authFail := st.getLsbD s.config.authFailBit, authOk := true,
          authBusy := st.getLsbD s.config.authBusyBit }) ∧
    (s.selLatch = true → s.storeLen.toNat < 0x7C →
      Reaches s { s.ended .fault .input with res0 := holds 0, rvalid := true })

/-- R113, R145, R110: EE_PROGRAM with a status whose ok bit is 0 locks the EEPROM and faults AUTH, in both password
variants: no erase and no word write is issued, and STAT holds the decoded status. -/
def Obligations.ProgramAuthFailure : Prop :=
  ∀ (s : State) (q pe po st : Byte) (rest : List Reply),
    s.Accepted .eeProgram → s.inbox = [] → s.busReady = true → s.srcLen = 128#16 →
    q.getLsbD 7 = false → st.getLsbD s.config.authOkBit = false → s.passwordHeld pe po →
    let password := if s.selLatch then [] else readWordXfers s.config q 0x7A#8 pe po
    let xs := password ++ sessionXfers s.config q pe po st
    s.replies = serveAll xs ++ rest →
    Reaches s
      { (s.afterXfers xs rest).ended .fault .auth with
        pollCount := 0, res0 := holds 0, rvalid := true, authValid := true,
        authFail := st.getLsbD s.config.authFailBit, authOk := false,
        authBusy := st.getLsbD s.config.authBusyBit }

/-- R123, R124: VCELL reads the two registers of cell k, lower address first, and decodes them by P_CELL_LO_FIRST. -/
def Obligations.VcellRun : Prop :=
  ∀ (s : State) (k first second : Byte) (rest : List Reply),
    s.Accepted (.vcell k) → s.inbox = [] → s.busReady = true → k.toNat ≤ 12 →
    s.config.regCellBase.toNat + 25 ≤ 255 →
    let xs := [Xfer.rd (BitVec.ofNat 8 (s.config.regCellBase.toNat + 2 * k.toNat)) first,
      Xfer.rd (BitVec.ofNat 8 (s.config.regCellBase.toNat + 2 * k.toNat + 1)) second]
    let hi := if s.config.cellLoFirst then second else first
    let lo := if s.config.cellLoFirst then first else second
    s.replies = serveAll xs ++ rest →
    Reaches s
      { (s.afterXfers xs rest).ended .done s.fcode with
        res0 := holds (BitVec.ofNat 32 (hi.toNat * 32 + lo.toNat / 8))
        res1 := holds (BitVec.ofNat 32 ((hi.toNat * 32 + lo.toNat / 8) * 122))
        res2 := holds ((hi ++ lo : BitVec 16).setWidth 32)
        rvalid := true }

/-- R94, R100, R141, R142, R143: EE_BUSY and CHK_ID read their one register once; CHK_ID with an unknown identity
faults UNKNOWN_DEVICE, with the identity in RES0, unless CFG.ID_OVERRIDE makes it the warning. -/
def Obligations.BusyAndIdentityRuns : Prop :=
  ∀ (s : State) (b : Byte) (rest : List Reply), s.inbox = [] → s.busReady = true →
    (s.Accepted .eeBusy → s.replies = serveAll [.rd s.config.regEeCtrl b] ++ rest →
      Reaches s
        { (s.afterXfers [.rd s.config.regEeCtrl b] rest).ended .done s.fcode with
          res0 := holds (b.setWidth 32), res1 := holds (if b.getLsbD 7 then 1 else 0), rvalid := true }) ∧
    (s.Accepted .chkId → s.replies = serveAll [.rd s.config.regDeviceId b] ++ rest →
      let t := s.afterXfers [.rd s.config.regDeviceId b] rest
      (b ∈ s.config.knownIds →
        Reaches s { t.ended .done s.fcode with res0 := holds (b.setWidth 32), res1 := holds 1, rvalid := true }) ∧
      (b ∉ s.config.knownIds → s.cfgReg.getLsbD 9 = true →
        Reaches s
          { t.ended .done s.fcode with
            res0 := holds (b.setWidth 32), res1 := holds 0, rvalid := true, idWarn := true }) ∧
      (b ∉ s.config.knownIds → s.cfgReg.getLsbD 9 = false →
        Reaches s
          { t.ended .fault .unknownDevice with
            res0 := holds (b.setWidth 32), res1 := holds 0, rvalid := true }))

/-- R126, R127, R130, R97, R98: RSENSE reads the word that holds the sense byte; ICUR reads the current low byte, the
current high byte, then that word. In the device variant the word is read by transactions; in the store variant it is
STORE's, without a bus event, and INPUT is faulted where it does not lie below STORE_LEN (ICUR has then read the current
and written no result). -/
def Obligations.SenseAndCurrentRuns : Prop :=
  ∀ (s : State) (lo hi even odd : Byte) (rest : List Reply), s.inbox = [] →
    let current := [Xfer.rd s.config.regCurrentLo lo, Xfer.rd s.config.regCurrentHi hi]
    let raw := if s.config.eeSenseAddr.getLsbD 0 then odd else even
    let sense : Nat := if raw = 0#8 then 25 else raw.toNat
    let r : Int := if s.config.currentSigned then (hi ++ lo : BitVec 16).toInt else (hi ++ lo : BitVec 16).toNat
    let sensed (t : State) : State :=
      { t with res0 := holds (BitVec.ofNat 32 sense), res1 := holds (raw.setWidth 32), rvalid := true }
    let measured (t : State) : State :=
      { t with
        res0 := holds ((hi ++ lo : BitVec 16).setWidth 32)
        res1 := holds (BitVec.ofNat 32 sense)
        res2 := holds (BitVec.ofInt 32 (r * 763))
        res3 := holds (BitVec.ofNat 32 (10000 * sense))
        rvalid := true }
    (s.selLatch = false → s.busReady = true → ∀ q : Byte, q.getLsbD 7 = false →
      let word := readWordXfers s.config q (s.config.eeSenseAddr.setWidth 8 &&& 0x7E#8) even odd
      (s.Accepted .rsense → s.replies = serveAll word ++ rest →
        Reaches s (sensed { (s.afterXfers word rest).ended .done s.fcode with pollCount := 0 })) ∧
      (s.Accepted .icur → s.replies = serveAll (current ++ word) ++ rest →
        Reaches s (measured { (s.afterXfers (current ++ word) rest).ended .done s.fcode with pollCount := 0 }))) ∧
    (s.selLatch = true →
      let a := s.config.eeSenseAddr.toNat / 2 * 2
      (a + 2 ≤ s.storeLen.toNat → s.mem.read (0x300 + a) = some even → s.mem.read (0x300 + a + 1) = some odd →
        (s.Accepted .rsense → Reaches s (sensed (s.ended .done s.fcode))) ∧
        (s.Accepted .icur → s.busReady = true → s.replies = serveAll current ++ rest →
          Reaches s (measured ((s.afterXfers current rest).ended .done s.fcode)))) ∧
      (s.storeLen.toNat < a + 2 →
        (s.Accepted .rsense → Reaches s (s.ended .fault .input)) ∧
        (s.Accepted .icur → s.busReady = true → s.replies = serveAll current ++ rest →
          Reaches s ((s.afterXfers current rest).ended .fault .input))))

/-- R131, R132, R97, R98: VTHR reads the word of its selector, from the device or from STORE, and decodes it with the even
byte low; in the store variant it faults INPUT where the word does not lie below STORE_LEN. -/
def Obligations.VthrRun : Prop :=
  ∀ (s : State) (sel a : Byte) (even odd : Byte),
    s.Accepted (.vthr sel) → s.inbox = [] →
    (sel = 0#8 ∧ a = s.config.eeOvTh) ∨ (sel = 1#8 ∧ a = s.config.eeOvRel) ∨
      (sel = 2#8 ∧ a = s.config.eeUvTh) ∨ (sel = 3#8 ∧ a = s.config.eeUvRel) →
    let result (t : State) : State :=
      { t with
        res0 := holds (BitVec.ofNat 32 (odd.toNat * 32 + even.toNat / 8))
        res1 := holds (BitVec.ofNat 32 ((odd.toNat * 32 + even.toNat / 8) * 122))
        res2 := holds ((odd ++ even : BitVec 16).setWidth 32)
        rvalid := true }
    (s.selLatch = false → s.busReady = true → ∀ q rest, q.getLsbD 7 = false →
      s.replies = serveAll (readWordXfers s.config q a even odd) ++ rest →
      Reaches s
        (result { (s.afterXfers (readWordXfers s.config q a even odd) rest).ended .done s.fcode with
          pollCount := 0 })) ∧
    (s.selLatch = true → a.toNat + 2 ≤ s.storeLen.toNat →
      s.mem.read (0x300 + a.toNat) = some even → s.mem.read (0x300 + a.toNat + 1) = some odd →
      Reaches s (result (s.ended .done s.fcode))) ∧
    (s.selLatch = true → s.storeLen.toNat < a.toNat + 2 → Reaches s (s.ended .fault .input))

/-- R134, R135, R136: STATUS_DECODE reads each register of the flag table once in ascending order, writes 0x10 right after
the shutdown register when its bit 4 reads 1 and never otherwise, and reports entry k in FLAGS bit k. The list of the
registers that are read is strictly ascending and has exactly the registers of the table, which fixes it. -/
def Obligations.StatusDecodeRun : Prop :=
  (∀ c : Config, (flagRegs c).Pairwise (fun a b => a.toNat < b.toNat) ∧
    ∀ r, r ∈ flagRegs c ↔ ∃ e ∈ c.flagTable, e.reg = r) ∧
  ∀ (s : State) (v : Byte → Byte) (rest : List Reply),
    s.Accepted .statusDecode → s.inbox = [] → s.busReady = true → s.config.Legal →
    s.replies = serveAll (statusXfers s.config v) ++ rest →
    ∃ f : Word32,
      Reaches s
        { (s.afterXfers (statusXfers s.config v) rest).ended .done s.fcode with
          flags := holds f
          rvalid := true
          unbalCleared := s.unbalCleared || (v s.config.regShutdown).getLsbD 4 } ∧
      ∀ k, f.getLsbD k = (match s.config.flagTable[k]? with
        | some e => (v e.reg).getLsbD e.bit
        | none => false)

/-! ## Whole-machine rules -/

/-- R105, R111: in the text of every procedure but those of WRITE_REG and STATUS_DECODE, each write comes right after a busy
poll's read, which lets the procedure go on only when it answered bit 7 = 0, but for the exceptions of R105 and R111; and
in the bus log, in every state of the invariant, every step keeps that a procedure that is about to write has just
logged that ReadReg, or the WriteReg that the exception names. -/
def Obligations.EepromWritesFollowPolls : Prop :=
  (∀ (s : State) (i : Instr),
    (∀ a v, i ≠ .writeReg a v) → i ≠ .statusDecode → pollDisciplined s.config none (linesOf i s)) ∧
  (∀ (c : Byte) (s : State), (∃ t, pollTest c s = .proceed t) ↔ c.getLsbD 7 = false) ∧
  (∀ s t : State, s.Inv → s.InFlight → s.FollowsPoll → step s = .next t → t.FollowsPoll)

/-- R106: when EE_LOCK, EE_WRITE_WORD, EE_PROGRAM, or the device variant of EE_READ_WORD or EE_READ_IMAGE is done, and
when EE_PROGRAM faults AUTH, the last transaction on the bus wrote 0x00 to the control register. -/
def Obligations.EepromCommandsEndLocked : Prop :=
  ∀ (s t : State) (i : Instr) (n : Nat),
    s.Accepted i → s.inbox = [] →
    i = .eeLock ∨ i = .eeProgram ∨ (∃ a even odd, i = .eeWriteWord a even odd) ∨
      (s.selLatch = false ∧ (i = .eeReadImage ∨ ∃ a, i = .eeReadWord a)) →
    Sys2Proof.core.run n s = .next t → t.phase = .done ∨ (t.phase = .fault ∧ t.fcode = .auth) →
    [⟨.stop, .ok⟩, ⟨.write [s.addrW, s.config.regEeCtrl, 0x00#8], .ok⟩, ⟨.start, .ok⟩] <+: t.logRev

/-- R175: with POLL_LIMIT > 0 every command ends after finitely many steps, done, in FAULT, or refused by the model for a
buffer byte without a value, whatever the bus answers. -/
def Obligations.BoundedPollsEnd : Prop :=
  ∀ (s : State) (i : Instr), s.Accepted i → s.inbox = [] → s.pollLimit ≠ 0 →
    ∃ n, (∃ t, Sys2Proof.core.run n s = .next t ∧ (t.phase = .done ∨ t.phase = .fault)) ∨
      Sys2Proof.core.run n s = .refused .byteHoldsNoValue

/-- The invariant of Safety.lean is kept by every step, of the block and of the host. -/
def Obligations.StepKeepsInvariant : Prop := ∀ s t : State, s.Inv → step s = .next t → t.Inv

/-- The state after reset meets the invariant, and what the two statements about the bus log keep. -/
def Obligations.ResetMeetsInvariant : Prop :=
  State.reset.Inv ∧ State.reset.InFlight ∧ State.reset.FollowsPoll

/-- Under the invariant no step ends in the model's own fault: the sequencer never loses its position (log 15). -/
def Obligations.InvariantExcludesFault : Prop := ∀ (s : State) (f : Fault), s.Inv → step s ≠ .fault f

/-- R81, R83, R84, R85, R90: under the invariant every step keeps that the transaction in progress is the newest part of the
bus log, event by event, with the data byte that was answered. -/
def Obligations.StepKeepsTransactionInLog : Prop :=
  ∀ s t : State, s.Inv → s.InFlight → step s = .next t → t.InFlight

/-- R119, R120, R121, R122: the sum form and the or form of the sample are the same 13-bit number with hi in bits 12:5 and
the top five bits of lo in bits 4:0, and its value in units of 10 µV is at most 999302. -/
def Obligations.SampleForms : Prop :=
  ∀ hi lo : Byte,
    sample hi lo = (hi.toNat <<< 5) + (lo.toNat >>> 3) ∧ sample hi lo = (lo.toNat >>> 3) ||| (hi.toNat <<< 5) ∧
    sample hi lo ≤ 8191 ∧ sample hi lo / 32 = hi.toNat ∧ sample hi lo % 32 = lo.toNat / 8 ∧
    v10 (sample hi lo) = sample hi lo * 122 ∧ v10 (sample hi lo) ≤ 999302
end

