-- ==== Sys2Proof/Laws/State.lean ====
section
/-!
SUPPORT. What each update of the state leaves in each field: one lemma per field per update, so that no proof unfolds
a record update.
-/

namespace Sys2Proof.Machine

open Sys2Proof

@[simp] theorem raiseFault_config (c : FaultCode) (s : State) : (raiseFault c s).config = s.config := rfl
@[simp] theorem raiseFault_cfgReg (c : FaultCode) (s : State) : (raiseFault c s).cfgReg = s.cfgReg := rfl
@[simp] theorem raiseFault_phase (c : FaultCode) (s : State) : (raiseFault c s).phase = .fault := rfl
@[simp] theorem raiseFault_fcode (c : FaultCode) (s : State) : (raiseFault c s).fcode = c := rfl
@[simp] theorem raiseFault_rvalid (c : FaultCode) (s : State) : (raiseFault c s).rvalid = s.rvalid := rfl
@[simp] theorem raiseFault_busReady (c : FaultCode) (s : State) : (raiseFault c s).busReady = s.busReady := rfl
@[simp] theorem raiseFault_idWarn (c : FaultCode) (s : State) : (raiseFault c s).idWarn = s.idWarn := rfl
@[simp] theorem raiseFault_authValid (c : FaultCode) (s : State) : (raiseFault c s).authValid = s.authValid := rfl
@[simp] theorem raiseFault_authFail (c : FaultCode) (s : State) : (raiseFault c s).authFail = s.authFail := rfl
@[simp] theorem raiseFault_authOk (c : FaultCode) (s : State) : (raiseFault c s).authOk = s.authOk := rfl
@[simp] theorem raiseFault_authBusy (c : FaultCode) (s : State) : (raiseFault c s).authBusy = s.authBusy := rfl
@[simp] theorem raiseFault_unbalCleared (c : FaultCode) (s : State) : (raiseFault c s).unbalCleared = s.unbalCleared := rfl
@[simp] theorem raiseFault_lastOp (c : FaultCode) (s : State) : (raiseFault c s).lastOp = s.lastOp := rfl
@[simp] theorem raiseFault_srcLen (c : FaultCode) (s : State) : (raiseFault c s).srcLen = s.srcLen := rfl
@[simp] theorem raiseFault_storeLen (c : FaultCode) (s : State) : (raiseFault c s).storeLen = s.storeLen := rfl
@[simp] theorem raiseFault_res0 (c : FaultCode) (s : State) : (raiseFault c s).res0 = s.res0 := rfl
@[simp] theorem raiseFault_res1 (c : FaultCode) (s : State) : (raiseFault c s).res1 = s.res1 := rfl
@[simp] theorem raiseFault_res2 (c : FaultCode) (s : State) : (raiseFault c s).res2 = s.res2 := rfl
@[simp] theorem raiseFault_res3 (c : FaultCode) (s : State) : (raiseFault c s).res3 = s.res3 := rfl
@[simp] theorem raiseFault_flags (c : FaultCode) (s : State) : (raiseFault c s).flags = s.flags := rfl
@[simp] theorem raiseFault_clkRate (c : FaultCode) (s : State) : (raiseFault c s).clkRate = s.clkRate := rfl
@[simp] theorem raiseFault_mem (c : FaultCode) (s : State) : (raiseFault c s).mem = s.mem := rfl
@[simp] theorem raiseFault_cfgWritten (c : FaultCode) (s : State) : (raiseFault c s).cfgWritten = s.cfgWritten := rfl
@[simp] theorem raiseFault_pollCount (c : FaultCode) (s : State) : (raiseFault c s).pollCount = s.pollCount := rfl
@[simp] theorem raiseFault_latch (c : FaultCode) (s : State) : (raiseFault c s).latch = s.latch := rfl
@[simp] theorem raiseFault_selLatch (c : FaultCode) (s : State) : (raiseFault c s).selLatch = s.selLatch := rfl
@[simp] theorem raiseFault_pos (c : FaultCode) (s : State) : (raiseFault c s).pos = .none := rfl
@[simp] theorem raiseFault_scratch (c : FaultCode) (s : State) : (raiseFault c s).scratch = Scratch.clear := rfl
@[simp] theorem raiseFault_inbox (c : FaultCode) (s : State) : (raiseFault c s).inbox = s.inbox := rfl
@[simp] theorem raiseFault_replies (c : FaultCode) (s : State) : (raiseFault c s).replies = s.replies := rfl
@[simp] theorem raiseFault_answered (c : FaultCode) (s : State) : (raiseFault c s).answered = s.answered := rfl
@[simp] theorem raiseFault_drawn (c : FaultCode) (s : State) : (raiseFault c s).drawn = s.drawn := rfl
@[simp] theorem raiseFault_logRev (c : FaultCode) (s : State) : (raiseFault c s).logRev = s.logRev := rfl
@[simp] theorem raiseFault_readsRev (c : FaultCode) (s : State) : (raiseFault c s).readsRev = s.readsRev := rfl

@[simp] theorem finish_config (s : State) : (finish s).config = s.config := rfl
@[simp] theorem finish_cfgReg (s : State) : (finish s).cfgReg = s.cfgReg := rfl
@[simp] theorem finish_phase (s : State) : (finish s).phase = .done := rfl
@[simp] theorem finish_fcode (s : State) : (finish s).fcode = s.fcode := rfl
@[simp] theorem finish_rvalid (s : State) : (finish s).rvalid = s.rvalid := rfl
@[simp] theorem finish_busReady (s : State) : (finish s).busReady = s.busReady := rfl
@[simp] theorem finish_idWarn (s : State) : (finish s).idWarn = s.idWarn := rfl
@[simp] theorem finish_authValid (s : State) : (finish s).authValid = s.authValid := rfl
@[simp] theorem finish_authFail (s : State) : (finish s).authFail = s.authFail := rfl
@[simp] theorem finish_authOk (s : State) : (finish s).authOk = s.authOk := rfl
@[simp] theorem finish_authBusy (s : State) : (finish s).authBusy = s.authBusy := rfl
@[simp] theorem finish_unbalCleared (s : State) : (finish s).unbalCleared = s.unbalCleared := rfl
@[simp] theorem finish_lastOp (s : State) : (finish s).lastOp = s.lastOp := rfl
@[simp] theorem finish_srcLen (s : State) : (finish s).srcLen = s.srcLen := rfl
@[simp] theorem finish_storeLen (s : State) : (finish s).storeLen = s.storeLen := rfl
@[simp] theorem finish_res0 (s : State) : (finish s).res0 = s.res0 := rfl
@[simp] theorem finish_res1 (s : State) : (finish s).res1 = s.res1 := rfl
@[simp] theorem finish_res2 (s : State) : (finish s).res2 = s.res2 := rfl
@[simp] theorem finish_res3 (s : State) : (finish s).res3 = s.res3 := rfl
@[simp] theorem finish_flags (s : State) : (finish s).flags = s.flags := rfl
@[simp] theorem finish_clkRate (s : State) : (finish s).clkRate = s.clkRate := rfl
@[simp] theorem finish_mem (s : State) : (finish s).mem = s.mem := rfl
@[simp] theorem finish_cfgWritten (s : State) : (finish s).cfgWritten = s.cfgWritten := rfl
@[simp] theorem finish_pollCount (s : State) : (finish s).pollCount = s.pollCount := rfl
@[simp] theorem finish_latch (s : State) : (finish s).latch = s.latch := rfl
@[simp] theorem finish_selLatch (s : State) : (finish s).selLatch = s.selLatch := rfl
@[simp] theorem finish_pos (s : State) : (finish s).pos = .none := rfl
@[simp] theorem finish_scratch (s : State) : (finish s).scratch = Scratch.clear := rfl
@[simp] theorem finish_inbox (s : State) : (finish s).inbox = s.inbox := rfl
@[simp] theorem finish_replies (s : State) : (finish s).replies = s.replies := rfl
@[simp] theorem finish_answered (s : State) : (finish s).answered = s.answered := rfl
@[simp] theorem finish_drawn (s : State) : (finish s).drawn = s.drawn := rfl
@[simp] theorem finish_logRev (s : State) : (finish s).logRev = s.logRev := rfl
@[simp] theorem finish_readsRev (s : State) : (finish s).readsRev = s.readsRev := rfl

@[simp] theorem accept_config (w : Word32) (s : State) : (accept w s).config = s.config := rfl
@[simp] theorem accept_cfgReg (w : Word32) (s : State) : (accept w s).cfgReg = s.cfgReg := rfl
@[simp] theorem accept_phase (w : Word32) (s : State) : (accept w s).phase = .running := rfl
@[simp] theorem accept_fcode (w : Word32) (s : State) : (accept w s).fcode = s.fcode := rfl
@[simp] theorem accept_rvalid (w : Word32) (s : State) : (accept w s).rvalid = false := rfl
@[simp] theorem accept_busReady (w : Word32) (s : State) : (accept w s).busReady = s.busReady := rfl
@[simp] theorem accept_idWarn (w : Word32) (s : State) : (accept w s).idWarn = s.idWarn := rfl
@[simp] theorem accept_authValid (w : Word32) (s : State) : (accept w s).authValid = false := rfl
@[simp] theorem accept_authFail (w : Word32) (s : State) : (accept w s).authFail = false := rfl
@[simp] theorem accept_authOk (w : Word32) (s : State) : (accept w s).authOk = false := rfl
@[simp] theorem accept_authBusy (w : Word32) (s : State) : (accept w s).authBusy = false := rfl
@[simp] theorem accept_unbalCleared (w : Word32) (s : State) : (accept w s).unbalCleared = false := rfl
@[simp] theorem accept_lastOp (w : Word32) (s : State) : (accept w s).lastOp = fieldOp w := rfl
@[simp] theorem accept_srcLen (w : Word32) (s : State) : (accept w s).srcLen = s.srcLen := rfl
@[simp] theorem accept_storeLen (w : Word32) (s : State) : (accept w s).storeLen = s.storeLen := rfl
@[simp] theorem accept_res0 (w : Word32) (s : State) : (accept w s).res0 = s.res0 := rfl
@[simp] theorem accept_res1 (w : Word32) (s : State) : (accept w s).res1 = s.res1 := rfl
@[simp] theorem accept_res2 (w : Word32) (s : State) : (accept w s).res2 = s.res2 := rfl
@[simp] theorem accept_res3 (w : Word32) (s : State) : (accept w s).res3 = s.res3 := rfl
@[simp] theorem accept_flags (w : Word32) (s : State) : (accept w s).flags = s.flags := rfl
@[simp] theorem accept_clkRate (w : Word32) (s : State) : (accept w s).clkRate = s.clkRate := rfl
@[simp] theorem accept_mem (w : Word32) (s : State) : (accept w s).mem = s.mem := rfl
@[simp] theorem accept_cfgWritten (w : Word32) (s : State) : (accept w s).cfgWritten = s.cfgWritten := rfl
@[simp] theorem accept_pollCount (w : Word32) (s : State) : (accept w s).pollCount = s.pollCount := rfl
@[simp] theorem accept_latch (w : Word32) (s : State) : (accept w s).latch = w := rfl
@[simp] theorem accept_selLatch (w : Word32) (s : State) : (accept w s).selLatch = s.storeSel := rfl
@[simp] theorem accept_pos (w : Word32) (s : State) : (accept w s).pos = .entry := rfl
@[simp] theorem accept_scratch (w : Word32) (s : State) : (accept w s).scratch = Scratch.clear := rfl
@[simp] theorem accept_inbox (w : Word32) (s : State) : (accept w s).inbox = s.inbox := rfl
@[simp] theorem accept_replies (w : Word32) (s : State) : (accept w s).replies = s.replies := rfl
@[simp] theorem accept_answered (w : Word32) (s : State) : (accept w s).answered = s.answered := rfl
@[simp] theorem accept_drawn (w : Word32) (s : State) : (accept w s).drawn = s.drawn := rfl
@[simp] theorem accept_logRev (w : Word32) (s : State) : (accept w s).logRev = s.logRev := rfl
@[simp] theorem accept_readsRev (w : Word32) (s : State) : (accept w s).readsRev = s.readsRev := rfl

@[simp] theorem resetBlock_config (s : State) : (resetBlock s).config = s.config := rfl
@[simp] theorem resetBlock_cfgReg (s : State) : (resetBlock s).cfgReg = State.reset.cfgReg := rfl
@[simp] theorem resetBlock_phase (s : State) : (resetBlock s).phase = State.reset.phase := rfl
@[simp] theorem resetBlock_fcode (s : State) : (resetBlock s).fcode = State.reset.fcode := rfl
@[simp] theorem resetBlock_rvalid (s : State) : (resetBlock s).rvalid = State.reset.rvalid := rfl
@[simp] theorem resetBlock_busReady (s : State) : (resetBlock s).busReady = State.reset.busReady := rfl
@[simp] theorem resetBlock_idWarn (s : State) : (resetBlock s).idWarn = State.reset.idWarn := rfl
@[simp] theorem resetBlock_authValid (s : State) : (resetBlock s).authValid = State.reset.authValid := rfl
@[simp] theorem resetBlock_authFail (s : State) : (resetBlock s).authFail = State.reset.authFail := rfl
@[simp] theorem resetBlock_authOk (s : State) : (resetBlock s).authOk = State.reset.authOk := rfl
@[simp] theorem resetBlock_authBusy (s : State) : (resetBlock s).authBusy = State.reset.authBusy := rfl
@[simp] theorem resetBlock_unbalCleared (s : State) : (resetBlock s).unbalCleared = State.reset.unbalCleared := rfl
@[simp] theorem resetBlock_lastOp (s : State) : (resetBlock s).lastOp = State.reset.lastOp := rfl
@[simp] theorem resetBlock_srcLen (s : State) : (resetBlock s).srcLen = State.reset.srcLen := rfl
@[simp] theorem resetBlock_storeLen (s : State) : (resetBlock s).storeLen = State.reset.storeLen := rfl
@[simp] theorem resetBlock_res0 (s : State) : (resetBlock s).res0 = State.reset.res0 := rfl
@[simp] theorem resetBlock_res1 (s : State) : (resetBlock s).res1 = State.reset.res1 := rfl
@[simp] theorem resetBlock_res2 (s : State) : (resetBlock s).res2 = State.reset.res2 := rfl
@[simp] theorem resetBlock_res3 (s : State) : (resetBlock s).res3 = State.reset.res3 := rfl
@[simp] theorem resetBlock_flags (s : State) : (resetBlock s).flags = State.reset.flags := rfl
@[simp] theorem resetBlock_clkRate (s : State) : (resetBlock s).clkRate = State.reset.clkRate := rfl
@[simp] theorem resetBlock_mem (s : State) : (resetBlock s).mem = State.reset.mem := rfl
@[simp] theorem resetBlock_cfgWritten (s : State) : (resetBlock s).cfgWritten = State.reset.cfgWritten := rfl
@[simp] theorem resetBlock_pollCount (s : State) : (resetBlock s).pollCount = State.reset.pollCount := rfl
@[simp] theorem resetBlock_latch (s : State) : (resetBlock s).latch = State.reset.latch := rfl
@[simp] theorem resetBlock_selLatch (s : State) : (resetBlock s).selLatch = State.reset.selLatch := rfl
@[simp] theorem resetBlock_pos (s : State) : (resetBlock s).pos = State.reset.pos := rfl
@[simp] theorem resetBlock_scratch (s : State) : (resetBlock s).scratch = State.reset.scratch := rfl
@[simp] theorem resetBlock_inbox (s : State) : (resetBlock s).inbox = s.inbox := rfl
@[simp] theorem resetBlock_replies (s : State) : (resetBlock s).replies = s.replies := rfl
@[simp] theorem resetBlock_answered (s : State) : (resetBlock s).answered = s.answered := rfl
@[simp] theorem resetBlock_drawn (s : State) : (resetBlock s).drawn = s.drawn := rfl
@[simp] theorem resetBlock_logRev (s : State) : (resetBlock s).logRev = s.logRev := rfl
@[simp] theorem resetBlock_readsRev (s : State) : (resetBlock s).readsRev = s.readsRev := rfl

@[simp] theorem takeReply_config (s : State) : (s.takeReply).config = s.config := by unfold State.takeReply; split <;> rfl
@[simp] theorem takeReply_cfgReg (s : State) : (s.takeReply).cfgReg = s.cfgReg := by unfold State.takeReply; split <;> rfl
@[simp] theorem takeReply_phase (s : State) : (s.takeReply).phase = s.phase := by unfold State.takeReply; split <;> rfl
@[simp] theorem takeReply_fcode (s : State) : (s.takeReply).fcode = s.fcode := by unfold State.takeReply; split <;> rfl
@[simp] theorem takeReply_rvalid (s : State) : (s.takeReply).rvalid = s.rvalid := by unfold State.takeReply; split <;> rfl
@[simp] theorem takeReply_busReady (s : State) : (s.takeReply).busReady = s.busReady := by unfold State.takeReply; split <;> rfl
@[simp] theorem takeReply_idWarn (s : State) : (s.takeReply).idWarn = s.idWarn := by unfold State.takeReply; split <;> rfl
@[simp] theorem takeReply_authValid (s : State) : (s.takeReply).authValid = s.authValid := by unfold State.takeReply; split <;> rfl
@[simp] theorem takeReply_authFail (s : State) : (s.takeReply).authFail = s.authFail := by unfold State.takeReply; split <;> rfl
@[simp] theorem takeReply_authOk (s : State) : (s.takeReply).authOk = s.authOk := by unfold State.takeReply; split <;> rfl
@[simp] theorem takeReply_authBusy (s : State) : (s.takeReply).authBusy = s.authBusy := by unfold State.takeReply; split <;> rfl
@[simp] theorem takeReply_unbalCleared (s : State) : (s.takeReply).unbalCleared = s.unbalCleared := by unfold State.takeReply; split <;> rfl
@[simp] theorem takeReply_lastOp (s : State) : (s.takeReply).lastOp = s.lastOp := by unfold State.takeReply; split <;> rfl
@[simp] theorem takeReply_srcLen (s : State) : (s.takeReply).srcLen = s.srcLen := by unfold State.takeReply; split <;> rfl
@[simp] theorem takeReply_storeLen (s : State) : (s.takeReply).storeLen = s.storeLen := by unfold State.takeReply; split <;> rfl
@[simp] theorem takeReply_res0 (s : State) : (s.takeReply).res0 = s.res0 := by unfold State.takeReply; split <;> rfl
@[simp] theorem takeReply_res1 (s : State) : (s.takeReply).res1 = s.res1 := by unfold State.takeReply; split <;> rfl
@[simp] theorem takeReply_res2 (s : State) : (s.takeReply).res2 = s.res2 := by unfold State.takeReply; split <;> rfl
@[simp] theorem takeReply_res3 (s : State) : (s.takeReply).res3 = s.res3 := by unfold State.takeReply; split <;> rfl
@[simp] theorem takeReply_flags (s : State) : (s.takeReply).flags = s.flags := by unfold State.takeReply; split <;> rfl
@[simp] theorem takeReply_clkRate (s : State) : (s.takeReply).clkRate = s.clkRate := by unfold State.takeReply; split <;> rfl
@[simp] theorem takeReply_mem (s : State) : (s.takeReply).mem = s.mem := by unfold State.takeReply; split <;> rfl
@[simp] theorem takeReply_cfgWritten (s : State) : (s.takeReply).cfgWritten = s.cfgWritten := by unfold State.takeReply; split <;> rfl
@[simp] theorem takeReply_pollCount (s : State) : (s.takeReply).pollCount = s.pollCount := by unfold State.takeReply; split <;> rfl
@[simp] theorem takeReply_latch (s : State) : (s.takeReply).latch = s.latch := by unfold State.takeReply; split <;> rfl
@[simp] theorem takeReply_selLatch (s : State) : (s.takeReply).selLatch = s.selLatch := by unfold State.takeReply; split <;> rfl
@[simp] theorem takeReply_pos (s : State) : (s.takeReply).pos = s.pos := by unfold State.takeReply; split <;> rfl
@[simp] theorem takeReply_scratch (s : State) : (s.takeReply).scratch = s.scratch := by unfold State.takeReply; split <;> rfl
@[simp] theorem takeReply_inbox (s : State) : (s.takeReply).inbox = s.inbox := by unfold State.takeReply; split <;> rfl
@[simp] theorem takeReply_drawn (s : State) : (s.takeReply).drawn = s.drawn := by unfold State.takeReply; split <;> rfl
@[simp] theorem takeReply_logRev (s : State) : (s.takeReply).logRev = s.logRev := by unfold State.takeReply; split <;> rfl
@[simp] theorem takeReply_readsRev (s : State) : (s.takeReply).readsRev = s.readsRev := by unfold State.takeReply; split <;> rfl

@[simp] theorem recordEvent_config (p : BusPrim) (s : State) : (recordEvent p s).config = s.config := takeReply_config s
@[simp] theorem recordEvent_cfgReg (p : BusPrim) (s : State) : (recordEvent p s).cfgReg = s.cfgReg := takeReply_cfgReg s
@[simp] theorem recordEvent_phase (p : BusPrim) (s : State) : (recordEvent p s).phase = s.phase := takeReply_phase s
@[simp] theorem recordEvent_fcode (p : BusPrim) (s : State) : (recordEvent p s).fcode = s.fcode := takeReply_fcode s
@[simp] theorem recordEvent_rvalid (p : BusPrim) (s : State) : (recordEvent p s).rvalid = s.rvalid := takeReply_rvalid s
@[simp] theorem recordEvent_busReady (p : BusPrim) (s : State) : (recordEvent p s).busReady = s.busReady := takeReply_busReady s
@[simp] theorem recordEvent_idWarn (p : BusPrim) (s : State) : (recordEvent p s).idWarn = s.idWarn := takeReply_idWarn s
@[simp] theorem recordEvent_authValid (p : BusPrim) (s : State) : (recordEvent p s).authValid = s.authValid := takeReply_authValid s
@[simp] theorem recordEvent_authFail (p : BusPrim) (s : State) : (recordEvent p s).authFail = s.authFail := takeReply_authFail s
@[simp] theorem recordEvent_authOk (p : BusPrim) (s : State) : (recordEvent p s).authOk = s.authOk := takeReply_authOk s
@[simp] theorem recordEvent_authBusy (p : BusPrim) (s : State) : (recordEvent p s).authBusy = s.authBusy := takeReply_authBusy s
@[simp] theorem recordEvent_unbalCleared (p : BusPrim) (s : State) : (recordEvent p s).unbalCleared = s.unbalCleared := takeReply_unbalCleared s
@[simp] theorem recordEvent_lastOp (p : BusPrim) (s : State) : (recordEvent p s).lastOp = s.lastOp := takeReply_lastOp s
@[simp] theorem recordEvent_srcLen (p : BusPrim) (s : State) : (recordEvent p s).srcLen = s.srcLen := takeReply_srcLen s
@[simp] theorem recordEvent_storeLen (p : BusPrim) (s : State) : (recordEvent p s).storeLen = s.storeLen := takeReply_storeLen s
@[simp] theorem recordEvent_res0 (p : BusPrim) (s : State) : (recordEvent p s).res0 = s.res0 := takeReply_res0 s
@[simp] theorem recordEvent_res1 (p : BusPrim) (s : State) : (recordEvent p s).res1 = s.res1 := takeReply_res1 s
@[simp] theorem recordEvent_res2 (p : BusPrim) (s : State) : (recordEvent p s).res2 = s.res2 := takeReply_res2 s
@[simp] theorem recordEvent_res3 (p : BusPrim) (s : State) : (recordEvent p s).res3 = s.res3 := takeReply_res3 s
@[simp] theorem recordEvent_flags (p : BusPrim) (s : State) : (recordEvent p s).flags = s.flags := takeReply_flags s
@[simp] theorem recordEvent_clkRate (p : BusPrim) (s : State) : (recordEvent p s).clkRate = s.clkRate := takeReply_clkRate s
@[simp] theorem recordEvent_mem (p : BusPrim) (s : State) : (recordEvent p s).mem = s.mem := takeReply_mem s
@[simp] theorem recordEvent_cfgWritten (p : BusPrim) (s : State) : (recordEvent p s).cfgWritten = s.cfgWritten := takeReply_cfgWritten s
@[simp] theorem recordEvent_pollCount (p : BusPrim) (s : State) : (recordEvent p s).pollCount = s.pollCount := takeReply_pollCount s
@[simp] theorem recordEvent_latch (p : BusPrim) (s : State) : (recordEvent p s).latch = s.latch := takeReply_latch s
@[simp] theorem recordEvent_selLatch (p : BusPrim) (s : State) : (recordEvent p s).selLatch = s.selLatch := takeReply_selLatch s
@[simp] theorem recordEvent_pos (p : BusPrim) (s : State) : (recordEvent p s).pos = s.pos := takeReply_pos s
@[simp] theorem recordEvent_scratch (p : BusPrim) (s : State) : (recordEvent p s).scratch = s.scratch := takeReply_scratch s
@[simp] theorem recordEvent_inbox (p : BusPrim) (s : State) : (recordEvent p s).inbox = s.inbox := takeReply_inbox s
@[simp] theorem recordEvent_replies (p : BusPrim) (s : State) : (recordEvent p s).replies = s.takeReply.replies := rfl
@[simp] theorem recordEvent_answered (p : BusPrim) (s : State) : (recordEvent p s).answered = s.takeReply.answered := rfl
@[simp] theorem recordEvent_drawn (p : BusPrim) (s : State) : (recordEvent p s).drawn = s.drawn := takeReply_drawn s
@[simp] theorem recordEvent_logRev (p : BusPrim) (s : State) : (recordEvent p s).logRev = ⟨p, answerOf p s.nextReply⟩ :: s.logRev := rfl
@[simp] theorem recordEvent_readsRev (p : BusPrim) (s : State) : (recordEvent p s).readsRev = s.readsRev := takeReply_readsRev s

@[simp] theorem toBeat_config (j : Nat) (b : Beat) (s : State) : (toBeat j b s).config = s.config := rfl
@[simp] theorem toBeat_cfgReg (j : Nat) (b : Beat) (s : State) : (toBeat j b s).cfgReg = s.cfgReg := rfl
@[simp] theorem toBeat_phase (j : Nat) (b : Beat) (s : State) : (toBeat j b s).phase = s.phase := rfl
@[simp] theorem toBeat_fcode (j : Nat) (b : Beat) (s : State) : (toBeat j b s).fcode = s.fcode := rfl
@[simp] theorem toBeat_rvalid (j : Nat) (b : Beat) (s : State) : (toBeat j b s).rvalid = s.rvalid := rfl
@[simp] theorem toBeat_busReady (j : Nat) (b : Beat) (s : State) : (toBeat j b s).busReady = s.busReady := rfl
@[simp] theorem toBeat_idWarn (j : Nat) (b : Beat) (s : State) : (toBeat j b s).idWarn = s.idWarn := rfl
@[simp] theorem toBeat_authValid (j : Nat) (b : Beat) (s : State) : (toBeat j b s).authValid = s.authValid := rfl
@[simp] theorem toBeat_authFail (j : Nat) (b : Beat) (s : State) : (toBeat j b s).authFail = s.authFail := rfl
@[simp] theorem toBeat_authOk (j : Nat) (b : Beat) (s : State) : (toBeat j b s).authOk = s.authOk := rfl
@[simp] theorem toBeat_authBusy (j : Nat) (b : Beat) (s : State) : (toBeat j b s).authBusy = s.authBusy := rfl
@[simp] theorem toBeat_unbalCleared (j : Nat) (b : Beat) (s : State) : (toBeat j b s).unbalCleared = s.unbalCleared := rfl
@[simp] theorem toBeat_lastOp (j : Nat) (b : Beat) (s : State) : (toBeat j b s).lastOp = s.lastOp := rfl
@[simp] theorem toBeat_srcLen (j : Nat) (b : Beat) (s : State) : (toBeat j b s).srcLen = s.srcLen := rfl
@[simp] theorem toBeat_storeLen (j : Nat) (b : Beat) (s : State) : (toBeat j b s).storeLen = s.storeLen := rfl
@[simp] theorem toBeat_res0 (j : Nat) (b : Beat) (s : State) : (toBeat j b s).res0 = s.res0 := rfl
@[simp] theorem toBeat_res1 (j : Nat) (b : Beat) (s : State) : (toBeat j b s).res1 = s.res1 := rfl
@[simp] theorem toBeat_res2 (j : Nat) (b : Beat) (s : State) : (toBeat j b s).res2 = s.res2 := rfl
@[simp] theorem toBeat_res3 (j : Nat) (b : Beat) (s : State) : (toBeat j b s).res3 = s.res3 := rfl
@[simp] theorem toBeat_flags (j : Nat) (b : Beat) (s : State) : (toBeat j b s).flags = s.flags := rfl
@[simp] theorem toBeat_clkRate (j : Nat) (b : Beat) (s : State) : (toBeat j b s).clkRate = s.clkRate := rfl
@[simp] theorem toBeat_mem (j : Nat) (b : Beat) (s : State) : (toBeat j b s).mem = s.mem := rfl
@[simp] theorem toBeat_cfgWritten (j : Nat) (b : Beat) (s : State) : (toBeat j b s).cfgWritten = s.cfgWritten := rfl
@[simp] theorem toBeat_pollCount (j : Nat) (b : Beat) (s : State) : (toBeat j b s).pollCount = s.pollCount := rfl
@[simp] theorem toBeat_latch (j : Nat) (b : Beat) (s : State) : (toBeat j b s).latch = s.latch := rfl
@[simp] theorem toBeat_selLatch (j : Nat) (b : Beat) (s : State) : (toBeat j b s).selLatch = s.selLatch := rfl
@[simp] theorem toBeat_pos (j : Nat) (b : Beat) (s : State) : (toBeat j b s).pos = .at j b := rfl
@[simp] theorem toBeat_scratch (j : Nat) (b : Beat) (s : State) : (toBeat j b s).scratch = s.scratch := rfl
@[simp] theorem toBeat_inbox (j : Nat) (b : Beat) (s : State) : (toBeat j b s).inbox = s.inbox := rfl
@[simp] theorem toBeat_replies (j : Nat) (b : Beat) (s : State) : (toBeat j b s).replies = s.replies := rfl
@[simp] theorem toBeat_answered (j : Nat) (b : Beat) (s : State) : (toBeat j b s).answered = s.answered := rfl
@[simp] theorem toBeat_drawn (j : Nat) (b : Beat) (s : State) : (toBeat j b s).drawn = s.drawn := rfl
@[simp] theorem toBeat_logRev (j : Nat) (b : Beat) (s : State) : (toBeat j b s).logRev = s.logRev := rfl
@[simp] theorem toBeat_readsRev (j : Nat) (b : Beat) (s : State) : (toBeat j b s).readsRev = s.readsRev := rfl

@[simp] theorem goTo_config (n j : Nat) (s : State) : (goTo n j s).config = s.config := by unfold goTo; split <;> rfl
@[simp] theorem goTo_cfgReg (n j : Nat) (s : State) : (goTo n j s).cfgReg = s.cfgReg := by unfold goTo; split <;> rfl
@[simp] theorem goTo_fcode (n j : Nat) (s : State) : (goTo n j s).fcode = s.fcode := by unfold goTo; split <;> rfl
@[simp] theorem goTo_rvalid (n j : Nat) (s : State) : (goTo n j s).rvalid = s.rvalid := by unfold goTo; split <;> rfl
@[simp] theorem goTo_busReady (n j : Nat) (s : State) : (goTo n j s).busReady = s.busReady := by unfold goTo; split <;> rfl
@[simp] theorem goTo_idWarn (n j : Nat) (s : State) : (goTo n j s).idWarn = s.idWarn := by unfold goTo; split <;> rfl
@[simp] theorem goTo_authValid (n j : Nat) (s : State) : (goTo n j s).authValid = s.authValid := by unfold goTo; split <;> rfl
@[simp] theorem goTo_authFail (n j : Nat) (s : State) : (goTo n j s).authFail = s.authFail := by unfold goTo; split <;> rfl
@[simp] theorem goTo_authOk (n j : Nat) (s : State) : (goTo n j s).authOk = s.authOk := by unfold goTo; split <;> rfl
@[simp] theorem goTo_authBusy (n j : Nat) (s : State) : (goTo n j s).authBusy = s.authBusy := by unfold goTo; split <;> rfl
@[simp] theorem goTo_unbalCleared (n j : Nat) (s : State) : (goTo n j s).unbalCleared = s.unbalCleared := by unfold goTo; split <;> rfl
@[simp] theorem goTo_lastOp (n j : Nat) (s : State) : (goTo n j s).lastOp = s.lastOp := by unfold goTo; split <;> rfl
@[simp] theorem goTo_srcLen (n j : Nat) (s : State) : (goTo n j s).srcLen = s.srcLen := by unfold goTo; split <;> rfl
@[simp] theorem goTo_storeLen (n j : Nat) (s : State) : (goTo n j s).storeLen = s.storeLen := by unfold goTo; split <;> rfl
@[simp] theorem goTo_res0 (n j : Nat) (s : State) : (goTo n j s).res0 = s.res0 := by unfold goTo; split <;> rfl
@[simp] theorem goTo_res1 (n j : Nat) (s : State) : (goTo n j s).res1 = s.res1 := by unfold goTo; split <;> rfl
@[simp] theorem goTo_res2 (n j : Nat) (s : State) : (goTo n j s).res2 = s.res2 := by unfold goTo; split <;> rfl
@[simp] theorem goTo_res3 (n j : Nat) (s : State) : (goTo n j s).res3 = s.res3 := by unfold goTo; split <;> rfl
@[simp] theorem goTo_flags (n j : Nat) (s : State) : (goTo n j s).flags = s.flags := by unfold goTo; split <;> rfl
@[simp] theorem goTo_clkRate (n j : Nat) (s : State) : (goTo n j s).clkRate = s.clkRate := by unfold goTo; split <;> rfl
@[simp] theorem goTo_mem (n j : Nat) (s : State) : (goTo n j s).mem = s.mem := by unfold goTo; split <;> rfl
@[simp] theorem goTo_cfgWritten (n j : Nat) (s : State) : (goTo n j s).cfgWritten = s.cfgWritten := by unfold goTo; split <;> rfl
@[simp] theorem goTo_pollCount (n j : Nat) (s : State) : (goTo n j s).pollCount = s.pollCount := by unfold goTo; split <;> rfl
@[simp] theorem goTo_latch (n j : Nat) (s : State) : (goTo n j s).latch = s.latch := by unfold goTo; split <;> rfl
@[simp] theorem goTo_selLatch (n j : Nat) (s : State) : (goTo n j s).selLatch = s.selLatch := by unfold goTo; split <;> rfl
@[simp] theorem goTo_inbox (n j : Nat) (s : State) : (goTo n j s).inbox = s.inbox := by unfold goTo; split <;> rfl
@[simp] theorem goTo_replies (n j : Nat) (s : State) : (goTo n j s).replies = s.replies := by unfold goTo; split <;> rfl
@[simp] theorem goTo_answered (n j : Nat) (s : State) : (goTo n j s).answered = s.answered := by unfold goTo; split <;> rfl
@[simp] theorem goTo_drawn (n j : Nat) (s : State) : (goTo n j s).drawn = s.drawn := by unfold goTo; split <;> rfl
@[simp] theorem goTo_logRev (n j : Nat) (s : State) : (goTo n j s).logRev = s.logRev := by unfold goTo; split <;> rfl
@[simp] theorem goTo_readsRev (n j : Nat) (s : State) : (goTo n j s).readsRev = s.readsRev := by unfold goTo; split <;> rfl

@[simp] theorem memWrite_config (buf : Buffer) (a : Nat) (v : Byte) (s : State) : (memWrite buf a v s).config = s.config := rfl
@[simp] theorem memWrite_cfgReg (buf : Buffer) (a : Nat) (v : Byte) (s : State) : (memWrite buf a v s).cfgReg = s.cfgReg := rfl
@[simp] theorem memWrite_phase (buf : Buffer) (a : Nat) (v : Byte) (s : State) : (memWrite buf a v s).phase = s.phase := rfl
@[simp] theorem memWrite_fcode (buf : Buffer) (a : Nat) (v : Byte) (s : State) : (memWrite buf a v s).fcode = s.fcode := rfl
@[simp] theorem memWrite_rvalid (buf : Buffer) (a : Nat) (v : Byte) (s : State) : (memWrite buf a v s).rvalid = s.rvalid := rfl
@[simp] theorem memWrite_busReady (buf : Buffer) (a : Nat) (v : Byte) (s : State) : (memWrite buf a v s).busReady = s.busReady := rfl
@[simp] theorem memWrite_idWarn (buf : Buffer) (a : Nat) (v : Byte) (s : State) : (memWrite buf a v s).idWarn = s.idWarn := rfl
@[simp] theorem memWrite_authValid (buf : Buffer) (a : Nat) (v : Byte) (s : State) : (memWrite buf a v s).authValid = s.authValid := rfl
@[simp] theorem memWrite_authFail (buf : Buffer) (a : Nat) (v : Byte) (s : State) : (memWrite buf a v s).authFail = s.authFail := rfl
@[simp] theorem memWrite_authOk (buf : Buffer) (a : Nat) (v : Byte) (s : State) : (memWrite buf a v s).authOk = s.authOk := rfl
@[simp] theorem memWrite_authBusy (buf : Buffer) (a : Nat) (v : Byte) (s : State) : (memWrite buf a v s).authBusy = s.authBusy := rfl
@[simp] theorem memWrite_unbalCleared (buf : Buffer) (a : Nat) (v : Byte) (s : State) : (memWrite buf a v s).unbalCleared = s.unbalCleared := rfl
@[simp] theorem memWrite_lastOp (buf : Buffer) (a : Nat) (v : Byte) (s : State) : (memWrite buf a v s).lastOp = s.lastOp := rfl
@[simp] theorem memWrite_srcLen (buf : Buffer) (a : Nat) (v : Byte) (s : State) : (memWrite buf a v s).srcLen = s.srcLen := rfl
@[simp] theorem memWrite_storeLen (buf : Buffer) (a : Nat) (v : Byte) (s : State) : (memWrite buf a v s).storeLen = s.storeLen := rfl
@[simp] theorem memWrite_res0 (buf : Buffer) (a : Nat) (v : Byte) (s : State) : (memWrite buf a v s).res0 = s.res0 := rfl
@[simp] theorem memWrite_res1 (buf : Buffer) (a : Nat) (v : Byte) (s : State) : (memWrite buf a v s).res1 = s.res1 := rfl
@[simp] theorem memWrite_res2 (buf : Buffer) (a : Nat) (v : Byte) (s : State) : (memWrite buf a v s).res2 = s.res2 := rfl
@[simp] theorem memWrite_res3 (buf : Buffer) (a : Nat) (v : Byte) (s : State) : (memWrite buf a v s).res3 = s.res3 := rfl
@[simp] theorem memWrite_flags (buf : Buffer) (a : Nat) (v : Byte) (s : State) : (memWrite buf a v s).flags = s.flags := rfl
@[simp] theorem memWrite_clkRate (buf : Buffer) (a : Nat) (v : Byte) (s : State) : (memWrite buf a v s).clkRate = s.clkRate := rfl
@[simp] theorem memWrite_mem (buf : Buffer) (a : Nat) (v : Byte) (s : State) : (memWrite buf a v s).mem = s.mem.write (buf.base + a) v := rfl
@[simp] theorem memWrite_cfgWritten (buf : Buffer) (a : Nat) (v : Byte) (s : State) : (memWrite buf a v s).cfgWritten = s.cfgWritten := rfl
@[simp] theorem memWrite_pollCount (buf : Buffer) (a : Nat) (v : Byte) (s : State) : (memWrite buf a v s).pollCount = s.pollCount := rfl
@[simp] theorem memWrite_latch (buf : Buffer) (a : Nat) (v : Byte) (s : State) : (memWrite buf a v s).latch = s.latch := rfl
@[simp] theorem memWrite_selLatch (buf : Buffer) (a : Nat) (v : Byte) (s : State) : (memWrite buf a v s).selLatch = s.selLatch := rfl
@[simp] theorem memWrite_pos (buf : Buffer) (a : Nat) (v : Byte) (s : State) : (memWrite buf a v s).pos = s.pos := rfl
@[simp] theorem memWrite_scratch (buf : Buffer) (a : Nat) (v : Byte) (s : State) : (memWrite buf a v s).scratch = s.scratch := rfl
@[simp] theorem memWrite_inbox (buf : Buffer) (a : Nat) (v : Byte) (s : State) : (memWrite buf a v s).inbox = s.inbox := rfl
@[simp] theorem memWrite_replies (buf : Buffer) (a : Nat) (v : Byte) (s : State) : (memWrite buf a v s).replies = s.replies := rfl
@[simp] theorem memWrite_answered (buf : Buffer) (a : Nat) (v : Byte) (s : State) : (memWrite buf a v s).answered = s.answered := rfl
@[simp] theorem memWrite_drawn (buf : Buffer) (a : Nat) (v : Byte) (s : State) : (memWrite buf a v s).drawn = s.drawn := rfl
@[simp] theorem memWrite_logRev (buf : Buffer) (a : Nat) (v : Byte) (s : State) : (memWrite buf a v s).logRev = s.logRev := rfl
@[simp] theorem memWrite_readsRev (buf : Buffer) (a : Nat) (v : Byte) (s : State) : (memWrite buf a v s).readsRev = s.readsRev := rfl

@[simp] theorem setRes0_config (s : State) (v : Word32) : (s.setRes0 v).config = s.config := rfl
@[simp] theorem setRes0_cfgReg (s : State) (v : Word32) : (s.setRes0 v).cfgReg = s.cfgReg := rfl
@[simp] theorem setRes0_phase (s : State) (v : Word32) : (s.setRes0 v).phase = s.phase := rfl
@[simp] theorem setRes0_fcode (s : State) (v : Word32) : (s.setRes0 v).fcode = s.fcode := rfl
@[simp] theorem setRes0_rvalid (s : State) (v : Word32) : (s.setRes0 v).rvalid = true := rfl
@[simp] theorem setRes0_busReady (s : State) (v : Word32) : (s.setRes0 v).busReady = s.busReady := rfl
@[simp] theorem setRes0_idWarn (s : State) (v : Word32) : (s.setRes0 v).idWarn = s.idWarn := rfl
@[simp] theorem setRes0_authValid (s : State) (v : Word32) : (s.setRes0 v).authValid = s.authValid := rfl
@[simp] theorem setRes0_authFail (s : State) (v : Word32) : (s.setRes0 v).authFail = s.authFail := rfl
@[simp] theorem setRes0_authOk (s : State) (v : Word32) : (s.setRes0 v).authOk = s.authOk := rfl
@[simp] theorem setRes0_authBusy (s : State) (v : Word32) : (s.setRes0 v).authBusy = s.authBusy := rfl
@[simp] theorem setRes0_unbalCleared (s : State) (v : Word32) : (s.setRes0 v).unbalCleared = s.unbalCleared := rfl
@[simp] theorem setRes0_lastOp (s : State) (v : Word32) : (s.setRes0 v).lastOp = s.lastOp := rfl
@[simp] theorem setRes0_srcLen (s : State) (v : Word32) : (s.setRes0 v).srcLen = s.srcLen := rfl
@[simp] theorem setRes0_storeLen (s : State) (v : Word32) : (s.setRes0 v).storeLen = s.storeLen := rfl
@[simp] theorem setRes0_res0 (s : State) (v : Word32) : (s.setRes0 v).res0 = OutReg.holding v := rfl
@[simp] theorem setRes0_res1 (s : State) (v : Word32) : (s.setRes0 v).res1 = s.res1 := rfl
@[simp] theorem setRes0_res2 (s : State) (v : Word32) : (s.setRes0 v).res2 = s.res2 := rfl
@[simp] theorem setRes0_res3 (s : State) (v : Word32) : (s.setRes0 v).res3 = s.res3 := rfl
@[simp] theorem setRes0_flags (s : State) (v : Word32) : (s.setRes0 v).flags = s.flags := rfl
@[simp] theorem setRes0_clkRate (s : State) (v : Word32) : (s.setRes0 v).clkRate = s.clkRate := rfl
@[simp] theorem setRes0_mem (s : State) (v : Word32) : (s.setRes0 v).mem = s.mem := rfl
@[simp] theorem setRes0_cfgWritten (s : State) (v : Word32) : (s.setRes0 v).cfgWritten = s.cfgWritten := rfl
@[simp] theorem setRes0_pollCount (s : State) (v : Word32) : (s.setRes0 v).pollCount = s.pollCount := rfl
@[simp] theorem setRes0_latch (s : State) (v : Word32) : (s.setRes0 v).latch = s.latch := rfl
@[simp] theorem setRes0_selLatch (s : State) (v : Word32) : (s.setRes0 v).selLatch = s.selLatch := rfl
@[simp] theorem setRes0_pos (s : State) (v : Word32) : (s.setRes0 v).pos = s.pos := rfl
@[simp] theorem setRes0_scratch (s : State) (v : Word32) : (s.setRes0 v).scratch = s.scratch := rfl
@[simp] theorem setRes0_inbox (s : State) (v : Word32) : (s.setRes0 v).inbox = s.inbox := rfl
@[simp] theorem setRes0_replies (s : State) (v : Word32) : (s.setRes0 v).replies = s.replies := rfl
@[simp] theorem setRes0_answered (s : State) (v : Word32) : (s.setRes0 v).answered = s.answered := rfl
@[simp] theorem setRes0_drawn (s : State) (v : Word32) : (s.setRes0 v).drawn = s.drawn := rfl
@[simp] theorem setRes0_logRev (s : State) (v : Word32) : (s.setRes0 v).logRev = s.logRev := rfl
@[simp] theorem setRes0_readsRev (s : State) (v : Word32) : (s.setRes0 v).readsRev = s.readsRev := rfl

@[simp] theorem setRes1_config (s : State) (v : Word32) : (s.setRes1 v).config = s.config := rfl
@[simp] theorem setRes1_cfgReg (s : State) (v : Word32) : (s.setRes1 v).cfgReg = s.cfgReg := rfl
@[simp] theorem setRes1_phase (s : State) (v : Word32) : (s.setRes1 v).phase = s.phase := rfl
@[simp] theorem setRes1_fcode (s : State) (v : Word32) : (s.setRes1 v).fcode = s.fcode := rfl
@[simp] theorem setRes1_rvalid (s : State) (v : Word32) : (s.setRes1 v).rvalid = true := rfl
@[simp] theorem setRes1_busReady (s : State) (v : Word32) : (s.setRes1 v).busReady = s.busReady := rfl
@[simp] theorem setRes1_idWarn (s : State) (v : Word32) : (s.setRes1 v).idWarn = s.idWarn := rfl
@[simp] theorem setRes1_authValid (s : State) (v : Word32) : (s.setRes1 v).authValid = s.authValid := rfl
@[simp] theorem setRes1_authFail (s : State) (v : Word32) : (s.setRes1 v).authFail = s.authFail := rfl
@[simp] theorem setRes1_authOk (s : State) (v : Word32) : (s.setRes1 v).authOk = s.authOk := rfl
@[simp] theorem setRes1_authBusy (s : State) (v : Word32) : (s.setRes1 v).authBusy = s.authBusy := rfl
@[simp] theorem setRes1_unbalCleared (s : State) (v : Word32) : (s.setRes1 v).unbalCleared = s.unbalCleared := rfl
@[simp] theorem setRes1_lastOp (s : State) (v : Word32) : (s.setRes1 v).lastOp = s.lastOp := rfl
@[simp] theorem setRes1_srcLen (s : State) (v : Word32) : (s.setRes1 v).srcLen = s.srcLen := rfl
@[simp] theorem setRes1_storeLen (s : State) (v : Word32) : (s.setRes1 v).storeLen = s.storeLen := rfl
@[simp] theorem setRes1_res0 (s : State) (v : Word32) : (s.setRes1 v).res0 = s.res0 := rfl
@[simp] theorem setRes1_res1 (s : State) (v : Word32) : (s.setRes1 v).res1 = OutReg.holding v := rfl
@[simp] theorem setRes1_res2 (s : State) (v : Word32) : (s.setRes1 v).res2 = s.res2 := rfl
@[simp] theorem setRes1_res3 (s : State) (v : Word32) : (s.setRes1 v).res3 = s.res3 := rfl
@[simp] theorem setRes1_flags (s : State) (v : Word32) : (s.setRes1 v).flags = s.flags := rfl
@[simp] theorem setRes1_clkRate (s : State) (v : Word32) : (s.setRes1 v).clkRate = s.clkRate := rfl
@[simp] theorem setRes1_mem (s : State) (v : Word32) : (s.setRes1 v).mem = s.mem := rfl
@[simp] theorem setRes1_cfgWritten (s : State) (v : Word32) : (s.setRes1 v).cfgWritten = s.cfgWritten := rfl
@[simp] theorem setRes1_pollCount (s : State) (v : Word32) : (s.setRes1 v).pollCount = s.pollCount := rfl
@[simp] theorem setRes1_latch (s : State) (v : Word32) : (s.setRes1 v).latch = s.latch := rfl
@[simp] theorem setRes1_selLatch (s : State) (v : Word32) : (s.setRes1 v).selLatch = s.selLatch := rfl
@[simp] theorem setRes1_pos (s : State) (v : Word32) : (s.setRes1 v).pos = s.pos := rfl
@[simp] theorem setRes1_scratch (s : State) (v : Word32) : (s.setRes1 v).scratch = s.scratch := rfl
@[simp] theorem setRes1_inbox (s : State) (v : Word32) : (s.setRes1 v).inbox = s.inbox := rfl
@[simp] theorem setRes1_replies (s : State) (v : Word32) : (s.setRes1 v).replies = s.replies := rfl
@[simp] theorem setRes1_answered (s : State) (v : Word32) : (s.setRes1 v).answered = s.answered := rfl
@[simp] theorem setRes1_drawn (s : State) (v : Word32) : (s.setRes1 v).drawn = s.drawn := rfl
@[simp] theorem setRes1_logRev (s : State) (v : Word32) : (s.setRes1 v).logRev = s.logRev := rfl
@[simp] theorem setRes1_readsRev (s : State) (v : Word32) : (s.setRes1 v).readsRev = s.readsRev := rfl

@[simp] theorem setRes2_config (s : State) (v : Word32) : (s.setRes2 v).config = s.config := rfl
@[simp] theorem setRes2_cfgReg (s : State) (v : Word32) : (s.setRes2 v).cfgReg = s.cfgReg := rfl
@[simp] theorem setRes2_phase (s : State) (v : Word32) : (s.setRes2 v).phase = s.phase := rfl
@[simp] theorem setRes2_fcode (s : State) (v : Word32) : (s.setRes2 v).fcode = s.fcode := rfl
@[simp] theorem setRes2_rvalid (s : State) (v : Word32) : (s.setRes2 v).rvalid = true := rfl
@[simp] theorem setRes2_busReady (s : State) (v : Word32) : (s.setRes2 v).busReady = s.busReady := rfl
@[simp] theorem setRes2_idWarn (s : State) (v : Word32) : (s.setRes2 v).idWarn = s.idWarn := rfl
@[simp] theorem setRes2_authValid (s : State) (v : Word32) : (s.setRes2 v).authValid = s.authValid := rfl
@[simp] theorem setRes2_authFail (s : State) (v : Word32) : (s.setRes2 v).authFail = s.authFail := rfl
@[simp] theorem setRes2_authOk (s : State) (v : Word32) : (s.setRes2 v).authOk = s.authOk := rfl
@[simp] theorem setRes2_authBusy (s : State) (v : Word32) : (s.setRes2 v).authBusy = s.authBusy := rfl
@[simp] theorem setRes2_unbalCleared (s : State) (v : Word32) : (s.setRes2 v).unbalCleared = s.unbalCleared := rfl
@[simp] theorem setRes2_lastOp (s : State) (v : Word32) : (s.setRes2 v).lastOp = s.lastOp := rfl
@[simp] theorem setRes2_srcLen (s : State) (v : Word32) : (s.setRes2 v).srcLen = s.srcLen := rfl
@[simp] theorem setRes2_storeLen (s : State) (v : Word32) : (s.setRes2 v).storeLen = s.storeLen := rfl
@[simp] theorem setRes2_res0 (s : State) (v : Word32) : (s.setRes2 v).res0 = s.res0 := rfl
@[simp] theorem setRes2_res1 (s : State) (v : Word32) : (s.setRes2 v).res1 = s.res1 := rfl
@[simp] theorem setRes2_res2 (s : State) (v : Word32) : (s.setRes2 v).res2 = OutReg.holding v := rfl
@[simp] theorem setRes2_res3 (s : State) (v : Word32) : (s.setRes2 v).res3 = s.res3 := rfl
@[simp] theorem setRes2_flags (s : State) (v : Word32) : (s.setRes2 v).flags = s.flags := rfl
@[simp] theorem setRes2_clkRate (s : State) (v : Word32) : (s.setRes2 v).clkRate = s.clkRate := rfl
@[simp] theorem setRes2_mem (s : State) (v : Word32) : (s.setRes2 v).mem = s.mem := rfl
@[simp] theorem setRes2_cfgWritten (s : State) (v : Word32) : (s.setRes2 v).cfgWritten = s.cfgWritten := rfl
@[simp] theorem setRes2_pollCount (s : State) (v : Word32) : (s.setRes2 v).pollCount = s.pollCount := rfl
@[simp] theorem setRes2_latch (s : State) (v : Word32) : (s.setRes2 v).latch = s.latch := rfl
@[simp] theorem setRes2_selLatch (s : State) (v : Word32) : (s.setRes2 v).selLatch = s.selLatch := rfl
@[simp] theorem setRes2_pos (s : State) (v : Word32) : (s.setRes2 v).pos = s.pos := rfl
@[simp] theorem setRes2_scratch (s : State) (v : Word32) : (s.setRes2 v).scratch = s.scratch := rfl
@[simp] theorem setRes2_inbox (s : State) (v : Word32) : (s.setRes2 v).inbox = s.inbox := rfl
@[simp] theorem setRes2_replies (s : State) (v : Word32) : (s.setRes2 v).replies = s.replies := rfl
@[simp] theorem setRes2_answered (s : State) (v : Word32) : (s.setRes2 v).answered = s.answered := rfl
@[simp] theorem setRes2_drawn (s : State) (v : Word32) : (s.setRes2 v).drawn = s.drawn := rfl
@[simp] theorem setRes2_logRev (s : State) (v : Word32) : (s.setRes2 v).logRev = s.logRev := rfl
@[simp] theorem setRes2_readsRev (s : State) (v : Word32) : (s.setRes2 v).readsRev = s.readsRev := rfl

@[simp] theorem setRes3_config (s : State) (v : Word32) : (s.setRes3 v).config = s.config := rfl
@[simp] theorem setRes3_cfgReg (s : State) (v : Word32) : (s.setRes3 v).cfgReg = s.cfgReg := rfl
@[simp] theorem setRes3_phase (s : State) (v : Word32) : (s.setRes3 v).phase = s.phase := rfl
@[simp] theorem setRes3_fcode (s : State) (v : Word32) : (s.setRes3 v).fcode = s.fcode := rfl
@[simp] theorem setRes3_rvalid (s : State) (v : Word32) : (s.setRes3 v).rvalid = true := rfl
@[simp] theorem setRes3_busReady (s : State) (v : Word32) : (s.setRes3 v).busReady = s.busReady := rfl
@[simp] theorem setRes3_idWarn (s : State) (v : Word32) : (s.setRes3 v).idWarn = s.idWarn := rfl
@[simp] theorem setRes3_authValid (s : State) (v : Word32) : (s.setRes3 v).authValid = s.authValid := rfl
@[simp] theorem setRes3_authFail (s : State) (v : Word32) : (s.setRes3 v).authFail = s.authFail := rfl
@[simp] theorem setRes3_authOk (s : State) (v : Word32) : (s.setRes3 v).authOk = s.authOk := rfl
@[simp] theorem setRes3_authBusy (s : State) (v : Word32) : (s.setRes3 v).authBusy = s.authBusy := rfl
@[simp] theorem setRes3_unbalCleared (s : State) (v : Word32) : (s.setRes3 v).unbalCleared = s.unbalCleared := rfl
@[simp] theorem setRes3_lastOp (s : State) (v : Word32) : (s.setRes3 v).lastOp = s.lastOp := rfl
@[simp] theorem setRes3_srcLen (s : State) (v : Word32) : (s.setRes3 v).srcLen = s.srcLen := rfl
@[simp] theorem setRes3_storeLen (s : State) (v : Word32) : (s.setRes3 v).storeLen = s.storeLen := rfl
@[simp] theorem setRes3_res0 (s : State) (v : Word32) : (s.setRes3 v).res0 = s.res0 := rfl
@[simp] theorem setRes3_res1 (s : State) (v : Word32) : (s.setRes3 v).res1 = s.res1 := rfl
@[simp] theorem setRes3_res2 (s : State) (v : Word32) : (s.setRes3 v).res2 = s.res2 := rfl
@[simp] theorem setRes3_res3 (s : State) (v : Word32) : (s.setRes3 v).res3 = OutReg.holding v := rfl
@[simp] theorem setRes3_flags (s : State) (v : Word32) : (s.setRes3 v).flags = s.flags := rfl
@[simp] theorem setRes3_clkRate (s : State) (v : Word32) : (s.setRes3 v).clkRate = s.clkRate := rfl
@[simp] theorem setRes3_mem (s : State) (v : Word32) : (s.setRes3 v).mem = s.mem := rfl
@[simp] theorem setRes3_cfgWritten (s : State) (v : Word32) : (s.setRes3 v).cfgWritten = s.cfgWritten := rfl
@[simp] theorem setRes3_pollCount (s : State) (v : Word32) : (s.setRes3 v).pollCount = s.pollCount := rfl
@[simp] theorem setRes3_latch (s : State) (v : Word32) : (s.setRes3 v).latch = s.latch := rfl
@[simp] theorem setRes3_selLatch (s : State) (v : Word32) : (s.setRes3 v).selLatch = s.selLatch := rfl
@[simp] theorem setRes3_pos (s : State) (v : Word32) : (s.setRes3 v).pos = s.pos := rfl
@[simp] theorem setRes3_scratch (s : State) (v : Word32) : (s.setRes3 v).scratch = s.scratch := rfl
@[simp] theorem setRes3_inbox (s : State) (v : Word32) : (s.setRes3 v).inbox = s.inbox := rfl
@[simp] theorem setRes3_replies (s : State) (v : Word32) : (s.setRes3 v).replies = s.replies := rfl
@[simp] theorem setRes3_answered (s : State) (v : Word32) : (s.setRes3 v).answered = s.answered := rfl
@[simp] theorem setRes3_drawn (s : State) (v : Word32) : (s.setRes3 v).drawn = s.drawn := rfl
@[simp] theorem setRes3_logRev (s : State) (v : Word32) : (s.setRes3 v).logRev = s.logRev := rfl
@[simp] theorem setRes3_readsRev (s : State) (v : Word32) : (s.setRes3 v).readsRev = s.readsRev := rfl

@[simp] theorem setFlags_config (s : State) (v : Word32) : (s.setFlags v).config = s.config := rfl
@[simp] theorem setFlags_cfgReg (s : State) (v : Word32) : (s.setFlags v).cfgReg = s.cfgReg := rfl
@[simp] theorem setFlags_phase (s : State) (v : Word32) : (s.setFlags v).phase = s.phase := rfl
@[simp] theorem setFlags_fcode (s : State) (v : Word32) : (s.setFlags v).fcode = s.fcode := rfl
@[simp] theorem setFlags_rvalid (s : State) (v : Word32) : (s.setFlags v).rvalid = true := rfl
@[simp] theorem setFlags_busReady (s : State) (v : Word32) : (s.setFlags v).busReady = s.busReady := rfl
@[simp] theorem setFlags_idWarn (s : State) (v : Word32) : (s.setFlags v).idWarn = s.idWarn := rfl
@[simp] theorem setFlags_authValid (s : State) (v : Word32) : (s.setFlags v).authValid = s.authValid := rfl
@[simp] theorem setFlags_authFail (s : State) (v : Word32) : (s.setFlags v).authFail = s.authFail := rfl
@[simp] theorem setFlags_authOk (s : State) (v : Word32) : (s.setFlags v).authOk = s.authOk := rfl
@[simp] theorem setFlags_authBusy (s : State) (v : Word32) : (s.setFlags v).authBusy = s.authBusy := rfl
@[simp] theorem setFlags_unbalCleared (s : State) (v : Word32) : (s.setFlags v).unbalCleared = s.unbalCleared := rfl
@[simp] theorem setFlags_lastOp (s : State) (v : Word32) : (s.setFlags v).lastOp = s.lastOp := rfl
@[simp] theorem setFlags_srcLen (s : State) (v : Word32) : (s.setFlags v).srcLen = s.srcLen := rfl
@[simp] theorem setFlags_storeLen (s : State) (v : Word32) : (s.setFlags v).storeLen = s.storeLen := rfl
@[simp] theorem setFlags_res0 (s : State) (v : Word32) : (s.setFlags v).res0 = s.res0 := rfl
@[simp] theorem setFlags_res1 (s : State) (v : Word32) : (s.setFlags v).res1 = s.res1 := rfl
@[simp] theorem setFlags_res2 (s : State) (v : Word32) : (s.setFlags v).res2 = s.res2 := rfl
@[simp] theorem setFlags_res3 (s : State) (v : Word32) : (s.setFlags v).res3 = s.res3 := rfl
@[simp] theorem setFlags_flags (s : State) (v : Word32) : (s.setFlags v).flags = OutReg.holding v := rfl
@[simp] theorem setFlags_clkRate (s : State) (v : Word32) : (s.setFlags v).clkRate = s.clkRate := rfl
@[simp] theorem setFlags_mem (s : State) (v : Word32) : (s.setFlags v).mem = s.mem := rfl
@[simp] theorem setFlags_cfgWritten (s : State) (v : Word32) : (s.setFlags v).cfgWritten = s.cfgWritten := rfl
@[simp] theorem setFlags_pollCount (s : State) (v : Word32) : (s.setFlags v).pollCount = s.pollCount := rfl
@[simp] theorem setFlags_latch (s : State) (v : Word32) : (s.setFlags v).latch = s.latch := rfl
@[simp] theorem setFlags_selLatch (s : State) (v : Word32) : (s.setFlags v).selLatch = s.selLatch := rfl
@[simp] theorem setFlags_pos (s : State) (v : Word32) : (s.setFlags v).pos = s.pos := rfl
@[simp] theorem setFlags_scratch (s : State) (v : Word32) : (s.setFlags v).scratch = s.scratch := rfl
@[simp] theorem setFlags_inbox (s : State) (v : Word32) : (s.setFlags v).inbox = s.inbox := rfl
@[simp] theorem setFlags_replies (s : State) (v : Word32) : (s.setFlags v).replies = s.replies := rfl
@[simp] theorem setFlags_answered (s : State) (v : Word32) : (s.setFlags v).answered = s.answered := rfl
@[simp] theorem setFlags_drawn (s : State) (v : Word32) : (s.setFlags v).drawn = s.drawn := rfl
@[simp] theorem setFlags_logRev (s : State) (v : Word32) : (s.setFlags v).logRev = s.logRev := rfl
@[simp] theorem setFlags_readsRev (s : State) (v : Word32) : (s.setFlags v).readsRev = s.readsRev := rfl

@[simp] theorem setClkRate_config (s : State) (v : Word32) : (s.setClkRate v).config = s.config := rfl
@[simp] theorem setClkRate_cfgReg (s : State) (v : Word32) : (s.setClkRate v).cfgReg = s.cfgReg := rfl
@[simp] theorem setClkRate_phase (s : State) (v : Word32) : (s.setClkRate v).phase = s.phase := rfl
@[simp] theorem setClkRate_fcode (s : State) (v : Word32) : (s.setClkRate v).fcode = s.fcode := rfl
@[simp] theorem setClkRate_rvalid (s : State) (v : Word32) : (s.setClkRate v).rvalid = true := rfl
@[simp] theorem setClkRate_busReady (s : State) (v : Word32) : (s.setClkRate v).busReady = s.busReady := rfl
@[simp] theorem setClkRate_idWarn (s : State) (v : Word32) : (s.setClkRate v).idWarn = s.idWarn := rfl
@[simp] theorem setClkRate_authValid (s : State) (v : Word32) : (s.setClkRate v).authValid = s.authValid := rfl
@[simp] theorem setClkRate_authFail (s : State) (v : Word32) : (s.setClkRate v).authFail = s.authFail := rfl
@[simp] theorem setClkRate_authOk (s : State) (v : Word32) : (s.setClkRate v).authOk = s.authOk := rfl
@[simp] theorem setClkRate_authBusy (s : State) (v : Word32) : (s.setClkRate v).authBusy = s.authBusy := rfl
@[simp] theorem setClkRate_unbalCleared (s : State) (v : Word32) : (s.setClkRate v).unbalCleared = s.unbalCleared := rfl
@[simp] theorem setClkRate_lastOp (s : State) (v : Word32) : (s.setClkRate v).lastOp = s.lastOp := rfl
@[simp] theorem setClkRate_srcLen (s : State) (v : Word32) : (s.setClkRate v).srcLen = s.srcLen := rfl
@[simp] theorem setClkRate_storeLen (s : State) (v : Word32) : (s.setClkRate v).storeLen = s.storeLen := rfl
@[simp] theorem setClkRate_res0 (s : State) (v : Word32) : (s.setClkRate v).res0 = s.res0 := rfl
@[simp] theorem setClkRate_res1 (s : State) (v : Word32) : (s.setClkRate v).res1 = s.res1 := rfl
@[simp] theorem setClkRate_res2 (s : State) (v : Word32) : (s.setClkRate v).res2 = s.res2 := rfl
@[simp] theorem setClkRate_res3 (s : State) (v : Word32) : (s.setClkRate v).res3 = s.res3 := rfl
@[simp] theorem setClkRate_flags (s : State) (v : Word32) : (s.setClkRate v).flags = s.flags := rfl
@[simp] theorem setClkRate_clkRate (s : State) (v : Word32) : (s.setClkRate v).clkRate = OutReg.holding v := rfl
@[simp] theorem setClkRate_mem (s : State) (v : Word32) : (s.setClkRate v).mem = s.mem := rfl
@[simp] theorem setClkRate_cfgWritten (s : State) (v : Word32) : (s.setClkRate v).cfgWritten = s.cfgWritten := rfl
@[simp] theorem setClkRate_pollCount (s : State) (v : Word32) : (s.setClkRate v).pollCount = s.pollCount := rfl
@[simp] theorem setClkRate_latch (s : State) (v : Word32) : (s.setClkRate v).latch = s.latch := rfl
@[simp] theorem setClkRate_selLatch (s : State) (v : Word32) : (s.setClkRate v).selLatch = s.selLatch := rfl
@[simp] theorem setClkRate_pos (s : State) (v : Word32) : (s.setClkRate v).pos = s.pos := rfl
@[simp] theorem setClkRate_scratch (s : State) (v : Word32) : (s.setClkRate v).scratch = s.scratch := rfl
@[simp] theorem setClkRate_inbox (s : State) (v : Word32) : (s.setClkRate v).inbox = s.inbox := rfl
@[simp] theorem setClkRate_replies (s : State) (v : Word32) : (s.setClkRate v).replies = s.replies := rfl
@[simp] theorem setClkRate_answered (s : State) (v : Word32) : (s.setClkRate v).answered = s.answered := rfl
@[simp] theorem setClkRate_drawn (s : State) (v : Word32) : (s.setClkRate v).drawn = s.drawn := rfl
@[simp] theorem setClkRate_logRev (s : State) (v : Word32) : (s.setClkRate v).logRev = s.logRev := rfl
@[simp] theorem setClkRate_readsRev (s : State) (v : Word32) : (s.setClkRate v).readsRev = s.readsRev := rfl

@[simp] theorem saveOdd_config (b : Byte) (s : State) : (saveOdd b s).config = s.config := rfl
@[simp] theorem saveOdd_cfgReg (b : Byte) (s : State) : (saveOdd b s).cfgReg = s.cfgReg := rfl
@[simp] theorem saveOdd_phase (b : Byte) (s : State) : (saveOdd b s).phase = s.phase := rfl
@[simp] theorem saveOdd_fcode (b : Byte) (s : State) : (saveOdd b s).fcode = s.fcode := rfl
@[simp] theorem saveOdd_rvalid (b : Byte) (s : State) : (saveOdd b s).rvalid = s.rvalid := rfl
@[simp] theorem saveOdd_busReady (b : Byte) (s : State) : (saveOdd b s).busReady = s.busReady := rfl
@[simp] theorem saveOdd_idWarn (b : Byte) (s : State) : (saveOdd b s).idWarn = s.idWarn := rfl
@[simp] theorem saveOdd_authValid (b : Byte) (s : State) : (saveOdd b s).authValid = s.authValid := rfl
@[simp] theorem saveOdd_authFail (b : Byte) (s : State) : (saveOdd b s).authFail = s.authFail := rfl
@[simp] theorem saveOdd_authOk (b : Byte) (s : State) : (saveOdd b s).authOk = s.authOk := rfl
@[simp] theorem saveOdd_authBusy (b : Byte) (s : State) : (saveOdd b s).authBusy = s.authBusy := rfl
@[simp] theorem saveOdd_unbalCleared (b : Byte) (s : State) : (saveOdd b s).unbalCleared = s.unbalCleared := rfl
@[simp] theorem saveOdd_lastOp (b : Byte) (s : State) : (saveOdd b s).lastOp = s.lastOp := rfl
@[simp] theorem saveOdd_srcLen (b : Byte) (s : State) : (saveOdd b s).srcLen = s.srcLen := rfl
@[simp] theorem saveOdd_storeLen (b : Byte) (s : State) : (saveOdd b s).storeLen = s.storeLen := rfl
@[simp] theorem saveOdd_res0 (b : Byte) (s : State) : (saveOdd b s).res0 = s.res0 := rfl
@[simp] theorem saveOdd_res1 (b : Byte) (s : State) : (saveOdd b s).res1 = s.res1 := rfl
@[simp] theorem saveOdd_res2 (b : Byte) (s : State) : (saveOdd b s).res2 = s.res2 := rfl
@[simp] theorem saveOdd_res3 (b : Byte) (s : State) : (saveOdd b s).res3 = s.res3 := rfl
@[simp] theorem saveOdd_flags (b : Byte) (s : State) : (saveOdd b s).flags = s.flags := rfl
@[simp] theorem saveOdd_clkRate (b : Byte) (s : State) : (saveOdd b s).clkRate = s.clkRate := rfl
@[simp] theorem saveOdd_mem (b : Byte) (s : State) : (saveOdd b s).mem = s.mem := rfl
@[simp] theorem saveOdd_cfgWritten (b : Byte) (s : State) : (saveOdd b s).cfgWritten = s.cfgWritten := rfl
@[simp] theorem saveOdd_pollCount (b : Byte) (s : State) : (saveOdd b s).pollCount = s.pollCount := rfl
@[simp] theorem saveOdd_latch (b : Byte) (s : State) : (saveOdd b s).latch = s.latch := rfl
@[simp] theorem saveOdd_selLatch (b : Byte) (s : State) : (saveOdd b s).selLatch = s.selLatch := rfl
@[simp] theorem saveOdd_pos (b : Byte) (s : State) : (saveOdd b s).pos = s.pos := rfl
@[simp] theorem saveOdd_scratch (b : Byte) (s : State) : (saveOdd b s).scratch = { s.scratch with odd := b } := rfl
@[simp] theorem saveOdd_inbox (b : Byte) (s : State) : (saveOdd b s).inbox = s.inbox := rfl
@[simp] theorem saveOdd_replies (b : Byte) (s : State) : (saveOdd b s).replies = s.replies := rfl
@[simp] theorem saveOdd_answered (b : Byte) (s : State) : (saveOdd b s).answered = s.answered := rfl
@[simp] theorem saveOdd_drawn (b : Byte) (s : State) : (saveOdd b s).drawn = s.drawn := rfl
@[simp] theorem saveOdd_logRev (b : Byte) (s : State) : (saveOdd b s).logRev = s.logRev := rfl
@[simp] theorem saveOdd_readsRev (b : Byte) (s : State) : (saveOdd b s).readsRev = s.readsRev := rfl

@[simp] theorem saveEven_config (b : Byte) (s : State) : (saveEven b s).config = s.config := rfl
@[simp] theorem saveEven_cfgReg (b : Byte) (s : State) : (saveEven b s).cfgReg = s.cfgReg := rfl
@[simp] theorem saveEven_phase (b : Byte) (s : State) : (saveEven b s).phase = s.phase := rfl
@[simp] theorem saveEven_fcode (b : Byte) (s : State) : (saveEven b s).fcode = s.fcode := rfl
@[simp] theorem saveEven_rvalid (b : Byte) (s : State) : (saveEven b s).rvalid = s.rvalid := rfl
@[simp] theorem saveEven_busReady (b : Byte) (s : State) : (saveEven b s).busReady = s.busReady := rfl
@[simp] theorem saveEven_idWarn (b : Byte) (s : State) : (saveEven b s).idWarn = s.idWarn := rfl
@[simp] theorem saveEven_authValid (b : Byte) (s : State) : (saveEven b s).authValid = s.authValid := rfl
@[simp] theorem saveEven_authFail (b : Byte) (s : State) : (saveEven b s).authFail = s.authFail := rfl
@[simp] theorem saveEven_authOk (b : Byte) (s : State) : (saveEven b s).authOk = s.authOk := rfl
@[simp] theorem saveEven_authBusy (b : Byte) (s : State) : (saveEven b s).authBusy = s.authBusy := rfl
@[simp] theorem saveEven_unbalCleared (b : Byte) (s : State) : (saveEven b s).unbalCleared = s.unbalCleared := rfl
@[simp] theorem saveEven_lastOp (b : Byte) (s : State) : (saveEven b s).lastOp = s.lastOp := rfl
@[simp] theorem saveEven_srcLen (b : Byte) (s : State) : (saveEven b s).srcLen = s.srcLen := rfl
@[simp] theorem saveEven_storeLen (b : Byte) (s : State) : (saveEven b s).storeLen = s.storeLen := rfl
@[simp] theorem saveEven_res0 (b : Byte) (s : State) : (saveEven b s).res0 = s.res0 := rfl
@[simp] theorem saveEven_res1 (b : Byte) (s : State) : (saveEven b s).res1 = s.res1 := rfl
@[simp] theorem saveEven_res2 (b : Byte) (s : State) : (saveEven b s).res2 = s.res2 := rfl
@[simp] theorem saveEven_res3 (b : Byte) (s : State) : (saveEven b s).res3 = s.res3 := rfl
@[simp] theorem saveEven_flags (b : Byte) (s : State) : (saveEven b s).flags = s.flags := rfl
@[simp] theorem saveEven_clkRate (b : Byte) (s : State) : (saveEven b s).clkRate = s.clkRate := rfl
@[simp] theorem saveEven_mem (b : Byte) (s : State) : (saveEven b s).mem = s.mem := rfl
@[simp] theorem saveEven_cfgWritten (b : Byte) (s : State) : (saveEven b s).cfgWritten = s.cfgWritten := rfl
@[simp] theorem saveEven_pollCount (b : Byte) (s : State) : (saveEven b s).pollCount = s.pollCount := rfl
@[simp] theorem saveEven_latch (b : Byte) (s : State) : (saveEven b s).latch = s.latch := rfl
@[simp] theorem saveEven_selLatch (b : Byte) (s : State) : (saveEven b s).selLatch = s.selLatch := rfl
@[simp] theorem saveEven_pos (b : Byte) (s : State) : (saveEven b s).pos = s.pos := rfl
@[simp] theorem saveEven_scratch (b : Byte) (s : State) : (saveEven b s).scratch = { s.scratch with even := b } := rfl
@[simp] theorem saveEven_inbox (b : Byte) (s : State) : (saveEven b s).inbox = s.inbox := rfl
@[simp] theorem saveEven_replies (b : Byte) (s : State) : (saveEven b s).replies = s.replies := rfl
@[simp] theorem saveEven_answered (b : Byte) (s : State) : (saveEven b s).answered = s.answered := rfl
@[simp] theorem saveEven_drawn (b : Byte) (s : State) : (saveEven b s).drawn = s.drawn := rfl
@[simp] theorem saveEven_logRev (b : Byte) (s : State) : (saveEven b s).logRev = s.logRev := rfl
@[simp] theorem saveEven_readsRev (b : Byte) (s : State) : (saveEven b s).readsRev = s.readsRev := rfl

@[simp] theorem saveFirst_config (b : Byte) (s : State) : (saveFirst b s).config = s.config := rfl
@[simp] theorem saveFirst_cfgReg (b : Byte) (s : State) : (saveFirst b s).cfgReg = s.cfgReg := rfl
@[simp] theorem saveFirst_phase (b : Byte) (s : State) : (saveFirst b s).phase = s.phase := rfl
@[simp] theorem saveFirst_fcode (b : Byte) (s : State) : (saveFirst b s).fcode = s.fcode := rfl
@[simp] theorem saveFirst_rvalid (b : Byte) (s : State) : (saveFirst b s).rvalid = s.rvalid := rfl
@[simp] theorem saveFirst_busReady (b : Byte) (s : State) : (saveFirst b s).busReady = s.busReady := rfl
@[simp] theorem saveFirst_idWarn (b : Byte) (s : State) : (saveFirst b s).idWarn = s.idWarn := rfl
@[simp] theorem saveFirst_authValid (b : Byte) (s : State) : (saveFirst b s).authValid = s.authValid := rfl
@[simp] theorem saveFirst_authFail (b : Byte) (s : State) : (saveFirst b s).authFail = s.authFail := rfl
@[simp] theorem saveFirst_authOk (b : Byte) (s : State) : (saveFirst b s).authOk = s.authOk := rfl
@[simp] theorem saveFirst_authBusy (b : Byte) (s : State) : (saveFirst b s).authBusy = s.authBusy := rfl
@[simp] theorem saveFirst_unbalCleared (b : Byte) (s : State) : (saveFirst b s).unbalCleared = s.unbalCleared := rfl
@[simp] theorem saveFirst_lastOp (b : Byte) (s : State) : (saveFirst b s).lastOp = s.lastOp := rfl
@[simp] theorem saveFirst_srcLen (b : Byte) (s : State) : (saveFirst b s).srcLen = s.srcLen := rfl
@[simp] theorem saveFirst_storeLen (b : Byte) (s : State) : (saveFirst b s).storeLen = s.storeLen := rfl
@[simp] theorem saveFirst_res0 (b : Byte) (s : State) : (saveFirst b s).res0 = s.res0 := rfl
@[simp] theorem saveFirst_res1 (b : Byte) (s : State) : (saveFirst b s).res1 = s.res1 := rfl
@[simp] theorem saveFirst_res2 (b : Byte) (s : State) : (saveFirst b s).res2 = s.res2 := rfl
@[simp] theorem saveFirst_res3 (b : Byte) (s : State) : (saveFirst b s).res3 = s.res3 := rfl
@[simp] theorem saveFirst_flags (b : Byte) (s : State) : (saveFirst b s).flags = s.flags := rfl
@[simp] theorem saveFirst_clkRate (b : Byte) (s : State) : (saveFirst b s).clkRate = s.clkRate := rfl
@[simp] theorem saveFirst_mem (b : Byte) (s : State) : (saveFirst b s).mem = s.mem := rfl
@[simp] theorem saveFirst_cfgWritten (b : Byte) (s : State) : (saveFirst b s).cfgWritten = s.cfgWritten := rfl
@[simp] theorem saveFirst_pollCount (b : Byte) (s : State) : (saveFirst b s).pollCount = s.pollCount := rfl
@[simp] theorem saveFirst_latch (b : Byte) (s : State) : (saveFirst b s).latch = s.latch := rfl
@[simp] theorem saveFirst_selLatch (b : Byte) (s : State) : (saveFirst b s).selLatch = s.selLatch := rfl
@[simp] theorem saveFirst_pos (b : Byte) (s : State) : (saveFirst b s).pos = s.pos := rfl
@[simp] theorem saveFirst_scratch (b : Byte) (s : State) : (saveFirst b s).scratch = { s.scratch with first := b } := rfl
@[simp] theorem saveFirst_inbox (b : Byte) (s : State) : (saveFirst b s).inbox = s.inbox := rfl
@[simp] theorem saveFirst_replies (b : Byte) (s : State) : (saveFirst b s).replies = s.replies := rfl
@[simp] theorem saveFirst_answered (b : Byte) (s : State) : (saveFirst b s).answered = s.answered := rfl
@[simp] theorem saveFirst_drawn (b : Byte) (s : State) : (saveFirst b s).drawn = s.drawn := rfl
@[simp] theorem saveFirst_logRev (b : Byte) (s : State) : (saveFirst b s).logRev = s.logRev := rfl
@[simp] theorem saveFirst_readsRev (b : Byte) (s : State) : (saveFirst b s).readsRev = s.readsRev := rfl

@[simp] theorem saveSecond_config (b : Byte) (s : State) : (saveSecond b s).config = s.config := rfl
@[simp] theorem saveSecond_cfgReg (b : Byte) (s : State) : (saveSecond b s).cfgReg = s.cfgReg := rfl
@[simp] theorem saveSecond_phase (b : Byte) (s : State) : (saveSecond b s).phase = s.phase := rfl
@[simp] theorem saveSecond_fcode (b : Byte) (s : State) : (saveSecond b s).fcode = s.fcode := rfl
@[simp] theorem saveSecond_rvalid (b : Byte) (s : State) : (saveSecond b s).rvalid = s.rvalid := rfl
@[simp] theorem saveSecond_busReady (b : Byte) (s : State) : (saveSecond b s).busReady = s.busReady := rfl
@[simp] theorem saveSecond_idWarn (b : Byte) (s : State) : (saveSecond b s).idWarn = s.idWarn := rfl
@[simp] theorem saveSecond_authValid (b : Byte) (s : State) : (saveSecond b s).authValid = s.authValid := rfl
@[simp] theorem saveSecond_authFail (b : Byte) (s : State) : (saveSecond b s).authFail = s.authFail := rfl
@[simp] theorem saveSecond_authOk (b : Byte) (s : State) : (saveSecond b s).authOk = s.authOk := rfl
@[simp] theorem saveSecond_authBusy (b : Byte) (s : State) : (saveSecond b s).authBusy = s.authBusy := rfl
@[simp] theorem saveSecond_unbalCleared (b : Byte) (s : State) : (saveSecond b s).unbalCleared = s.unbalCleared := rfl
@[simp] theorem saveSecond_lastOp (b : Byte) (s : State) : (saveSecond b s).lastOp = s.lastOp := rfl
@[simp] theorem saveSecond_srcLen (b : Byte) (s : State) : (saveSecond b s).srcLen = s.srcLen := rfl
@[simp] theorem saveSecond_storeLen (b : Byte) (s : State) : (saveSecond b s).storeLen = s.storeLen := rfl
@[simp] theorem saveSecond_res0 (b : Byte) (s : State) : (saveSecond b s).res0 = s.res0 := rfl
@[simp] theorem saveSecond_res1 (b : Byte) (s : State) : (saveSecond b s).res1 = s.res1 := rfl
@[simp] theorem saveSecond_res2 (b : Byte) (s : State) : (saveSecond b s).res2 = s.res2 := rfl
@[simp] theorem saveSecond_res3 (b : Byte) (s : State) : (saveSecond b s).res3 = s.res3 := rfl
@[simp] theorem saveSecond_flags (b : Byte) (s : State) : (saveSecond b s).flags = s.flags := rfl
@[simp] theorem saveSecond_clkRate (b : Byte) (s : State) : (saveSecond b s).clkRate = s.clkRate := rfl
@[simp] theorem saveSecond_mem (b : Byte) (s : State) : (saveSecond b s).mem = s.mem := rfl
@[simp] theorem saveSecond_cfgWritten (b : Byte) (s : State) : (saveSecond b s).cfgWritten = s.cfgWritten := rfl
@[simp] theorem saveSecond_pollCount (b : Byte) (s : State) : (saveSecond b s).pollCount = s.pollCount := rfl
@[simp] theorem saveSecond_latch (b : Byte) (s : State) : (saveSecond b s).latch = s.latch := rfl
@[simp] theorem saveSecond_selLatch (b : Byte) (s : State) : (saveSecond b s).selLatch = s.selLatch := rfl
@[simp] theorem saveSecond_pos (b : Byte) (s : State) : (saveSecond b s).pos = s.pos := rfl
@[simp] theorem saveSecond_scratch (b : Byte) (s : State) : (saveSecond b s).scratch = { s.scratch with second := b } := rfl
@[simp] theorem saveSecond_inbox (b : Byte) (s : State) : (saveSecond b s).inbox = s.inbox := rfl
@[simp] theorem saveSecond_replies (b : Byte) (s : State) : (saveSecond b s).replies = s.replies := rfl
@[simp] theorem saveSecond_answered (b : Byte) (s : State) : (saveSecond b s).answered = s.answered := rfl
@[simp] theorem saveSecond_drawn (b : Byte) (s : State) : (saveSecond b s).drawn = s.drawn := rfl
@[simp] theorem saveSecond_logRev (b : Byte) (s : State) : (saveSecond b s).logRev = s.logRev := rfl
@[simp] theorem saveSecond_readsRev (b : Byte) (s : State) : (saveSecond b s).readsRev = s.readsRev := rfl

@[simp] theorem takeFlags_config (reg v : Byte) (s : State) : (takeFlags reg v s).config = s.config := rfl
@[simp] theorem takeFlags_cfgReg (reg v : Byte) (s : State) : (takeFlags reg v s).cfgReg = s.cfgReg := rfl
@[simp] theorem takeFlags_phase (reg v : Byte) (s : State) : (takeFlags reg v s).phase = s.phase := rfl
@[simp] theorem takeFlags_fcode (reg v : Byte) (s : State) : (takeFlags reg v s).fcode = s.fcode := rfl
@[simp] theorem takeFlags_rvalid (reg v : Byte) (s : State) : (takeFlags reg v s).rvalid = s.rvalid := rfl
@[simp] theorem takeFlags_busReady (reg v : Byte) (s : State) : (takeFlags reg v s).busReady = s.busReady := rfl
@[simp] theorem takeFlags_idWarn (reg v : Byte) (s : State) : (takeFlags reg v s).idWarn = s.idWarn := rfl
@[simp] theorem takeFlags_authValid (reg v : Byte) (s : State) : (takeFlags reg v s).authValid = s.authValid := rfl
@[simp] theorem takeFlags_authFail (reg v : Byte) (s : State) : (takeFlags reg v s).authFail = s.authFail := rfl
@[simp] theorem takeFlags_authOk (reg v : Byte) (s : State) : (takeFlags reg v s).authOk = s.authOk := rfl
@[simp] theorem takeFlags_authBusy (reg v : Byte) (s : State) : (takeFlags reg v s).authBusy = s.authBusy := rfl
@[simp] theorem takeFlags_unbalCleared (reg v : Byte) (s : State) : (takeFlags reg v s).unbalCleared = s.unbalCleared := rfl
@[simp] theorem takeFlags_lastOp (reg v : Byte) (s : State) : (takeFlags reg v s).lastOp = s.lastOp := rfl
@[simp] theorem takeFlags_srcLen (reg v : Byte) (s : State) : (takeFlags reg v s).srcLen = s.srcLen := rfl
@[simp] theorem takeFlags_storeLen (reg v : Byte) (s : State) : (takeFlags reg v s).storeLen = s.storeLen := rfl
@[simp] theorem takeFlags_res0 (reg v : Byte) (s : State) : (takeFlags reg v s).res0 = s.res0 := rfl
@[simp] theorem takeFlags_res1 (reg v : Byte) (s : State) : (takeFlags reg v s).res1 = s.res1 := rfl
@[simp] theorem takeFlags_res2 (reg v : Byte) (s : State) : (takeFlags reg v s).res2 = s.res2 := rfl
@[simp] theorem takeFlags_res3 (reg v : Byte) (s : State) : (takeFlags reg v s).res3 = s.res3 := rfl
@[simp] theorem takeFlags_flags (reg v : Byte) (s : State) : (takeFlags reg v s).flags = s.flags := rfl
@[simp] theorem takeFlags_clkRate (reg v : Byte) (s : State) : (takeFlags reg v s).clkRate = s.clkRate := rfl
@[simp] theorem takeFlags_mem (reg v : Byte) (s : State) : (takeFlags reg v s).mem = s.mem := rfl
@[simp] theorem takeFlags_cfgWritten (reg v : Byte) (s : State) : (takeFlags reg v s).cfgWritten = s.cfgWritten := rfl
@[simp] theorem takeFlags_pollCount (reg v : Byte) (s : State) : (takeFlags reg v s).pollCount = s.pollCount := rfl
@[simp] theorem takeFlags_latch (reg v : Byte) (s : State) : (takeFlags reg v s).latch = s.latch := rfl
@[simp] theorem takeFlags_selLatch (reg v : Byte) (s : State) : (takeFlags reg v s).selLatch = s.selLatch := rfl
@[simp] theorem takeFlags_pos (reg v : Byte) (s : State) : (takeFlags reg v s).pos = s.pos := rfl
@[simp] theorem takeFlags_scratch (reg v : Byte) (s : State) : (takeFlags reg v s).scratch = { s.scratch with flagBits := latchFlags reg v 0 s.config.flagTable s.scratch.flagBits } := rfl
@[simp] theorem takeFlags_inbox (reg v : Byte) (s : State) : (takeFlags reg v s).inbox = s.inbox := rfl
@[simp] theorem takeFlags_replies (reg v : Byte) (s : State) : (takeFlags reg v s).replies = s.replies := rfl
@[simp] theorem takeFlags_answered (reg v : Byte) (s : State) : (takeFlags reg v s).answered = s.answered := rfl
@[simp] theorem takeFlags_drawn (reg v : Byte) (s : State) : (takeFlags reg v s).drawn = s.drawn := rfl
@[simp] theorem takeFlags_logRev (reg v : Byte) (s : State) : (takeFlags reg v s).logRev = s.logRev := rfl
@[simp] theorem takeFlags_readsRev (reg v : Byte) (s : State) : (takeFlags reg v s).readsRev = s.readsRev := rfl

@[simp] theorem takeStatus_config (b : Byte) (s : State) : (takeStatus b s).config = s.config := rfl
@[simp] theorem takeStatus_cfgReg (b : Byte) (s : State) : (takeStatus b s).cfgReg = s.cfgReg := rfl
@[simp] theorem takeStatus_phase (b : Byte) (s : State) : (takeStatus b s).phase = s.phase := rfl
@[simp] theorem takeStatus_fcode (b : Byte) (s : State) : (takeStatus b s).fcode = s.fcode := rfl
@[simp] theorem takeStatus_rvalid (b : Byte) (s : State) : (takeStatus b s).rvalid = s.rvalid := rfl
@[simp] theorem takeStatus_busReady (b : Byte) (s : State) : (takeStatus b s).busReady = s.busReady := rfl
@[simp] theorem takeStatus_idWarn (b : Byte) (s : State) : (takeStatus b s).idWarn = s.idWarn := rfl
@[simp] theorem takeStatus_authValid (b : Byte) (s : State) : (takeStatus b s).authValid = true := rfl
@[simp] theorem takeStatus_authFail (b : Byte) (s : State) : (takeStatus b s).authFail = b.getLsbD s.config.authFailBit := rfl
@[simp] theorem takeStatus_authOk (b : Byte) (s : State) : (takeStatus b s).authOk = b.getLsbD s.config.authOkBit := rfl
@[simp] theorem takeStatus_authBusy (b : Byte) (s : State) : (takeStatus b s).authBusy = b.getLsbD s.config.authBusyBit := rfl
@[simp] theorem takeStatus_unbalCleared (b : Byte) (s : State) : (takeStatus b s).unbalCleared = s.unbalCleared := rfl
@[simp] theorem takeStatus_lastOp (b : Byte) (s : State) : (takeStatus b s).lastOp = s.lastOp := rfl
@[simp] theorem takeStatus_srcLen (b : Byte) (s : State) : (takeStatus b s).srcLen = s.srcLen := rfl
@[simp] theorem takeStatus_storeLen (b : Byte) (s : State) : (takeStatus b s).storeLen = s.storeLen := rfl
@[simp] theorem takeStatus_res0 (b : Byte) (s : State) : (takeStatus b s).res0 = s.res0 := rfl
@[simp] theorem takeStatus_res1 (b : Byte) (s : State) : (takeStatus b s).res1 = s.res1 := rfl
@[simp] theorem takeStatus_res2 (b : Byte) (s : State) : (takeStatus b s).res2 = s.res2 := rfl
@[simp] theorem takeStatus_res3 (b : Byte) (s : State) : (takeStatus b s).res3 = s.res3 := rfl
@[simp] theorem takeStatus_flags (b : Byte) (s : State) : (takeStatus b s).flags = s.flags := rfl
@[simp] theorem takeStatus_clkRate (b : Byte) (s : State) : (takeStatus b s).clkRate = s.clkRate := rfl
@[simp] theorem takeStatus_mem (b : Byte) (s : State) : (takeStatus b s).mem = s.mem := rfl
@[simp] theorem takeStatus_cfgWritten (b : Byte) (s : State) : (takeStatus b s).cfgWritten = s.cfgWritten := rfl
@[simp] theorem takeStatus_pollCount (b : Byte) (s : State) : (takeStatus b s).pollCount = s.pollCount := rfl
@[simp] theorem takeStatus_latch (b : Byte) (s : State) : (takeStatus b s).latch = s.latch := rfl
@[simp] theorem takeStatus_selLatch (b : Byte) (s : State) : (takeStatus b s).selLatch = s.selLatch := rfl
@[simp] theorem takeStatus_pos (b : Byte) (s : State) : (takeStatus b s).pos = s.pos := rfl
@[simp] theorem takeStatus_scratch (b : Byte) (s : State) : (takeStatus b s).scratch = { s.scratch with status := b } := rfl
@[simp] theorem takeStatus_inbox (b : Byte) (s : State) : (takeStatus b s).inbox = s.inbox := rfl
@[simp] theorem takeStatus_replies (b : Byte) (s : State) : (takeStatus b s).replies = s.replies := rfl
@[simp] theorem takeStatus_answered (b : Byte) (s : State) : (takeStatus b s).answered = s.answered := rfl
@[simp] theorem takeStatus_drawn (b : Byte) (s : State) : (takeStatus b s).drawn = s.drawn := rfl
@[simp] theorem takeStatus_logRev (b : Byte) (s : State) : (takeStatus b s).logRev = s.logRev := rfl
@[simp] theorem takeStatus_readsRev (b : Byte) (s : State) : (takeStatus b s).readsRev = s.readsRev := rfl

@[simp] theorem writeCfg_config (v : Word32) (s : State) : (writeCfg v s).config = s.config := rfl
@[simp] theorem writeCfg_phase (v : Word32) (s : State) : (writeCfg v s).phase = s.phase := rfl
@[simp] theorem writeCfg_fcode (v : Word32) (s : State) : (writeCfg v s).fcode = s.fcode := rfl
@[simp] theorem writeCfg_rvalid (v : Word32) (s : State) : (writeCfg v s).rvalid = s.rvalid := rfl
@[simp] theorem writeCfg_busReady (v : Word32) (s : State) : (writeCfg v s).busReady = s.busReady := rfl
@[simp] theorem writeCfg_idWarn (v : Word32) (s : State) : (writeCfg v s).idWarn = s.idWarn := rfl
@[simp] theorem writeCfg_authValid (v : Word32) (s : State) : (writeCfg v s).authValid = s.authValid := rfl
@[simp] theorem writeCfg_authFail (v : Word32) (s : State) : (writeCfg v s).authFail = s.authFail := rfl
@[simp] theorem writeCfg_authOk (v : Word32) (s : State) : (writeCfg v s).authOk = s.authOk := rfl
@[simp] theorem writeCfg_authBusy (v : Word32) (s : State) : (writeCfg v s).authBusy = s.authBusy := rfl
@[simp] theorem writeCfg_unbalCleared (v : Word32) (s : State) : (writeCfg v s).unbalCleared = s.unbalCleared := rfl
@[simp] theorem writeCfg_lastOp (v : Word32) (s : State) : (writeCfg v s).lastOp = s.lastOp := rfl
@[simp] theorem writeCfg_srcLen (v : Word32) (s : State) : (writeCfg v s).srcLen = s.srcLen := rfl
@[simp] theorem writeCfg_storeLen (v : Word32) (s : State) : (writeCfg v s).storeLen = s.storeLen := rfl
@[simp] theorem writeCfg_res0 (v : Word32) (s : State) : (writeCfg v s).res0 = s.res0 := rfl
@[simp] theorem writeCfg_res1 (v : Word32) (s : State) : (writeCfg v s).res1 = s.res1 := rfl
@[simp] theorem writeCfg_res2 (v : Word32) (s : State) : (writeCfg v s).res2 = s.res2 := rfl
@[simp] theorem writeCfg_res3 (v : Word32) (s : State) : (writeCfg v s).res3 = s.res3 := rfl
@[simp] theorem writeCfg_flags (v : Word32) (s : State) : (writeCfg v s).flags = s.flags := rfl
@[simp] theorem writeCfg_clkRate (v : Word32) (s : State) : (writeCfg v s).clkRate = s.clkRate := rfl
@[simp] theorem writeCfg_mem (v : Word32) (s : State) : (writeCfg v s).mem = s.mem := rfl
@[simp] theorem writeCfg_cfgWritten (v : Word32) (s : State) : (writeCfg v s).cfgWritten = true := rfl
@[simp] theorem writeCfg_pollCount (v : Word32) (s : State) : (writeCfg v s).pollCount = s.pollCount := rfl
@[simp] theorem writeCfg_latch (v : Word32) (s : State) : (writeCfg v s).latch = s.latch := rfl
@[simp] theorem writeCfg_selLatch (v : Word32) (s : State) : (writeCfg v s).selLatch = s.selLatch := rfl
@[simp] theorem writeCfg_pos (v : Word32) (s : State) : (writeCfg v s).pos = s.pos := rfl
@[simp] theorem writeCfg_scratch (v : Word32) (s : State) : (writeCfg v s).scratch = s.scratch := rfl
@[simp] theorem writeCfg_inbox (v : Word32) (s : State) : (writeCfg v s).inbox = s.inbox := rfl
@[simp] theorem writeCfg_replies (v : Word32) (s : State) : (writeCfg v s).replies = s.replies := rfl
@[simp] theorem writeCfg_answered (v : Word32) (s : State) : (writeCfg v s).answered = s.answered := rfl
@[simp] theorem writeCfg_drawn (v : Word32) (s : State) : (writeCfg v s).drawn = s.drawn := rfl
@[simp] theorem writeCfg_logRev (v : Word32) (s : State) : (writeCfg v s).logRev = s.logRev := rfl
@[simp] theorem writeCfg_readsRev (v : Word32) (s : State) : (writeCfg v s).readsRev = s.readsRev := rfl

@[simp] theorem ended_config (s : State) (p : Phase) (c : FaultCode) : (s.ended p c).config = s.config := rfl
@[simp] theorem ended_cfgReg (s : State) (p : Phase) (c : FaultCode) : (s.ended p c).cfgReg = s.cfgReg := rfl
@[simp] theorem ended_phase (s : State) (p : Phase) (c : FaultCode) : (s.ended p c).phase = p := rfl
@[simp] theorem ended_fcode (s : State) (p : Phase) (c : FaultCode) : (s.ended p c).fcode = c := rfl
@[simp] theorem ended_rvalid (s : State) (p : Phase) (c : FaultCode) : (s.ended p c).rvalid = s.rvalid := rfl
@[simp] theorem ended_busReady (s : State) (p : Phase) (c : FaultCode) : (s.ended p c).busReady = s.busReady := rfl
@[simp] theorem ended_idWarn (s : State) (p : Phase) (c : FaultCode) : (s.ended p c).idWarn = s.idWarn := rfl
@[simp] theorem ended_authValid (s : State) (p : Phase) (c : FaultCode) : (s.ended p c).authValid = s.authValid := rfl
@[simp] theorem ended_authFail (s : State) (p : Phase) (c : FaultCode) : (s.ended p c).authFail = s.authFail := rfl
@[simp] theorem ended_authOk (s : State) (p : Phase) (c : FaultCode) : (s.ended p c).authOk = s.authOk := rfl
@[simp] theorem ended_authBusy (s : State) (p : Phase) (c : FaultCode) : (s.ended p c).authBusy = s.authBusy := rfl
@[simp] theorem ended_unbalCleared (s : State) (p : Phase) (c : FaultCode) : (s.ended p c).unbalCleared = s.unbalCleared := rfl
@[simp] theorem ended_lastOp (s : State) (p : Phase) (c : FaultCode) : (s.ended p c).lastOp = s.lastOp := rfl
@[simp] theorem ended_srcLen (s : State) (p : Phase) (c : FaultCode) : (s.ended p c).srcLen = s.srcLen := rfl
@[simp] theorem ended_storeLen (s : State) (p : Phase) (c : FaultCode) : (s.ended p c).storeLen = s.storeLen := rfl
@[simp] theorem ended_res0 (s : State) (p : Phase) (c : FaultCode) : (s.ended p c).res0 = s.res0 := rfl
@[simp] theorem ended_res1 (s : State) (p : Phase) (c : FaultCode) : (s.ended p c).res1 = s.res1 := rfl
@[simp] theorem ended_res2 (s : State) (p : Phase) (c : FaultCode) : (s.ended p c).res2 = s.res2 := rfl
@[simp] theorem ended_res3 (s : State) (p : Phase) (c : FaultCode) : (s.ended p c).res3 = s.res3 := rfl
@[simp] theorem ended_flags (s : State) (p : Phase) (c : FaultCode) : (s.ended p c).flags = s.flags := rfl
@[simp] theorem ended_clkRate (s : State) (p : Phase) (c : FaultCode) : (s.ended p c).clkRate = s.clkRate := rfl
@[simp] theorem ended_mem (s : State) (p : Phase) (c : FaultCode) : (s.ended p c).mem = s.mem := rfl
@[simp] theorem ended_cfgWritten (s : State) (p : Phase) (c : FaultCode) : (s.ended p c).cfgWritten = s.cfgWritten := rfl
@[simp] theorem ended_pollCount (s : State) (p : Phase) (c : FaultCode) : (s.ended p c).pollCount = s.pollCount := rfl
@[simp] theorem ended_latch (s : State) (p : Phase) (c : FaultCode) : (s.ended p c).latch = s.latch := rfl
@[simp] theorem ended_selLatch (s : State) (p : Phase) (c : FaultCode) : (s.ended p c).selLatch = s.selLatch := rfl
@[simp] theorem ended_pos (s : State) (p : Phase) (c : FaultCode) : (s.ended p c).pos = .none := rfl
@[simp] theorem ended_scratch (s : State) (p : Phase) (c : FaultCode) : (s.ended p c).scratch = Scratch.clear := rfl
@[simp] theorem ended_inbox (s : State) (p : Phase) (c : FaultCode) : (s.ended p c).inbox = s.inbox := rfl
@[simp] theorem ended_replies (s : State) (p : Phase) (c : FaultCode) : (s.ended p c).replies = s.replies := rfl
@[simp] theorem ended_answered (s : State) (p : Phase) (c : FaultCode) : (s.ended p c).answered = s.answered := rfl
@[simp] theorem ended_drawn (s : State) (p : Phase) (c : FaultCode) : (s.ended p c).drawn = s.drawn := rfl
@[simp] theorem ended_logRev (s : State) (p : Phase) (c : FaultCode) : (s.ended p c).logRev = s.logRev := rfl
@[simp] theorem ended_readsRev (s : State) (p : Phase) (c : FaultCode) : (s.ended p c).readsRev = s.readsRev := rfl

@[simp] theorem logged_config (s : State) (e : BusEvent) : (s.logged e).config = s.config := takeReply_config s
@[simp] theorem logged_cfgReg (s : State) (e : BusEvent) : (s.logged e).cfgReg = s.cfgReg := takeReply_cfgReg s
@[simp] theorem logged_phase (s : State) (e : BusEvent) : (s.logged e).phase = s.phase := takeReply_phase s
@[simp] theorem logged_fcode (s : State) (e : BusEvent) : (s.logged e).fcode = s.fcode := takeReply_fcode s
@[simp] theorem logged_rvalid (s : State) (e : BusEvent) : (s.logged e).rvalid = s.rvalid := takeReply_rvalid s
@[simp] theorem logged_busReady (s : State) (e : BusEvent) : (s.logged e).busReady = s.busReady := takeReply_busReady s
@[simp] theorem logged_idWarn (s : State) (e : BusEvent) : (s.logged e).idWarn = s.idWarn := takeReply_idWarn s
@[simp] theorem logged_authValid (s : State) (e : BusEvent) : (s.logged e).authValid = s.authValid := takeReply_authValid s
@[simp] theorem logged_authFail (s : State) (e : BusEvent) : (s.logged e).authFail = s.authFail := takeReply_authFail s
@[simp] theorem logged_authOk (s : State) (e : BusEvent) : (s.logged e).authOk = s.authOk := takeReply_authOk s
@[simp] theorem logged_authBusy (s : State) (e : BusEvent) : (s.logged e).authBusy = s.authBusy := takeReply_authBusy s
@[simp] theorem logged_unbalCleared (s : State) (e : BusEvent) : (s.logged e).unbalCleared = s.unbalCleared := takeReply_unbalCleared s
@[simp] theorem logged_lastOp (s : State) (e : BusEvent) : (s.logged e).lastOp = s.lastOp := takeReply_lastOp s
@[simp] theorem logged_srcLen (s : State) (e : BusEvent) : (s.logged e).srcLen = s.srcLen := takeReply_srcLen s
@[simp] theorem logged_storeLen (s : State) (e : BusEvent) : (s.logged e).storeLen = s.storeLen := takeReply_storeLen s
@[simp] theorem logged_res0 (s : State) (e : BusEvent) : (s.logged e).res0 = s.res0 := takeReply_res0 s
@[simp] theorem logged_res1 (s : State) (e : BusEvent) : (s.logged e).res1 = s.res1 := takeReply_res1 s
@[simp] theorem logged_res2 (s : State) (e : BusEvent) : (s.logged e).res2 = s.res2 := takeReply_res2 s
@[simp] theorem logged_res3 (s : State) (e : BusEvent) : (s.logged e).res3 = s.res3 := takeReply_res3 s
@[simp] theorem logged_flags (s : State) (e : BusEvent) : (s.logged e).flags = s.flags := takeReply_flags s
@[simp] theorem logged_clkRate (s : State) (e : BusEvent) : (s.logged e).clkRate = s.clkRate := takeReply_clkRate s
@[simp] theorem logged_mem (s : State) (e : BusEvent) : (s.logged e).mem = s.mem := takeReply_mem s
@[simp] theorem logged_cfgWritten (s : State) (e : BusEvent) : (s.logged e).cfgWritten = s.cfgWritten := takeReply_cfgWritten s
@[simp] theorem logged_pollCount (s : State) (e : BusEvent) : (s.logged e).pollCount = s.pollCount := takeReply_pollCount s
@[simp] theorem logged_latch (s : State) (e : BusEvent) : (s.logged e).latch = s.latch := takeReply_latch s
@[simp] theorem logged_selLatch (s : State) (e : BusEvent) : (s.logged e).selLatch = s.selLatch := takeReply_selLatch s
@[simp] theorem logged_pos (s : State) (e : BusEvent) : (s.logged e).pos = s.pos := takeReply_pos s
@[simp] theorem logged_scratch (s : State) (e : BusEvent) : (s.logged e).scratch = s.scratch := takeReply_scratch s
@[simp] theorem logged_inbox (s : State) (e : BusEvent) : (s.logged e).inbox = s.inbox := takeReply_inbox s
@[simp] theorem logged_replies (s : State) (e : BusEvent) : (s.logged e).replies = s.takeReply.replies := rfl
@[simp] theorem logged_answered (s : State) (e : BusEvent) : (s.logged e).answered = s.takeReply.answered := rfl
@[simp] theorem logged_drawn (s : State) (e : BusEvent) : (s.logged e).drawn = s.drawn := takeReply_drawn s
@[simp] theorem logged_logRev (s : State) (e : BusEvent) : (s.logged e).logRev = e :: s.logRev := rfl
@[simp] theorem logged_readsRev (s : State) (e : BusEvent) : (s.logged e).readsRev = s.readsRev := takeReply_readsRev s

@[simp] theorem afterXfers_config (s : State) (xs : List Xfer) (rest : List Reply) : (s.afterXfers xs rest).config = s.config := rfl
@[simp] theorem afterXfers_cfgReg (s : State) (xs : List Xfer) (rest : List Reply) : (s.afterXfers xs rest).cfgReg = s.cfgReg := rfl
@[simp] theorem afterXfers_phase (s : State) (xs : List Xfer) (rest : List Reply) : (s.afterXfers xs rest).phase = s.phase := rfl
@[simp] theorem afterXfers_fcode (s : State) (xs : List Xfer) (rest : List Reply) : (s.afterXfers xs rest).fcode = s.fcode := rfl
@[simp] theorem afterXfers_rvalid (s : State) (xs : List Xfer) (rest : List Reply) : (s.afterXfers xs rest).rvalid = s.rvalid := rfl
@[simp] theorem afterXfers_busReady (s : State) (xs : List Xfer) (rest : List Reply) : (s.afterXfers xs rest).busReady = s.busReady := rfl
@[simp] theorem afterXfers_idWarn (s : State) (xs : List Xfer) (rest : List Reply) : (s.afterXfers xs rest).idWarn = s.idWarn := rfl
@[simp] theorem afterXfers_authValid (s : State) (xs : List Xfer) (rest : List Reply) : (s.afterXfers xs rest).authValid = s.authValid := rfl
@[simp] theorem afterXfers_authFail (s : State) (xs : List Xfer) (rest : List Reply) : (s.afterXfers xs rest).authFail = s.authFail := rfl
@[simp] theorem afterXfers_authOk (s : State) (xs : List Xfer) (rest : List Reply) : (s.afterXfers xs rest).authOk = s.authOk := rfl
@[simp] theorem afterXfers_authBusy (s : State) (xs : List Xfer) (rest : List Reply) : (s.afterXfers xs rest).authBusy = s.authBusy := rfl
@[simp] theorem afterXfers_unbalCleared (s : State) (xs : List Xfer) (rest : List Reply) : (s.afterXfers xs rest).unbalCleared = s.unbalCleared := rfl
@[simp] theorem afterXfers_lastOp (s : State) (xs : List Xfer) (rest : List Reply) : (s.afterXfers xs rest).lastOp = s.lastOp := rfl
@[simp] theorem afterXfers_srcLen (s : State) (xs : List Xfer) (rest : List Reply) : (s.afterXfers xs rest).srcLen = s.srcLen := rfl
@[simp] theorem afterXfers_storeLen (s : State) (xs : List Xfer) (rest : List Reply) : (s.afterXfers xs rest).storeLen = s.storeLen := rfl
@[simp] theorem afterXfers_res0 (s : State) (xs : List Xfer) (rest : List Reply) : (s.afterXfers xs rest).res0 = s.res0 := rfl
@[simp] theorem afterXfers_res1 (s : State) (xs : List Xfer) (rest : List Reply) : (s.afterXfers xs rest).res1 = s.res1 := rfl
@[simp] theorem afterXfers_res2 (s : State) (xs : List Xfer) (rest : List Reply) : (s.afterXfers xs rest).res2 = s.res2 := rfl
@[simp] theorem afterXfers_res3 (s : State) (xs : List Xfer) (rest : List Reply) : (s.afterXfers xs rest).res3 = s.res3 := rfl
@[simp] theorem afterXfers_flags (s : State) (xs : List Xfer) (rest : List Reply) : (s.afterXfers xs rest).flags = s.flags := rfl
@[simp] theorem afterXfers_clkRate (s : State) (xs : List Xfer) (rest : List Reply) : (s.afterXfers xs rest).clkRate = s.clkRate := rfl
@[simp] theorem afterXfers_mem (s : State) (xs : List Xfer) (rest : List Reply) : (s.afterXfers xs rest).mem = s.mem := rfl
@[simp] theorem afterXfers_cfgWritten (s : State) (xs : List Xfer) (rest : List Reply) : (s.afterXfers xs rest).cfgWritten = s.cfgWritten := rfl
@[simp] theorem afterXfers_pollCount (s : State) (xs : List Xfer) (rest : List Reply) : (s.afterXfers xs rest).pollCount = s.pollCount := rfl
@[simp] theorem afterXfers_latch (s : State) (xs : List Xfer) (rest : List Reply) : (s.afterXfers xs rest).latch = s.latch := rfl
@[simp] theorem afterXfers_selLatch (s : State) (xs : List Xfer) (rest : List Reply) : (s.afterXfers xs rest).selLatch = s.selLatch := rfl
@[simp] theorem afterXfers_pos (s : State) (xs : List Xfer) (rest : List Reply) : (s.afterXfers xs rest).pos = s.pos := rfl
@[simp] theorem afterXfers_scratch (s : State) (xs : List Xfer) (rest : List Reply) : (s.afterXfers xs rest).scratch = s.scratch := rfl
@[simp] theorem afterXfers_inbox (s : State) (xs : List Xfer) (rest : List Reply) : (s.afterXfers xs rest).inbox = s.inbox := rfl
@[simp] theorem afterXfers_replies (s : State) (xs : List Xfer) (rest : List Reply) : (s.afterXfers xs rest).replies = rest := rfl
@[simp] theorem afterXfers_answered (s : State) (xs : List Xfer) (rest : List Reply) : (s.afterXfers xs rest).answered = s.answered := rfl
@[simp] theorem afterXfers_drawn (s : State) (xs : List Xfer) (rest : List Reply) : (s.afterXfers xs rest).drawn = s.drawn := rfl
@[simp] theorem afterXfers_logRev (s : State) (xs : List Xfer) (rest : List Reply) : (s.afterXfers xs rest).logRev = (xs.flatMap (Xfer.events s)).reverse ++ s.logRev := rfl
@[simp] theorem afterXfers_readsRev (s : State) (xs : List Xfer) (rest : List Reply) : (s.afterXfers xs rest).readsRev = s.readsRev := rfl

end Sys2Proof.Machine
end

