-- ==== Sys2Proof/Laws/Memory.lean ====
section
/-!
SUPPORT. The host buffers: reading after writing, and the canonical form, which every memory operation keeps.
-/

namespace Sys2Proof.Machine

open Sys2Proof

@[simp] theorem memory_read_nil (x : Nat) : Memory.read [] x = none := rfl

theorem memory_read_cons (a : Nat) (b : Byte) (m : Memory) (x : Nat) :
    Memory.read ((a, b) :: m) x = if x = a then some b else Memory.read m x := rfl

/-- A byte just written reads as what was written. -/
@[simp] theorem memory_read_write_same (m : Memory) (x : Nat) (v : Byte) : (m.write x v).read x = some v := by
  induction m with
  | nil => simp [Memory.write, memory_read_cons]
  | cons c m ih =>
    obtain ⟨a, b⟩ := c
    simp only [Memory.write]
    split
    · simp [memory_read_cons]
    · split
      · simp [memory_read_cons]
      · next h1 h2 => simp [memory_read_cons, h2, ih]

/-- Writing a byte leaves every other byte. -/
theorem memory_read_write_other (m : Memory) (x y : Nat) (v : Byte) (h : y ≠ x) :
    (m.write x v).read y = m.read y := by
  induction m with
  | nil => simp [Memory.write, memory_read_cons, h]
  | cons c m ih =>
    obtain ⟨a, b⟩ := c
    simp only [Memory.write]
    split
    · simp [memory_read_cons, h]
    · split
      · next h1 h2 => subst h2; simp [memory_read_cons, h]
      · simp [memory_read_cons, ih]

/-- Where the cells of a memory after a write come from. -/
theorem memory_mem_write {m : Memory} {x : Nat} {v : Byte} {c : Host.Cell} (h : c ∈ m.write x v) :
    c = (x, v) ∨ c ∈ m := by
  induction m with
  | nil => simpa [Memory.write] using h
  | cons d m ih =>
    obtain ⟨a, b⟩ := d
    simp only [Memory.write] at h
    split at h
    · simpa using h
    · split at h
      · rcases List.mem_cons.1 h with h | h
        · exact .inl h
        · exact .inr (List.mem_cons_of_mem _ h)
      · rcases List.mem_cons.1 h with h | h
        · exact .inr (h ▸ List.mem_cons_self)
        · exact (ih h).imp_right (List.mem_cons_of_mem _)

/-- A write at a buffer offset keeps the canonical form. -/
theorem memory_write_wf {m : Memory} (hm : m.wf) {x : Nat} (hx : inBuffer x = true) (v : Byte) :
    (m.write x v).wf := by
  refine ⟨?_, fun c hc => ?_⟩
  · have hp := hm.1
    clear hm
    induction m with
    | nil => simp [Memory.write]
    | cons d m ih =>
      obtain ⟨a, b⟩ := d
      rw [List.pairwise_cons] at hp
      simp only [Memory.write]
      split
      · next h =>
        refine List.pairwise_cons.2 ⟨fun c hc => ?_, List.pairwise_cons.2 hp⟩
        rcases List.mem_cons.1 hc with rfl | hc
        · exact h
        · exact Nat.lt_trans h (hp.1 c hc)
      · split
        · next h1 h2 => exact List.pairwise_cons.2 ⟨fun c hc => h2 ▸ hp.1 c hc, hp.2⟩
        · next h1 h2 =>
          refine List.pairwise_cons.2 ⟨fun c hc => ?_, ih hp.2⟩
          rcases memory_mem_write hc with rfl | hc
          · exact Nat.lt_of_le_of_ne (Nat.not_lt.1 h1) (fun h => h2 h.symm)
          · exact hp.1 c hc
  · rcases memory_mem_write hc with rfl | hc
    · exact hx
    · exact hm.2 c hc

/-- The canonical form of the empty memory: that of the state after reset. -/
theorem memory_nil_wf : Memory.wf [] := ⟨List.Pairwise.nil, by simp⟩

theorem reset_mem_wf : Memory.wf State.reset.mem := memory_nil_wf

/-- `MemWrite` into a buffer keeps the canonical form. -/
theorem memWrite_wf {s : State} (h : s.mem.wf) (buf : Buffer) {a : Nat} (ha : a < buf.size) (v : Byte) :
    (memWrite buf a v s).mem.wf := by
  refine memory_write_wf h ?_ v
  simp only [inBuffer, List.any_eq_true, Bool.and_eq_true, decide_eq_true_eq]
  exact ⟨buf, by cases buf <;> simp, by omega, by omega⟩

/-- A host write of a byte at SRCBUF or STORE keeps the canonical form. -/
theorem host_write_wf {s : State} (h : s.mem.wf) {off : Nat} (hoff : inBuffer off = true) (v : Byte) :
    (s.mem.write off v).wf := memory_write_wf h hoff v

end Sys2Proof.Machine
end

