-- ==== Sys2Proof/Laws/Ops.lean ====
section
/-!
SUPPORT. What the shared operations can do, said once: the bus event, what follows a line, one step of a line, one step
of a command, one step of the machine; and the principle that a relation kept by the control operations and by every
line of a command is kept by every step of the command.
-/

namespace Sys2Proof.Machine

open Sys2Proof

/-! ## Every command is its checks and its procedure -/

theorem exec_eq_runCommand (i : Instr) (s : State) : exec i s = runCommand (entryOf i) (linesOf i s) s := by
  cases i <;> rfl

/-- The procedure of a command depends only on the parameters, the sampled STORE_SEL and the word in the local
variables. -/
theorem linesOf_congr (i : Instr) {s t : State} (hc : t.config = s.config) (hl : t.selLatch = s.selLatch)
    (he : t.scratch.even = s.scratch.even) (ho : t.scratch.odd = s.scratch.odd) : linesOf i t = linesOf i s := by
  have hw : ∀ a, linesReadWord t a = linesReadWord s a := fun a => by unfold linesReadWord; rw [hl, hc]
  have hi : linesImageWord t = linesImageWord s := by funext k; unfold linesImageWord; rw [hw]
  have hp : linesProgramWord t = linesProgramWord s := by funext k; unfold linesProgramWord; rw [hc, he, ho]
  cases i <;> simp only [linesOf, linesEeReadWord, linesEeReadImage, linesEeProgram, linesUnlock, linesRsense, linesIcur,
    linesVthr, hw, hi, hp, hc, he, ho]

/-! ## The bus event -/

theorem answerOf_failed {r : Reply} (h : r.failed = true) (p : BusPrim) : answerOf p r = .err := by
  simp [answerOf, h]

theorem answerOf_ne_err {r : Reply} (h : r.failed = false) (p : BusPrim) : answerOf p r ≠ .err := by
  unfold answerOf
  rw [if_neg (by simp [h])]
  cases p <;> simp
  split <;> simp

theorem busCall_failed {s : State} (h : s.nextReply.failed = true) (p : BusPrim) (k : Reply → State → Out) :
    busCall p s k = .next (raiseFault .transport (recordEvent p s)) := by simp [busCall, h]

theorem busCall_ok {s : State} (h : s.nextReply.failed = false) (p : BusPrim) (k : Reply → State → Out) :
    busCall p s k = k s.nextReply (recordEvent p s) := by simp [busCall, h]

/-- A bus event that leads to a next state: TRANSPORT after `err`, else what its continuation makes of the answer. -/
theorem busCall_next {p : BusPrim} {s t : State} {k : Reply → State → Out} (h : busCall p s k = .next t) :
    (s.nextReply.failed = true ∧ t = raiseFault .transport (recordEvent p s)) ∨
    (s.nextReply.failed = false ∧ k s.nextReply (recordEvent p s) = .next t) := by
  cases hf : s.nextReply.failed
  · exact .inr ⟨rfl, by rwa [busCall_ok hf] at h⟩
  · exact .inl ⟨rfl, by rw [busCall_failed hf] at h; exact (Host.Outcome.next.inj h).symm⟩

/-! ## What follows a line -/

theorem goTo_cases (n j : Nat) (s : State) :
    (j < n ∧ goTo n j s = { s with pos := .at j .start }) ∨ (n ≤ j ∧ goTo n j s = finish s) := by
  unfold goTo
  split
  · exact .inl ⟨‹_›, rfl⟩
  · exact .inr ⟨Nat.not_lt.1 ‹_›, rfl⟩

theorem settle_next {n j : Nat} {v : Verdict} {t : State} (h : settle n j v = .next t) :
    (∃ s, v = .proceed s ∧ t = goTo n (j + 1) s) ∨ (∃ s, v = .skip s ∧ t = goTo n (j + 2) s) ∨
    (∃ s, v = .again s ∧ t = toBeat j .start s) ∨ (∃ c s, v = .raise c s ∧ t = raiseFault c s) := by
  cases v <;> simp [settle] at h <;> simp [h]

theorem settleEntry_next {n : Nat} {v : Verdict} {t : State} (h : settleEntry n v = .next t) :
    (∃ s, v = .proceed s ∧ t = goTo n 0 s) ∨ (∃ s, v = .skip s ∧ t = goTo n 1 s) ∨
    (∃ s, v = .again s ∧ t = { s with pos := .entry }) ∨ (∃ c s, v = .raise c s ∧ t = raiseFault c s) := by
  cases v <;> simp [settleEntry] at h <;> simp [h]

/-! ## One step of a line -/

/-- A step of `ReadReg` that leads to a next state: TRANSPORT (after `err`, or after AckFail's BusStop); the next beat,
with the byte kept after BusRead(ACK); or, after BusStop, what the line does with the byte. -/
theorem readRegBeat_next {n j : Nat} {a : Byte} {use : Byte → State → Verdict} {b : Beat} {s t : State}
    (h : readRegBeat n j a use b s = .next t) :
    (∃ p, t = raiseFault .transport (recordEvent p s)) ∨
    (∃ p b', t = toBeat j b' (recordEvent p s)) ∨
    (∃ x, t = toBeat j .dummy
      { recordEvent (.read true) s with scratch := { (recordEvent (.read true) s).scratch with byte := x } }) ∨
    (b = .stop ∧ settle n j (use s.scratch.byte (recordEvent .stop s)) = .next t) := by
  cases b <;> simp only [readRegBeat] at h <;> rcases busCall_next h with ⟨-, rfl⟩ | ⟨-, h⟩ <;>
    first
    | exact .inl ⟨_, rfl⟩
    | (simp only [Host.Outcome.next.injEq] at h; subst h; exact .inr (.inl ⟨_, _, rfl⟩))
    | (simp only [Host.Outcome.next.injEq] at h; subst h; exact .inr (.inr (.inl ⟨_, rfl⟩)))
    | (simp only [Host.Outcome.next.injEq] at h; subst h; exact .inl ⟨_, rfl⟩)
    | (simp only [Host.Outcome.next.injEq] at h; subst h; split <;> exact .inr (.inl ⟨_, _, rfl⟩))
    | exact .inr (.inr (.inr ⟨rfl, by simpa using h⟩))

/-- A step of `WriteReg` that leads to a next state. -/
theorem writeRegBeat_next {n j : Nat} {a v : Byte} {after : State → State} {b : Beat} {s t : State}
    (h : writeRegBeat n j a v after b s = .next t) :
    (∃ p, t = raiseFault .transport (recordEvent p s)) ∨ (∃ p b', t = toBeat j b' (recordEvent p s)) ∨
    (b = .stop ∧ t = goTo n (j + 1) (after (recordEvent .stop s))) := by
  cases b <;> simp only [writeRegBeat, reduceCtorEq] at h
  all_goals rcases busCall_next h with ⟨-, rfl⟩ | ⟨-, h⟩
  all_goals first
    | exact .inl ⟨_, rfl⟩
    | (simp only [settle, Host.Outcome.next.injEq] at h; subst h; first
        | exact .inr (.inl ⟨_, _, rfl⟩)
        | exact .inr (.inr ⟨rfl, rfl⟩))

/-! ## Relations that commands keep -/

/-- A relation between the state before a step and states on the way is kept by the control operations. -/
structure ControlKeeps (R : State → State → Prop) : Prop where
  refl : ∀ s, R s s
  record : ∀ {s t}, R s t → ∀ p, R s (recordEvent p t)
  byte : ∀ {s t}, R s t → ∀ x, R s { t with scratch := { t.scratch with byte := x } }
  move : ∀ {s t}, R s t → ∀ p, R s { t with pos := p }
  finish : ∀ {s t}, R s t → R s (finish t)
  raise : ∀ {s t}, R s t → ∀ c, R s (raiseFault c t)

/-- The verdict's state, where it has one, is related. -/
def Verdict.Keeps (R : State → Prop) : Verdict → Prop
  | .proceed t => R t
  | .skip t => R t
  | .again t => R t
  | .raise _ t => R t
  | .refuse _ => True

/-- What a line does with its answers keeps the relation. -/
def Line.Keeps (R : State → State → Prop) : Line → Prop
  | .busInit use => ∀ s t x, R s t → R s (use x t)
  | .busClose after => ∀ s t, R s t → R s (after t)
  | .readReg _ use => ∀ s t x, R s t → (use x t).Keeps (R s)
  | .writeReg _ _ after => ∀ s t, R s t → R s (after t)
  | .silent act => ∀ s t, R s t → (act t).Keeps (R s)

variable {R : State → State → Prop}

theorem goTo_keeps (hR : ControlKeeps R) {s t : State} (h : R s t) (n j : Nat) : R s (goTo n j t) := by
  rcases goTo_cases n j t with ⟨-, e⟩ | ⟨-, e⟩ <;> rw [e]
  · exact hR.move h _
  · exact hR.finish h

theorem settle_keeps (hR : ControlKeeps R) {s t : State} {n j : Nat} {v : Verdict} (hv : v.Keeps (R s))
    (h : settle n j v = .next t) : R s t := by
  rcases settle_next h with ⟨u, rfl, rfl⟩ | ⟨u, rfl, rfl⟩ | ⟨u, rfl, rfl⟩ | ⟨c, u, rfl, rfl⟩
  · exact goTo_keeps hR hv _ _
  · exact goTo_keeps hR hv _ _
  · exact hR.move hv _
  · exact hR.raise hv c

theorem settleEntry_keeps (hR : ControlKeeps R) {s t : State} {n : Nat} {v : Verdict} (hv : v.Keeps (R s))
    (h : settleEntry n v = .next t) : R s t := by
  rcases settleEntry_next h with ⟨u, rfl, rfl⟩ | ⟨u, rfl, rfl⟩ | ⟨u, rfl, rfl⟩ | ⟨c, u, rfl, rfl⟩
  · exact goTo_keeps hR hv _ _
  · exact goTo_keeps hR hv _ _
  · exact hR.move hv _
  · exact hR.raise hv c

theorem runLine_keeps (hR : ControlKeeps R) {n j : Nat} {b : Beat} {line : Line} (hl : line.Keeps R) {s t : State}
    (h : runLine n j b line s = .next t) : R s t := by
  have hrec : ∀ p, R s (recordEvent p s) := hR.record (hR.refl s)
  cases line with
  | readReg a use =>
    rcases readRegBeat_next h with ⟨p, rfl⟩ | ⟨p, b', rfl⟩ | ⟨x, rfl⟩ | ⟨-, h⟩
    · exact hR.raise (hrec p) _
    · exact hR.move (hrec p) _
    · exact hR.move (hR.byte (hrec _) x) _
    · exact settle_keeps hR (hl s _ _ (hrec _)) h
  | writeReg a v after =>
    rcases writeRegBeat_next h with ⟨p, rfl⟩ | ⟨p, b', rfl⟩ | ⟨-, rfl⟩
    · exact hR.raise (hrec p) _
    · exact hR.move (hrec p) _
    · exact goTo_keeps hR (hl s _ (hrec _)) _ _
  | busInit use =>
    simp only [runLine] at h
    split at h
    · rcases busCall_next h with ⟨-, rfl⟩ | ⟨-, h⟩
      · exact hR.raise (hrec _) _
      · exact settle_keeps hR (v := .proceed _) (hl s _ _ (hrec _)) h
    · cases h
  | busClose after =>
    simp only [runLine] at h
    split at h
    · rcases busCall_next h with ⟨-, rfl⟩ | ⟨-, h⟩
      · exact hR.raise (hrec _) _
      · exact settle_keeps hR (v := .proceed _) (hl s _ (hrec _)) h
    · cases h
  | silent act =>
    simp only [runLine] at h
    split at h
    · exact settle_keeps hR (hl s s (hR.refl s)) h
    · cases h

/-- One step of a command that leads to a next state is its checks, or one step of the line it stands at. -/
theorem runCommand_next {entry : State → Verdict} {lines : List Line} {s t : State}
    (h : runCommand entry lines s = .next t) :
    ((∀ j b, s.pos ≠ .at j b) ∧ settleEntry lines.length (entry s) = .next t) ∨
    (∃ j b line, s.pos = .at j b ∧ lines[j]? = some line ∧ runLine lines.length j b line s = .next t) := by
  unfold runCommand at h
  split at h
  · next hp => exact .inl ⟨by simp [hp], h⟩
  · next hp => exact .inl ⟨by simp [hp], h⟩
  · next j b hp =>
    split at h
    · next line hl => exact .inr ⟨j, b, line, hp, hl, h⟩
    · cases h

theorem runCommand_keeps (hR : ControlKeeps R) {entry : State → Verdict} {lines : List Line} {s t : State}
    (he : (entry s).Keeps (R s)) (hl : ∀ line ∈ lines, line.Keeps R) (h : runCommand entry lines s = .next t) :
    R s t := by
  rcases runCommand_next h with ⟨-, h⟩ | ⟨j, b, line, -, hj, h⟩
  · exact settleEntry_keeps hR he h
  · exact runLine_keeps hR (hl line (List.mem_of_getElem? hj)) h

/-- What every step of command `i` keeps: a relation kept by the control operations, by the checks of `i` and by each
line of its procedure. -/
theorem exec_keeps (hR : ControlKeeps R) {i : Instr} {s t : State} (he : (entryOf i s).Keeps (R s))
    (hl : ∀ line ∈ linesOf i s, line.Keeps R) (h : exec i s = .next t) : R s t :=
  runCommand_keeps hR he hl (by rwa [exec_eq_runCommand] at h)

/-! ## One step of the machine -/

theorem advance_running {s : State} (hp : s.phase = .running) {i : Instr} (hi : decode s.latch = .ok i) :
    advance s = exec i s := by simp [advance, hp, hi]

theorem advance_illegal {s : State} (hp : s.phase = .running) {e : DecodeError} (he : decode s.latch = .error e) :
    advance s = .next (raiseFault .illegalCommand s) := by simp [advance, hp, he]

theorem advance_waits {s : State} (hp : s.phase ≠ .running) : advance s = .next s := by simp [advance, hp]

theorem step_quiet {s : State} (h : s.inbox = []) : step s = advance s := by simp [step, runStep, h]

theorem step_quiet_action {s : State} {rest : List HostAction} (h : s.inbox = .quiet :: rest) :
    step s = advance { s with inbox := rest } := by simp [step, runStep, h]

theorem step_host {s : State} {a : HostAction} {rest : List HostAction} (h : s.inbox = a :: rest) (ha : a ≠ .quiet) :
    step s = hostStep a { s with inbox := rest } := by simp [step, runStep, h, ha]

/-- One step of the machine: a step of the block, or one action of host or platform. -/
theorem step_cases (s : State) :
    (∃ rest, (s.inbox = [] ∧ rest = [] ∨ s.inbox = .quiet :: rest) ∧ step s = advance { s with inbox := rest }) ∨
    (∃ a rest, s.inbox = a :: rest ∧ a ≠ .quiet ∧ step s = hostStep a { s with inbox := rest }) := by
  cases h : s.inbox with
  | nil =>
    refine .inl ⟨[], .inl ⟨rfl, rfl⟩, ?_⟩
    rw [step_quiet h, show ({ s with inbox := [] } : State) = s from by rw [← h]]
  | cons a rest =>
    by_cases ha : a = .quiet
    · exact .inl ⟨rest, .inr (by rw [ha]), step_quiet_action (by rw [h, ha])⟩
    · exact .inr ⟨a, rest, rfl, ha, step_host h ha⟩

end Sys2Proof.Machine
end

