-- ==== Sys2Proof/Laws/HostPort.lean ====
section
/-!
SUPPORT. What the host's accesses and the platform's reset can do, said once.
-/

namespace Sys2Proof.Machine

open Sys2Proof

/-- A host write that leads to a next state: nothing, an accepted command, or, outside RUNNING, one of the registers
that the host writes or one byte of SRCBUF or STORE. -/
theorem writeLoc_next {loc : HostLoc} {off : Nat} {v : Word32} {s t : State} (h : writeLoc loc off v s = .next t) :
    t = s ∨
    (loc = .cmd ∧ (s.phase = .idle ∨ s.phase = .done) ∧ t = accept v s) ∨
    (s.phase ≠ .running ∧
      ((loc = .cfg ∧ t = writeCfg v s) ∨
       (loc = .srcLen ∧ t = { s with srcLen := v.extractLsb' 0 16 }) ∨
       (loc = .storeLen ∧ t = { s with storeLen := clampStoreLen v }) ∨
       ((loc = .buffer .srcbuf ∨ loc = .buffer .store) ∧
         t = { s with mem := s.mem.write off (v.extractLsb' 0 8) }))) := by
  cases loc
  case cmd =>
    simp only [writeLoc, writeCmd] at h
    cases hp : s.phase <;> simp only [hp, Host.Outcome.next.injEq, reduceCtorEq] at h <;> subst h <;> simp
  case buffer b =>
    cases b <;> simp only [writeLoc, whenNotRunning, Host.Outcome.next.injEq] at h
    · split at h <;> simp_all
    · exact .inl h.symm
    · split at h <;> simp_all
  case cfg => simp only [writeLoc, whenNotRunning] at h; split at h <;> simp_all
  case srcLen => simp only [writeLoc, whenNotRunning] at h; split at h <;> simp_all
  case storeLen => simp only [writeLoc, whenNotRunning] at h; split at h <;> simp_all
  all_goals exact .inl (Host.Outcome.next.inj h).symm

/-- A host read only observes: it records a value and may use up a draw. -/
theorem hostRead_cases (loc : HostLoc) (off width : Nat) (s : State) :
    (∃ v, readLoc loc off s = some v ∧ hostRead loc off width s = { s with readsRev := ⟨off, v⟩ :: s.readsRev }) ∨
    (readLoc loc off s = none ∧ hostRead loc off width s =
      { s with readsRev := ⟨off, nextDraw width s⟩ :: s.readsRev, drawn := s.drawn + 1 }) := by
  unfold hostRead
  cases h : readLoc loc off s with
  | some v => exact .inl ⟨v, rfl, rfl⟩
  | none => exact .inr ⟨rfl, rfl⟩

/-- One action of host or platform that leads to a next state. -/
theorem hostStep_next {a : HostAction} {s t : State} (h : hostStep a s = .next t) :
    (a = .quiet ∧ t = s) ∨ (a = .reset ∧ t = resetBlock s) ∨
    (∃ off width v loc, a = .write off width v ∧ hostLoc off width = some loc ∧ writeLoc loc off v s = .next t) ∨
    (∃ off width loc, a = .read off width ∧ hostLoc off width = some loc ∧ t = hostRead loc off width s) := by
  cases a with
  | quiet => exact .inl ⟨rfl, (Host.Outcome.next.inj h).symm⟩
  | reset => exact .inr (.inl ⟨rfl, (Host.Outcome.next.inj h).symm⟩)
  | write off width v =>
    simp only [hostStep] at h
    split at h
    · next loc hl => exact .inr (.inr (.inl ⟨off, width, v, loc, rfl, hl, h⟩))
    · cases h
  | read off width =>
    simp only [hostStep] at h
    split at h
    · next loc hl => exact .inr (.inr (.inr ⟨off, width, loc, rfl, hl, (Host.Outcome.next.inj h).symm⟩))
    · cases h

end Sys2Proof.Machine
end

