-- ==== Sys2Proof/Laws/Lines.lean ====
section
/-!
SUPPORT. Which lines the procedures have: to show something of every line of a command, show it of the lines named
here.
-/

namespace Sys2Proof.Machine

open Sys2Proof

variable {P : Line → Prop}

/-- The lines of PollNotBusy and Lock. -/
theorem linesPoll_forall {c : Config} (h1 : P (.silent pollReset)) (h2 : P (.readReg c.regEeCtrl pollTest)) :
    ∀ line ∈ linesPoll c, P line := by simp [linesPoll, h1, h2]

theorem linesLock_forall {c : Config} (h1 : P (.silent pollReset)) (h2 : P (.readReg c.regEeCtrl pollTest))
    (hw : ∀ a v, P (writeTo a v)) : ∀ line ∈ linesLock c, P line := by simp [linesLock, linesPoll, h1, h2, hw]

/-- The lines of ReadWord, in both variants. -/
theorem linesReadWord_forall {s : State} {a : Byte} (h1 : P (.silent pollReset))
    (h2 : P (.readReg s.config.regEeCtrl pollTest)) (hw : ∀ a v, P (writeTo a v)) (ho : ∀ a, P (readInto a saveOdd))
    (he : ∀ a, P (readInto a saveEven)) (hs : P (.silent (readWordStore a))) :
    ∀ line ∈ linesReadWord s a, P line := by
  unfold linesReadWord
  split <;> simp [linesReadWordDev, linesLock, linesPoll, h1, h2, hw, ho, he, hs]

/-- The lines of WriteWord. -/
theorem linesWriteWord_forall {c : Config} {a even odd : Byte} (h1 : P (.silent pollReset))
    (h2 : P (.readReg c.regEeCtrl pollTest)) (hw : ∀ a v, P (writeTo a v)) :
    ∀ line ∈ linesWriteWord c a even odd, P line := by
  simp [linesWriteWord, linesLock, linesPoll, h1, h2, hw]

/-- The lines of EE_READ_IMAGE. -/
theorem linesEeReadImage_forall {s : State} (h1 : P (.silent pollReset))
    (h2 : P (.readReg s.config.regEeCtrl pollTest)) (hw : ∀ a v, P (writeTo a v)) (ho : ∀ a, P (readInto a saveOdd))
    (he : ∀ a, P (readInto a saveEven)) (hs : ∀ a, P (.silent (readWordStore a)))
    (hi : ∀ k, k < 64 → P (.silent (storeImageWord k))) : ∀ line ∈ linesEeReadImage s, P line := by
  intro line h
  obtain ⟨k, hk, h⟩ := List.mem_flatMap.1 h
  rcases List.mem_append.1 h with h | h
  · exact linesReadWord_forall h1 h2 hw ho he (hs _) line h
  · rw [List.mem_singleton.1 h]; exact hi k (List.mem_range.1 hk)

/-- The lines of EE_PROGRAM. -/
theorem linesEeProgram_forall {s : State} (h1 : P (.silent pollReset))
    (h2 : P (.readReg s.config.regEeCtrl pollTest)) (hw : ∀ a v, P (writeTo a v)) (ho : ∀ a, P (readInto a saveOdd))
    (he : ∀ a, P (readInto a saveEven)) (hs : ∀ a, P (.silent (readWordStore a)))
    (ht : P (readInto s.config.regAuthStatus takeStatus)) (hv : P (.silent verdictAuth))
    (hf : ∀ k, k < 64 → P (.silent (fetchSourceWord k))) (hc : ∀ k, k < 64 → P (.silent (countWord k))) :
    ∀ line ∈ linesEeProgram s, P line := by
  intro line h
  simp only [linesEeProgram, List.mem_append] at h
  rcases h with ((((((h | h) | h) | h) | h) | h) | h) | h
  · exact linesReadWord_forall h1 h2 hw ho he (hs _) line h
  · revert line; simp [linesUnlock, linesPoll, h1, h2, hw]
  · rw [List.mem_singleton.1 h]; exact ht
  · exact linesLock_forall h1 h2 hw line h
  · rw [List.mem_singleton.1 h]; exact hv
  · exact linesPoll_forall h1 h2 line h
  · rw [List.mem_singleton.1 h]; exact hw _ _
  · obtain ⟨k, hk, h⟩ := List.mem_flatMap.1 h
    simp only [linesProgramWord, List.mem_append, List.mem_singleton] at h
    rcases h with (rfl | h) | rfl
    · exact hf k (List.mem_range.1 hk)
    · exact linesWriteWord_forall h1 h2 hw line h
    · exact hc k (List.mem_range.1 hk)

/-- The lines of STATUS_DECODE. -/
theorem linesStatusDecode_forall {c : Config}
    (hs : P (.readReg c.regShutdown fun v s =>
      if unbalancedBit v then .proceed (takeFlags c.regShutdown v s) else .skip (takeFlags c.regShutdown v s)))
    (hw : P (.writeReg c.regShutdown 0x10#8 fun s => { s with unbalCleared := true }))
    (hr : ∀ reg, P (readInto reg (takeFlags reg))) (hf : P (.silent flagsResult)) :
    ∀ line ∈ linesStatusDecode c, P line := by
  intro line h
  rcases List.mem_append.1 h with h | h
  · obtain ⟨r, -, h⟩ := List.mem_flatMap.1 h
    unfold linesFlagReg at h
    split at h
    · next e => subst e; simp only [List.mem_cons, List.not_mem_nil, or_false] at h; rcases h with rfl | rfl <;> assumption
    · rw [List.mem_singleton.1 h]; exact hr r
  · rw [List.mem_singleton.1 h]; exact hf

/-! ## What the silent parts of the procedures can answer -/

theorem pollTest_cases (c : Byte) (s : State) :
    (busyBit c = false ∧ pollTest c s = .proceed s) ∨
    (busyBit c = true ∧ (pollTest c s = .raise .timeout { s with pollCount := s.pollCount + 1 } ∨
      pollTest c s = .again { s with pollCount := s.pollCount + 1 })) := by
  cases h : busyBit c
  · exact .inl ⟨rfl, by simp [pollTest, h]⟩
  · refine .inr ⟨rfl, ?_⟩
    simp only [pollTest, h, if_true]
    split
    · exact .inl rfl
    · exact .inr rfl

theorem readWordStore_cases (a : Byte) (s : State) :
    readWordStore a s = .raise .input s ∨ readWordStore a s = .refuse .byteHoldsNoValue ∨
    ∃ even odd, memRead .store a.toNat s = some even ∧ memRead .store (a.toNat + 1) s = some odd ∧
      readWordStore a s = .proceed (saveOdd odd (saveEven even s)) := by
  unfold readWordStore
  split
  · exact .inl rfl
  · split
    · next e o h1 h2 => exact .inr (.inr ⟨e, o, h1, h2, rfl⟩)
    · exact .inr (.inl rfl)

theorem fetchSourceWord_cases (k : Nat) (s : State) :
    fetchSourceWord k s = .refuse .byteHoldsNoValue ∨
    ∃ even odd, memRead .srcbuf (2 * k) s = some even ∧ memRead .srcbuf (2 * k + 1) s = some odd ∧
      fetchSourceWord k s = .proceed (saveOdd odd (saveEven even s)) := by
  unfold fetchSourceWord
  split
  · next e o h1 h2 => exact .inr ⟨e, o, h1, h2, rfl⟩
  · exact .inl rfl

theorem verdictAuth_cases (s : State) :
    (authPermits s.config s.scratch.status = true ∧ verdictAuth s = .proceed s) ∨
    (authPermits s.config s.scratch.status = false ∧ verdictAuth s = .raise .auth s) := by
  cases h : authPermits s.config s.scratch.status <;> simp [verdictAuth, h]

theorem needBus_cases (s : State) :
    (s.busReady = true ∧ needBus s = .proceed s) ∨ (s.busReady = false ∧ needBus s = .raise .lifecycle s) := by
  cases h : s.busReady <;> simp [needBus, h]

theorem needBusForWord_cases (s : State) :
    ((s.selLatch = true ∨ s.busReady = true) ∧ needBusForWord s = .proceed s) ∨
    (s.selLatch = false ∧ s.busReady = false ∧ needBusForWord s = .raise .lifecycle s) := by
  cases h : s.selLatch <;> cases h' : s.busReady <;> simp [needBusForWord, needBus, h, h']

end Sys2Proof.Machine
end

