-- ==== Sys2Proof/Laws/PerInstr.lean ====
section
/-!
SUPPORT. Families of statements about each command as syntax. `EncodedFields`: the four bytes of the command word are
the opcode and the operands in field order (rules R65, R68).
-/

namespace Sys2Proof.Laws

open Sys2Proof

/-- Appending a byte to a bit vector, as a number. -/
theorem toNat_append_byte {n : Nat} (x : BitVec n) (y : Byte) : (x ++ y).toNat = x.toNat * 256 + y.toNat := by
  rw [BitVec.toNat_append, ← Nat.shiftLeft_add_eq_or_of_lt y.isLt, Nat.shiftLeft_eq]

/-- The four fields of a word made of four bytes (R65). -/
theorem fields_of_bytes (o a b c : Byte) :
    fieldOp (o ++ a ++ b ++ c) = o ∧ fieldA (o ++ a ++ b ++ c) = a ∧ fieldB (o ++ a ++ b ++ c) = b ∧
    fieldC (o ++ a ++ b ++ c) = c := by
  have h : BitVec.toNat (w := 32) (o ++ a ++ b ++ c) =
      ((o.toNat * 256 + a.toNat) * 256 + b.toNat) * 256 + c.toNat := by
    rw [← toNat_append_byte, ← toNat_append_byte, ← toNat_append_byte]
  refine ⟨?_, ?_, ?_, ?_⟩ <;> apply BitVec.eq_of_toNat_eq <;>
    simp only [fieldOp, fieldA, fieldB, fieldC, BitVec.extractLsb'_toNat, h, Nat.shiftRight_eq_div_pow] <;> omega

/-- The bytes of the command word of `i`. -/
def EncodedFields.Statement (i : Instr) : Prop :=
  fieldOp (encode i) = opcodeOf i ∧
  (fieldA (encode i), fieldB (encode i), fieldC (encode i)) = operandsOf i

/-- The statement holds of every command, whatever its constructor. -/
theorem encoded_fields (i : Instr) : EncodedFields.Statement i := by
  obtain ⟨ho, ha, hb, hc⟩ :=
    fields_of_bytes (opcodeOf i) (operandsOf i).1 (operandsOf i).2.1 (operandsOf i).2.2
  exact ⟨ho, by simp only [encode, ha, hb, hc]⟩

theorem EncodedFields.readReg (a : Byte) : EncodedFields.Statement (.readReg a) := encoded_fields _
theorem EncodedFields.writeReg (a v : Byte) : EncodedFields.Statement (.writeReg a v) := encoded_fields _
theorem EncodedFields.busInit : EncodedFields.Statement .busInit := encoded_fields _
theorem EncodedFields.busClose : EncodedFields.Statement .busClose := encoded_fields _
theorem EncodedFields.eeBusy : EncodedFields.Statement .eeBusy := encoded_fields _
theorem EncodedFields.eeLock : EncodedFields.Statement .eeLock := encoded_fields _
theorem EncodedFields.eeReadWord (a : Byte) : EncodedFields.Statement (.eeReadWord a) := encoded_fields _
theorem EncodedFields.eeReadImage : EncodedFields.Statement .eeReadImage := encoded_fields _
theorem EncodedFields.eeWriteWord (a even odd : Byte) : EncodedFields.Statement (.eeWriteWord a even odd) :=
  encoded_fields _
theorem EncodedFields.eeProgram : EncodedFields.Statement .eeProgram := encoded_fields _
theorem EncodedFields.vcell (i : Byte) : EncodedFields.Statement (.vcell i) := encoded_fields _
theorem EncodedFields.rsense : EncodedFields.Statement .rsense := encoded_fields _
theorem EncodedFields.icur : EncodedFields.Statement .icur := encoded_fields _
theorem EncodedFields.vthr (sel : Byte) : EncodedFields.Statement (.vthr sel) := encoded_fields _
theorem EncodedFields.statusDecode : EncodedFields.Statement .statusDecode := encoded_fields _
theorem EncodedFields.dvolt (hi lo : Byte) : EncodedFields.Statement (.dvolt hi lo) := encoded_fields _
theorem EncodedFields.dsense (raw : Byte) : EncodedFields.Statement (.dsense raw) := encoded_fields _
theorem EncodedFields.dcur (lo hi sense : Byte) : EncodedFields.Statement (.dcur lo hi sense) := encoded_fields _
theorem EncodedFields.chkId : EncodedFields.Statement .chkId := encoded_fields _

end Sys2Proof.Laws
end

