-- ==== Sys2Proof/Laws/Runs.lean ====
section
/-!
SUPPORT. Runs of the block without host accesses: composing runs, one step at a line, and the two register transactions
as runs whose answers a script gives.
-/

namespace Sys2Proof.Machine

open Sys2Proof

/-! ## Composing runs -/

/-- A run of any machine starts with its first step. -/
theorem run_first_next (M : Host.Core) {s t : M.State} (h : M.step s = .next t) (n : Nat) :
    M.run (n + 1) s = M.run n t := by simp only [Host.Core.run, h]

theorem run_first_fault (M : Host.Core) {s : M.State} {r : M.Fault} (h : M.step s = .fault r) (n : Nat) :
    M.run (n + 1) s = .fault r := by simp only [Host.Core.run, h]

theorem run_first_refused (M : Host.Core) {s : M.State} {r : M.Refusal} (h : M.step s = .refused r) (n : Nat) :
    M.run (n + 1) s = .refused r := by simp only [Host.Core.run, h]

theorem run_succ {s t : State} (h : step s = .next t) (n : Nat) :
    Sys2Proof.core.run (n + 1) s = Sys2Proof.core.run n t := run_first_next Sys2Proof.core h n

theorem run_fault {s : State} {r : Fault} (h : step s = .fault r) (n : Nat) :
    Sys2Proof.core.run (n + 1) s = .fault r := run_first_fault Sys2Proof.core h n

theorem run_refused {s : State} {r : Refusal} (h : step s = .refused r) (n : Nat) :
    Sys2Proof.core.run (n + 1) s = .refused r := run_first_refused Sys2Proof.core h n

theorem run_add {m : Nat} : ∀ {s t : State}, Sys2Proof.core.run m s = .next t →
    ∀ n, Sys2Proof.core.run (m + n) s = Sys2Proof.core.run n t := by
  induction m with
  | zero =>
    intro s t h n
    cases h
    rw [Nat.zero_add]
  | succ m ih =>
    intro s t h n
    cases hs : step s with
    | next u => rw [run_succ hs] at h; rw [Nat.succ_add, run_succ hs]; exact ih h n
    | fault r => rw [run_fault hs] at h; cases h
    | refused r => rw [run_refused hs] at h; cases h

theorem Reaches.refl (s : State) : Reaches s s := ⟨0, rfl⟩

theorem Reaches.trans {s t u : State} : Reaches s t → Reaches t u → Reaches s u
  | ⟨m, hm⟩, ⟨n, hn⟩ => ⟨m + n, by rw [run_add hm, hn]⟩

theorem Reaches.of_step {s t : State} (h : step s = .next t) : Reaches s t := ⟨1, by rw [run_succ h]; rfl⟩

/-! ## One step at a line -/

/-- The block runs command `i`, and the host makes no access. -/
structure State.Runs (i : Instr) (s : State) : Prop where
  running : s.phase = .running
  decodes : decode s.latch = .ok i
  alone : s.inbox = []

/-- The step at a line of the procedure. -/
theorem step_at_line {i : Instr} {s : State} (hr : s.Runs i) {j : Nat} {b : Beat} {line : Line}
    (hp : s.pos = .at j b) (hl : (linesOf i s)[j]? = some line) :
    step s = runLine (linesOf i s).length j b line s := by
  rw [step_quiet hr.alone, advance_running hr.running hr.decodes, exec_eq_runCommand]
  simp only [runCommand, hp, hl]

/-- The step of a command that has just been accepted. -/
theorem step_at_entry {i : Instr} {s : State} (hr : s.Runs i) (hp : s.pos = .entry) :
    step s = settleEntry (linesOf i s).length (entryOf i s) := by
  rw [step_quiet hr.alone, advance_running hr.running hr.decodes, exec_eq_runCommand]
  simp only [runCommand, hp]

theorem nextReply_scripted {s : State} {r : Reply} {rs : List Reply} (h : s.replies = r :: rs) : s.nextReply = r := by
  simp only [State.nextReply, h]

theorem takeReply_scripted {s : State} {r : Reply} {rs : List Reply} (h : s.replies = r :: rs) :
    s.takeReply = { s with replies := rs } := by simp only [State.takeReply, h]

/-- The bus event when the script answers it and the answer is not `err`. -/
theorem busCall_scripted {s : State} {r : Reply} {rs : List Reply} (h : s.replies = r :: rs) (hf : r.failed = false)
    (p : BusPrim) (k : Reply → State → Out) :
    busCall p s k = k r { s with replies := rs, logRev := ⟨p, answerOf p r⟩ :: s.logRev } := by
  rw [busCall_ok (by rw [nextReply_scripted h, hf]), recordEvent, takeReply_scripted h, nextReply_scripted h]

/-! ## The register transactions -/

/-- A state within a register transaction: the script and the bus log, the byte of BusRead(ACK), and the position are
as given, the rest is as in `s`. -/
def State.onBus (s : State) (rs : List Reply) (log : List BusEvent) (x : Byte) (p : Position) : State :=
  { s with replies := rs, logRev := log, scratch := { s.scratch with byte := x }, pos := p }

theorem State.onBus_self (s : State) : s.onBus s.replies s.logRev s.scratch.byte s.pos = s := rfl

/-- A step at a line, within a transaction. -/
theorem step_onBus {i : Instr} {s : State} (hr : s.Runs i) {j : Nat} {line : Line}
    (hl : (linesOf i s)[j]? = some line) (rs : List Reply) (log : List BusEvent) (x : Byte) (b : Beat) :
    step (s.onBus rs log x (.at j b)) = runLine (linesOf i s).length j b line (s.onBus rs log x (.at j b)) := by
  have e : linesOf i (s.onBus rs log x (.at j b)) = linesOf i s := linesOf_congr i rfl rfl rfl rfl
  rw [← e] at hl ⊢
  exact step_at_line (s := s.onBus rs log x (.at j b)) ⟨hr.running, hr.decodes, hr.alone⟩ rfl hl

/-- The beats of ReadReg when the answer serves `v`. -/
theorem rd_beats (s : State) (n j : Nat) (a v : Byte) (use : Byte → State → Verdict) (rs : List Reply)
    (log : List BusEvent) (x : Byte) :
    let before (b : Beat) : Out := readRegBeat n j a use b (s.onBus (Reply.serving v :: rs) log x (.at j b))
    let behind (p : BusPrim) (r : Answer) (b : Beat) (y : Byte) : Out := .next (s.onBus rs (⟨p, r⟩ :: log) y (.at j b))
    before .start = behind .start .ok .send x ∧
    before .send = behind (.write [s.addrW, a]) .ok .ackSend x ∧
    before .ackSend = behind .getAck .ack .restart x ∧
    before .restart = behind .start .ok .sendRead x ∧
    before .sendRead = behind (.write [s.addrR]) .ok .ackRead x ∧
    before .ackRead = behind .getAck .ack .data x ∧
    before .data = behind (.read true) (.byte v) .dummy v ∧
    before .dummy = behind (.read false) (.byte v) .stop x ∧
    before .stop = settle n j (use x (s.onBus rs (⟨.stop, .ok⟩ :: log) x (.at j .stop))) :=
  ⟨rfl, rfl, rfl, rfl, rfl, rfl, rfl, rfl, rfl⟩

/-- The beats of WriteReg when the answer serves. -/
theorem wr_beats (s : State) (n j : Nat) (a v : Byte) (after : State → State) (rs : List Reply)
    (log : List BusEvent) (x : Byte) :
    let before (b : Beat) : Out := writeRegBeat n j a v after b (s.onBus (Reply.serving 0 :: rs) log x (.at j b))
    let behind (p : BusPrim) (b : Beat) : Out := .next (s.onBus rs (⟨p, .ok⟩ :: log) x (.at j b))
    before .start = behind .start .send ∧ before .send = behind (.write [s.addrW, a, v]) .stop ∧
    before .stop = .next (goTo n (j + 1) (after (s.onBus rs (⟨.stop, .ok⟩ :: log) x (.at j .stop)))) :=
  ⟨rfl, rfl, rfl⟩

/-- ReadReg of `a` answering `v`: after nine steps the transaction is in the log and the line goes on with `v`. -/
theorem run_rd {i : Instr} {s : State} (hr : s.Runs i) {j : Nat} {a v : Byte} {use : Byte → State → Verdict}
    (hp : s.pos = .at j .start) (hl : (linesOf i s)[j]? = some (.readReg a use)) {rest : List Reply}
    (hs : s.replies = serveAll [.rd a v] ++ rest) {t : State}
    (ht : settle (linesOf i s).length j
      (use v (s.onBus rest ((Xfer.events s (.rd a v)).reverse ++ s.logRev) v (.at j .stop))) = .next t) :
    Reaches s t := by
  have hstep := step_onBus hr hl
  simp only [runLine] at hstep
  have e : s.onBus (serveAll [.rd a v] ++ rest) s.logRev s.scratch.byte (.at j .start) = s := by
    rw [← hp, ← hs, s.onBus_self]
  have hb := rd_beats s (linesOf i s).length j a v use
  let rs : Nat → List Reply := fun k => List.replicate k (Reply.serving v) ++ rest
  have r1 := Reaches.of_step ((hstep _ _ _ _).trans (hb (rs 8) s.logRev s.scratch.byte).1)
  let l1 : List BusEvent := ⟨.start, .ok⟩ :: s.logRev
  have r2 := Reaches.of_step ((hstep _ _ _ _).trans (hb (rs 7) l1 s.scratch.byte).2.1)
  let l2 : List BusEvent := ⟨.write [s.addrW, a], .ok⟩ :: l1
  have r3 := Reaches.of_step ((hstep _ _ _ _).trans (hb (rs 6) l2 s.scratch.byte).2.2.1)
  let l3 : List BusEvent := ⟨.getAck, .ack⟩ :: l2
  have r4 := Reaches.of_step ((hstep _ _ _ _).trans (hb (rs 5) l3 s.scratch.byte).2.2.2.1)
  let l4 : List BusEvent := ⟨.start, .ok⟩ :: l3
  have r5 := Reaches.of_step ((hstep _ _ _ _).trans (hb (rs 4) l4 s.scratch.byte).2.2.2.2.1)
  let l5 : List BusEvent := ⟨.write [s.addrR], .ok⟩ :: l4
  have r6 := Reaches.of_step ((hstep _ _ _ _).trans (hb (rs 3) l5 s.scratch.byte).2.2.2.2.2.1)
  let l6 : List BusEvent := ⟨.getAck, .ack⟩ :: l5
  have r7 := Reaches.of_step ((hstep _ _ _ _).trans (hb (rs 2) l6 s.scratch.byte).2.2.2.2.2.2.1)
  let l7 : List BusEvent := ⟨.read true, .byte v⟩ :: l6
  have r8 := Reaches.of_step ((hstep _ _ _ _).trans (hb (rs 1) l7 v).2.2.2.2.2.2.2.1)
  let l8 : List BusEvent := ⟨.read false, .byte v⟩ :: l7
  have r9 := Reaches.of_step (((hstep _ _ _ _).trans (hb rest l8 v).2.2.2.2.2.2.2.2).trans ht)
  have h : Reaches (s.onBus (serveAll [.rd a v] ++ rest) s.logRev s.scratch.byte (.at j .start)) t :=
    (((((((r1.trans r2).trans r3).trans r4).trans r5).trans r6).trans r7).trans r8).trans r9
  rwa [e] at h

/-- WriteReg of `v` to `a`: after three steps the transaction is in the log and the line goes on. -/
theorem run_wr {i : Instr} {s : State} (hr : s.Runs i) {j : Nat} {a v : Byte} {after : State → State}
    (hp : s.pos = .at j .start) (hl : (linesOf i s)[j]? = some (.writeReg a v after)) {rest : List Reply}
    (hs : s.replies = serveAll [.wr a v] ++ rest) :
    Reaches s (goTo (linesOf i s).length (j + 1)
      (after (s.onBus rest ((Xfer.events s (.wr a v)).reverse ++ s.logRev) s.scratch.byte (.at j .stop)))) := by
  have hstep := step_onBus hr hl
  simp only [runLine] at hstep
  have e : s.onBus (serveAll [.wr a v] ++ rest) s.logRev s.scratch.byte (.at j .start) = s := by
    rw [← hp, ← hs, s.onBus_self]
  have hb := wr_beats s (linesOf i s).length j a v after
  let rs : Nat → List Reply := fun k => List.replicate k (Reply.serving 0) ++ rest
  have r1 := Reaches.of_step ((hstep _ _ _ _).trans (hb (rs 2) s.logRev s.scratch.byte).1)
  have r2 := Reaches.of_step ((hstep _ _ _ _).trans (hb (rs 1) (⟨.start, .ok⟩ :: s.logRev) s.scratch.byte).2.1)
  have r3 := Reaches.of_step ((hstep _ _ _ _).trans
    (hb rest (⟨.write [s.addrW, a, v], .ok⟩ :: ⟨.start, .ok⟩ :: s.logRev) s.scratch.byte).2.2)
  have h : Reaches (s.onBus (serveAll [.wr a v] ++ rest) s.logRev s.scratch.byte (.at j .start)) _ :=
    (r1.trans r2).trans r3
  rwa [e] at h

/-- A silent line that goes on. -/
theorem run_silent {i : Instr} {s : State} (hr : s.Runs i) {j : Nat} {act : State → Verdict} (hp : s.pos = .at j .start)
    (hl : (linesOf i s)[j]? = some (.silent act)) {t : State} (ht : settle (linesOf i s).length j (act s) = .next t) :
    Reaches s t :=
  Reaches.of_step (by rw [step_at_line hr hp hl]; simpa [runLine] using ht)

end Sys2Proof.Machine
end

