-- ==== Sys2Proof/Tests/Slice0.lean ====
section
/-!
SUPPORT. The model's own tests: ill-formed terms refused, words written out from the spec's encodings, single steps with
the results of spec/95_test_vectors.md (the vector's name stands at each), and for every obligation with hypotheses a
witness that meets them.
-/

namespace Sys2Proof.Tests

open Sys2Proof Sys2Proof.Machine

/-! ## Well-formedness: each check refuses an ill-formed term (R52, R72) -/

theorem test_wf_cell_index : (Instr.vcell 13#8).wf = false ∧ (Instr.vcell 12#8).wf = true := by decide

theorem test_wf_read_address :
    (Instr.eeReadWord 0x7B#8).wf = false ∧ (Instr.eeReadWord 0x80#8).wf = false ∧
    (Instr.eeReadWord 0x7E#8).wf = true := by decide

theorem test_wf_write_address :
    (Instr.eeWriteWord 0x11#8 0#8 0#8).wf = false ∧ (Instr.eeWriteWord 0xFE#8 0#8 0#8).wf = false ∧
    (Instr.eeWriteWord 0x10#8 0xAA#8 0x55#8).wf = true := by decide

theorem test_wf_selector : (Instr.vthr 4#8).wf = false ∧ (Instr.vthr 3#8).wf = true := by decide

/-! ## Decoding: words written bit by bit from R66 and R68, opcode and operand bytes apart -/

theorem test_decode_registers :
    decode 0b00000001_00100000_00000000_00000000#32 = .ok (.readReg 0x20#8) ∧
    decode 0b00000010_11010000_00010000_00000000#32 = .ok (.writeReg 0xD0#8 0x10#8) ∧
    decode 0b00001000_00000000_00000000_00000000#32 = .ok .busInit ∧
    decode 0b00001001_00000000_00000000_00000000#32 = .ok .busClose := by decide

theorem test_decode_eeprom :
    decode 0b00010000_00000000_00000000_00000000#32 = .ok .eeBusy ∧
    decode 0b00010001_00000000_00000000_00000000#32 = .ok .eeLock ∧
    decode 0b00010010_01111010_00000000_00000000#32 = .ok (.eeReadWord 0x7A#8) ∧
    decode 0b00010011_00000000_00000000_00000000#32 = .ok .eeReadImage ∧
    decode 0b00010100_01111010_00110100_00010010#32 = .ok (.eeWriteWord 0x7A#8 0x34#8 0x12#8) ∧
    decode 0b00100000_00000000_00000000_00000000#32 = .ok .eeProgram := by decide

theorem test_decode_telemetry :
    decode 0b00110000_00000011_00000000_00000000#32 = .ok (.vcell 3#8) ∧
    decode 0b00110001_00000000_00000000_00000000#32 = .ok .rsense ∧
    decode 0b00110010_00000000_00000000_00000000#32 = .ok .icur ∧
    decode 0b00110011_00000010_00000000_00000000#32 = .ok (.vthr 2#8) ∧
    decode 0b00110100_00000000_00000000_00000000#32 = .ok .statusDecode ∧
    decode 0b00111000_00000001_00000000_00000000#32 = .ok (.dvolt 1#8 0#8) ∧
    decode 0b00111001_00001010_00000000_00000000#32 = .ok (.dsense 10#8) ∧
    decode 0b00111010_11101000_00000011_00011001#32 = .ok (.dcur 0xE8#8 0x03#8 25#8) ∧
    decode 0b01000000_00000000_00000000_00000000#32 = .ok .chkId := by decide

/-- V-ENC-1 to V-ENC-6: what is no command, by name, and what decodes although its operands are out of range. -/
theorem test_decode_refuses :
    decode 0x00000000#32 = .error .reservedOpcode ∧ decode 0x15000000#32 = .error .reservedOpcode ∧
    decode 0x35000000#32 = .error .reservedOpcode ∧ decode 0xFF000000#32 = .error .reservedOpcode ∧
    decode 0x01200001#32 = .error .reservedField ∧ decode 0x08000100#32 = .error .reservedField ∧
    decode 0x38FF0001#32 = .error .reservedField ∧
    decode 0x14FFFFFF#32 = .ok (.eeWriteWord 0xFF#8 0xFF#8 0xFF#8) := by decide

/-- R74: the examples, and what an assembler rejects. -/
theorem test_assemble :
    assemble "WRITE_REG" [0xD0, 0x10] = some (.writeReg 0xD0#8 0x10#8) ∧
    assemble "DCUR" [0xE8, 0x03, 25] = some (.dcur 0xE8#8 0x03#8 25#8) ∧
    assemble "VCELL" [256] = none ∧ assemble "VCELL" [] = none ∧ assemble "EE_LOCK" [0] = none := by decide

theorem test_table_word :
    decodeTableWord 32 0x30030000 = some (.vcell 3#8) ∧ decodeTableWord 40 0x30030000 = none := by decide

/-! ## Small states -/

/-- The test configuration TCFG of spec/95_test_vectors.md. -/
def tcfg : Config :=
  { regEeCtrl := 0xE0, regEeAddr := 0xE1, regEeRdOdd := 0xE2, regEeRdEven := 0xE3, regEeWrOdd := 0xE4,
    regEeWrEven := 0xE5, regAuthPwEven := 0xE6, regAuthPwOdd := 0xE7, regAuthStatus := 0xE8,
    authFailBit := 0, authOkBit := 1, authBusyBit := 2, regCellBase := 0x20, cellLoFirst := true,
    regCurrentLo := 0x40, regCurrentHi := 0x41, currentSigned := true, eeSenseAddr := 0x34,
    eeOvTh := 0x40, eeOvRel := 0x42, eeUvTh := 0x44, eeUvRel := 0x46, regShutdown := 0xD0,
    flagTable := [⟨.pfUnbalanced, 0xD0, 4⟩, ⟨.swShutdownReq, 0xD0, 0⟩, ⟨.overvoltage, 0xD1, 0⟩,
      ⟨.undervoltage, 0xD1, 1⟩],
    regDeviceId := 0xF0, knownIds := [0x89] }

/-- The block right after reset, with TCFG. -/
def fresh : State := { State.reset with config := tcfg }

/-- "Booted" of spec/95_test_vectors.md: CFG is 0x30 and the bus is open. -/
def booted : State := { fresh with cfgReg := 0x30#32, cfgWritten := true, busReady := true }

/-- The command word has just been accepted on a booted block. -/
def started (w : Word32) : State := accept w booted

/-- The command stands at a bus event, with these local variables and an answer that serves `b`. -/
def standing (w : Word32) (j : Nat) (beat : Beat) (v : Scratch) (b : Byte) : State :=
  { started w with pos := .at j beat, scratch := v, replies := [Reply.serving b] }

/-- The local variables with the byte of the transaction in progress. -/
def byteRead (b : Byte) : Scratch := { Scratch.clear with byte := b }

/-- The local variables with a word. -/
def wordRead (even odd : Byte) : Scratch := { Scratch.clear with even := even, odd := odd }

/-- What a test looks at in the next state, if there is one. -/
def after {α : Type} (f : State → α) : Out → Option α
  | .next t => some (f t)
  | .fault _ => none
  | .refused _ => none

/-- The newest bus event. -/
def newest (s : State) : Option BusEvent := s.logRev.head?

/-- A host access on a state. -/
def host (a : HostAction) (s : State) : State := { s with inbox := [a] }

/-! ## One step of each command -/

/-- V-REG-1, the last event: RES0 and STAT. -/
theorem test_read_reg_done :
    after (fun t => (t.statWord, t.res0)) (exec (.readReg 0x20) (standing 0x01200000 0 .stop (byteRead 0x5A) 0)) =
      some (0x00010302#32, holds 0x5A) := by decide

/-- V-REG-2, the last event: AckFail's BusStop, then TRANSPORT. -/
theorem test_read_reg_nack :
    after (fun t => (t.statWord, newest t)) (exec (.readReg 0x20) (standing 0x01200000 0 .ackFail Scratch.clear 0)) =
      some (0x00010213#32, some ⟨.stop, .ok⟩) := by decide

/-- V-REG-5: the bytes of the write. -/
theorem test_write_reg_bytes :
    after newest (exec (.writeReg 0x22 0x99) (standing 0x02229900 0 .send Scratch.clear 0)) =
      some (some ⟨.write [0x60, 0x22, 0x99], .ok⟩) := by decide

/-- V-REG-5: the end. -/
theorem test_write_reg_done :
    after (·.statWord) (exec (.writeReg 0x22 0x99) (standing 0x02229900 0 .stop Scratch.clear 0)) =
      some 0x00020202#32 := by decide

/-- V-LIFE-2. -/
theorem test_busInit_done :
    after (fun t => (t.statWord, t.clkRate))
      (exec .busInit
        { accept 0x08000000#32 { booted with busReady := false } with
          pos := .at 0 .start, replies := [{ Reply.serving 0 with clock := 400000 }] }) =
      some (0x00080302#32, holds 400000) := by decide

/-- V-LIFE-1: CFG was never written. -/
theorem test_busInit_unconfigured :
    after (fun t => (t.statWord, t.logRev)) (exec .busInit (accept 0x08000000#32 fresh)) =
      some (0x00080093#32, []) := by decide

/-- V-LIFE-6. -/
theorem test_busClose_done :
    after (fun t => (t.statWord, newest t)) (exec .busClose (standing 0x09000000 0 .start Scratch.clear 0)) =
      some (0x00090002#32, some ⟨.close, .ok⟩) := by decide

/-- V-EE-1. -/
theorem test_ee_busy_busy :
    after (fun t => (t.res0, t.res1)) (exec .eeBusy (standing 0x10000000 0 .stop (byteRead 0x80) 0)) =
      some (holds 0x80, holds 1) := by decide

/-- V-EE-2. -/
theorem test_ee_busy_idle :
    after (fun t => (t.res0, t.res1)) (exec .eeBusy (standing 0x10000000 0 .stop (byteRead 0x55) 0)) =
      some (holds 0x55, holds 0) := by decide

/-- V-EE-3: the idle mode is written. -/
theorem test_ee_lock_mode :
    after newest (exec .eeLock (standing 0x11000000 2 .send Scratch.clear 0)) =
      some (some ⟨.write [0x60, 0xE0, 0x00], .ok⟩) := by decide

/-- V-EE-5: the second busy answer with POLL_LIMIT = 2. -/
theorem test_ee_lock_timeout :
    after (·.statWord)
      (exec .eeLock { standing 0x11000000 1 .stop (byteRead 0x80) 0 with cfgReg := 0x00020030#32, pollCount := 1 }) =
      some 0x00110263#32 := by decide

/-- V-EE-8: the result. -/
theorem test_ee_read_word_result :
    after (·.res0) (exec (.eeReadWord 0x7A) (standing 0x127A0000 15 .start (wordRead 0x34 0x12) 0)) =
      some (holds 0x1234) := by decide

/-- V-EE-9. -/
theorem test_ee_read_word_odd :
    after (fun t => (t.phase, t.fcode, t.logRev)) (exec (.eeReadWord 0x7B) (started 0x127B0000)) =
      some (.fault, .illegalOperand, []) := by decide

/-- V-EE-17: word 0 goes to IMGBUF, even byte first. -/
theorem test_ee_read_image_word :
    after (fun t => (t.mem, t.res0)) (exec .eeReadImage (standing 0x13000000 15 .start (wordRead 0x0A 0x0B) 0)) =
      some ([(0x200, 0x0A), (0x201, 0x0B)], holds 1) := by decide +kernel

/-- V-EE-18: word 50 of a store of 100 bytes. -/
theorem test_ee_read_image_short :
    after (fun t => (t.fcode, t.res0))
      (exec .eeReadImage
        { standing 0x13000000 100 .start Scratch.clear 0 with selLatch := true, storeLen := 100, res0 := holds 50 }) =
      some (.input, holds 50) := by decide +kernel

/-- V-EE-13: the odd byte is written first. -/
theorem test_ee_write_word_odd_first :
    after newest (exec (.eeWriteWord 0x10 0xAA 0x55) (standing 0x1410AA55 8 .send Scratch.clear 0)) =
      some (some ⟨.write [0x60, 0xE4, 0x55], .ok⟩) := by decide

/-- V-EE-14. -/
theorem test_ee_write_word_odd_address :
    after (·.fcode) (exec (.eeWriteWord 0x11 0 0) (started 0x14110000)) = some .illegalOperand := by decide

/-- V-PROG-1. -/
theorem test_ee_program_length :
    after (fun t => (t.statWord, t.logRev))
      (exec .eeProgram (accept 0x20000000#32 { booted with busReady := false, srcLen := 127 })) =
      some (0x00200033#32, []) := by decide

/-- V-PROG-2: the verdict. -/
theorem test_ee_program_verdict :
    after (·.statWord)
      (exec .eeProgram
        { standing 0x20000000 24 .start { Scratch.clear with status := 0x01 } 0 with
          rvalid := true, authValid := true, authFail := true }) =
      some 0x00201B23#32 := by decide +kernel

/-- V-TEL-1, the result. -/
theorem test_vcell_result :
    after (fun t => (t.res0, t.res1, t.res2))
      (exec (.vcell 0) (standing 0x30000000 1 .stop { byteRead 0x01 with first := 0x00 } 0)) =
      some (holds 32, holds 3904, holds 0x100) := by decide

/-- V-TEL-3. -/
theorem test_vcell_index :
    after (·.fcode) (exec (.vcell 13) (accept 0x300D0000#32 fresh)) = some .precondition := by decide

/-- V-TEL-6. -/
theorem test_rsense_even :
    after (fun t => (t.res0, t.res1)) (exec .rsense (standing 0x31000000 15 .start (wordRead 0x19 0x35) 0)) =
      some (holds 25, holds 25) := by decide

/-- V-TEL-7. -/
theorem test_rsense_odd :
    after (·.res0)
      (exec .rsense
        { standing 0x31000000 15 .start (wordRead 0x19 0x35) 0 with config := { tcfg with eeSenseAddr := 0x35 } }) =
      some (holds 53) := by decide

/-- V-TEL-8. -/
theorem test_icur_result :
    after (fun t => (t.res0, t.res1, t.res2, t.res3))
      (exec .icur (standing 0x32000000 17 .start { wordRead 0x19 0x35 with first := 0xE8, second := 0x03 } 0)) =
      some (holds 1000, holds 25, holds 0x000BA478, holds 0x0003D090) := by decide

/-- P4 step 4: a negative current. -/
theorem test_icur_negative :
    after (fun t => (t.res0, t.res2))
      (exec .icur (standing 0x32000000 17 .start { wordRead 0x19 0x35 with first := 0x18, second := 0xFC } 0)) =
      some (holds 0xFC18, holds 0xFFF45B88) := by decide

/-- V-TEL-11. -/
theorem test_vthr_result :
    after (fun t => (t.res0, t.res1, t.res2))
      (exec (.vthr 0) (standing 0x33000000 15 .start (wordRead 0x10 0x70) 0)) =
      some (holds 3586, holds 437492, holds 0x7010) := by decide

/-- V-TEL-11e. -/
theorem test_vthr_selector :
    after (·.fcode) (exec (.vthr 4) (started 0x33040000)) = some .illegalOperand := by decide

/-- V-TEL-12: the unbalanced bit leads to the corrective write. -/
theorem test_status_unbalanced :
    after (fun t => (t.scratch.flagBits, t.pos)) (exec .statusDecode (standing 0x34000000 0 .stop (byteRead 0x10) 0)) =
      some (1, .at 1 .start) := by decide +kernel

/-- V-TEL-15: another bit of the shutdown register leads to no write. -/
theorem test_status_no_write :
    after (fun t => (t.scratch.flagBits, t.pos)) (exec .statusDecode (standing 0x34000000 0 .stop (byteRead 0x01) 0)) =
      some (2, .at 2 .start) := by decide +kernel

/-- V-LIFE-8: no bus is needed. -/
theorem test_dvolt_largest :
    after (fun t => (t.res0, t.res1, t.phase)) (exec (.dvolt 0xFF 0xFF) (accept 0x38FFFF00#32 fresh)) =
      some (holds 8191, holds 999302, .done) := by decide

/-- L1-1. -/
theorem test_dvolt_stat :
    after (fun t => (t.res0, t.res1, t.statWord)) (exec (.dvolt 0x01 0x00) (accept 0x38010000#32 fresh)) =
      some (holds 32, holds 3904, 0x00380102#32) := by decide

/-- L1-2. -/
theorem test_dsense_zero :
    after (fun t => (t.res0, t.res1)) (exec (.dsense 0) (started 0x39000000)) = some (holds 25, holds 0) := by decide

/-- L1-2. -/
theorem test_dsense_ten :
    after (fun t => (t.res0, t.res1)) (exec (.dsense 10) (started 0x390A0000)) = some (holds 10, holds 10) := by
  decide

/-- V-TEL-9. -/
theorem test_dcur_signed :
    after (fun t => (t.res0, t.res1, t.res2, t.res3)) (exec (.dcur 0xFF 0xFF 0) (started 0x3AFFFF00)) =
      some (holds 0xFFFF, holds 25, holds 0xFFFFFD05, holds 250000) := by decide

/-- V-TEL-10b. -/
theorem test_dcur_unsigned :
    after (fun t => (t.res2, t.res3))
      (exec (.dcur 0x00 0x80 10) { started 0x3A00800A with config := { tcfg with currentSigned := false } }) =
      some (holds 0x017D8000, holds 100000) := by decide

/-- V-ID-2. -/
theorem test_chk_id_unknown :
    after (fun t => (t.statWord, t.res0, t.res1)) (exec .chkId (standing 0x40000000 0 .stop (byteRead 0x00) 0)) =
      some (0x00400353#32, holds 0, holds 0) := by decide

/-- V-ID-3. -/
theorem test_chk_id_override :
    after (·.statWord)
      (exec .chkId { standing 0x40000000 0 .stop (byteRead 0x00) 0 with cfgReg := 0x00000230#32 }) =
      some 0x00400702#32 := by decide

/-! ## The host interface -/

/-- V-HOST-1. -/
theorem test_host_cfg :
    after (·.cfgReg) (step (host (.write 0x008 32 0xFFFFFFFF) fresh)) = some 0xFFFFF37F#32 := by decide

/-- V-LIFE-7: DEV_ADDR is frozen while the bus is open. -/
theorem test_host_cfg_frozen :
    after (·.cfgReg) (step (host (.write 0x008 32 0x00000031) booted)) = some 0x00000030#32 := by decide

/-- V-EE-19. -/
theorem test_host_store_len :
    after (·.storeLen) (step (host (.write 0x010 32 0x00001000) fresh)) = some 0x100#9 ∧
    after (·.storeLen) (step (host (.write 0x010 32 0x00010080) fresh)) = some 0x080#9 := by decide

/-- V-FLT-1. -/
theorem test_host_cmd_in_fault :
    after (fun t => (t.statWord, t.logRev))
      (step (host (.write 0x000 32 0x01200000) { booted with phase := .fault, fcode := .timeout })) =
      some (0x00000263#32, []) := by decide

/-- V-ENC-1: an accepted word that is no command. -/
theorem test_illegal_word : after (·.statWord) (step (started 0x00000000)) = some 0x00000273#32 := by decide

/-! ## Witnesses: for every obligation with hypotheses, states and operands that meet them together -/

/-- The buffer with base offset `base` filled with the bytes of `img`. -/
def filled (base : Nat) (img : Nat → Byte) : Memory := (List.range 128).map fun a => (base + a, img a)

/-- An image for the witnesses. -/
def image (a : Nat) : Byte := BitVec.ofNat 8 a

/-- A state whose script is the answers of some transactions. -/
def served (s : State) (xs : List Xfer) : State := { s with replies := serveAll xs ++ [] }

/-- The machine goes on. -/
def goesOn (o : Out) : Prop := ∃ t, o = .next t

theorem witness_EncodeInvertsDecode : decode 0x3AE80319#32 = .ok (.dcur 0xE8#8 0x03#8 0x19#8) := by decide

theorem witness_IllegalWordsFaultFirst :
    (∀ w ∈ [0x00000000#32, 0xFF000000#32, 0x08000100#32, 0x01200001#32, 0x38FF0001#32],
      (started w).phase = .running ∧ (started w).inbox = [] ∧ illegalWord (started w).latch) ∧
    ¬ illegalWord 0x14FFFFFF#32 ∧ ¬ illegalWord 0x40000000#32 := by
  refine ⟨fun w h => ⟨rfl, rfl, ?_⟩, by unfold illegalWord; decide, by unfold illegalWord; decide⟩
  fin_cases h <;> (unfold illegalWord; decide)

theorem witness_StepRunsDecodedCommand :
    ((started 0x01200000).phase = .running ∧ decode (started 0x01200000).latch = .ok (.readReg 0x20) ∧
      (started 0x01200000).inbox = [] ∧ (host .quiet (started 0x01200000)).inbox = .quiet :: []) ∧
    fresh.inbox = [] ∧ decode 0x38010000#32 = .ok (.dvolt 1 0) := by decide

theorem witness_OnlyTheListedTransitions :
    (∃ t, step (host .reset { booted with phase := .fault, fcode := .input }) = .next t ∧ t.phase ≠ .fault) ∧
    (∃ t, step (host (.write 0x000 32 0x38010000) fresh) = .next t ∧ t.phase ≠ .idle) ∧
    (∃ t, step (started 0x38010000) = .next t ∧ t.phase ≠ .running) :=
  ⟨⟨_, rfl, by decide⟩, ⟨_, rfl, by decide⟩, ⟨_, rfl, by decide⟩⟩

theorem witness_OneBusEventAStep :
    goesOn (step (standing 0x01200000 0 .start Scratch.clear 0)) ∧ goesOn (step fresh) := ⟨⟨_, rfl⟩, ⟨_, rfl⟩⟩

theorem witness_RunningCommandKeepsItsInputs :
    (∃ t, step (started 0x01200000) = .next t ∧ (started 0x01200000).phase = .running ∧ t.phase = .running) ∧
    (∃ t, step (host (.read 0x008 32) (started 0x01200000)) = .next t ∧ t.phase = .running) :=
  ⟨⟨_, rfl, by decide, by decide⟩, ⟨_, rfl, by decide⟩⟩

/-- A block in FAULT. -/
def faulted : State := { booted with phase := .fault, fcode := .transport }

theorem witness_FaultEndsOnlyByReset :
    faulted.phase = .fault ∧ goesOn (step faulted) ∧ (∀ rest, faulted.inbox ≠ .reset :: rest) ∧
    (host (.write 0x000 32 0x11000000) faulted).inbox = .write 0x000 32 0x11000000 :: [] :=
  ⟨rfl, ⟨_, rfl⟩, by simp [faulted, booted, fresh, State.reset], rfl⟩

theorem witness_ResetFromAnyState : (host .reset (started 0x11000000)).inbox = .reset :: [] := by decide

theorem witness_CommandAcceptance :
    (∀ s ∈ [fresh, { booted with phase := .done }, faulted, started 0x11000000],
      (host (.write 0x000 32 0x11000000) s).inbox = .write 0x000 32 0x11000000 :: [] ∧
      (host (.read 0x000 32) s).inbox = .read 0x000 32 :: []) ∧
    fresh.phase = .idle ∧ faulted.phase = .fault ∧ (started 0x11000000).phase = .running := by
  simp [host, fresh, faulted, started, booted, accept, State.reset]

theorem witness_CfgWriteFields :
    (host (.write 0x008 32 0xFFFFFFFF) booted).phase ≠ .running ∧
    (host (.write 0x008 32 0xFFFFFFFF) booted).inbox = .write 0x008 32 0xFFFFFFFF :: [] ∧
    booted.busReady = true ∧ fresh.busReady = false ∧ fresh.phase ≠ .running := by decide

theorem witness_StoreLenClamps :
    (∀ off ∈ [0x00C, 0x010], ∀ v ∈ [0#32, 256#32, 257#32, 0x10000#32],
      (host (.write off 32 v) fresh).inbox = .write off 32 v :: [] ∧
      (host (.write off 32 v) (started 0)).inbox = .write off 32 v :: []) ∧
    fresh.phase ≠ .running ∧ (started 0).phase = .running ∧
    (host (.read 0x010 32) fresh).inbox = .read 0x010 32 :: [] :=
  ⟨fun _ _ _ _ => ⟨rfl, rfl⟩, by decide, by decide, rfl⟩

theorem witness_RunningRefusesHostWrites :
    (started 0x11000000).phase = .running ∧
    ∀ a ∈ [((0x000, 32) : Nat × Nat), (0x008, 32), (0x00C, 32), (0x010, 32), (0x100, 8), (0x17F, 8), (0x300, 8), (0x3FF, 8)],
      (host (.write a.1 a.2 1) (started 0x11000000)).inbox = .write a.1 a.2 1 :: [] ∧
      ((a.2 = 32 ∧ (a.1 = 0x000 ∨ a.1 = 0x008 ∨ a.1 = 0x00C ∨ a.1 = 0x010)) ∨
        (a.2 = 8 ∧ ((0x100 ≤ a.1 ∧ a.1 ≤ 0x17F) ∨ (0x300 ≤ a.1 ∧ a.1 ≤ 0x3FF)))) := by decide

theorem witness_HostAccessWidths :
    (∀ a ∈ [((0x004, 16) : Nat × Nat), (0x0FE, 32), (0x0FF, 8), (0x100, 32), (0x400, 8)],
      (host (.write a.1 a.2 0) fresh).inbox = .write a.1 a.2 0 :: [] ∧
      (host (.read a.1 a.2) fresh).inbox = .read a.1 a.2 :: [] ∧
      ¬ ((a.1 ≤ 0x0FF ∧ a.1 % 4 = 0 ∧ a.2 = 32) ∨ (0x100 ≤ a.1 ∧ a.1 ≤ 0x3FF ∧ a.2 = 8))) ∧
    (∀ a ∈ [((0x000, 32) : Nat × Nat), (0x0FC, 32), (0x100, 8), (0x3FF, 8)],
      (host (.read a.1 a.2) fresh).inbox = .read a.1 a.2 :: [] ∧
      ((a.1 ≤ 0x0FF ∧ a.1 % 4 = 0 ∧ a.2 = 32) ∨ (0x100 ≤ a.1 ∧ a.1 ≤ 0x3FF ∧ a.2 = 8))) := by decide

theorem witness_ReservedReadZero :
    (∀ a ∈ [((0x02C, 32) : Nat × Nat), (0x0FC, 32), (0x180, 8), (0x1FF, 8), (0x280, 8), (0x2FF, 8)],
      ((a.2 = 32 ∧ a.1 % 4 = 0 ∧ 0x02C ≤ a.1 ∧ a.1 ≤ 0x0FF) ∨
        (a.2 = 8 ∧ ((0x180 ≤ a.1 ∧ a.1 ≤ 0x1FF) ∨ (0x280 ≤ a.1 ∧ a.1 ≤ 0x2FF)))) ∧
      (host (.read a.1 a.2) fresh).inbox = .read a.1 a.2 :: []) ∧
    (∀ off ∈ [0x004, 0x008, 0x00C, 0x010], booted.cfgReg &&& ~~~cfgMask = 0 ∧
      ∃ t x, step (host (.read off 32) booted) = .next t ∧ t.readsRev = ⟨off, x⟩ :: booted.readsRev) := by
  refine ⟨by decide, fun off h => ⟨by decide, ?_⟩⟩
  fin_cases h <;> exact ⟨_, _, rfl, rfl⟩

theorem witness_ReservedReadZero_write :
    (host (.write 0x008 32 0xFFFFFFFF) fresh).phase ≠ .running ∧
    (host (.write 0x008 32 0xFFFFFFFF) fresh).cfgReg &&& ~~~cfgMask = 0 ∧
    (host (.write 0x008 32 0xFFFFFFFF) fresh).inbox = .write 0x008 32 0xFFFFFFFF :: [] := by decide

theorem witness_StatFields :
    (host (.read 0x004 32) booted).inbox = .read 0x004 32 :: [] ∧
    (host (.write 0x004 32 0xFFFFFFFF) booted).inbox = .write 0x004 32 0xFFFFFFFF :: [] := by decide

/-- A finished block that holds results, the flags and a byte of each buffer. -/
def finished : State :=
  { booted with
    phase := .done, rvalid := true, res0 := holds 7, res1 := holds 8, res2 := holds 9, res3 := holds 10, flags := holds 1,
    clkRate := holds 2, mem := [(0x100, 3), (0x200, 5), (0x27F, 6), (0x300, 4), (0x3FF, 1)] }

theorem witness_ResultReads :
    (finished.phase ≠ .running ∧ finished.rvalid = true ∧
      ∀ r ∈ [finished.res0, finished.res1, finished.res2, finished.res3, finished.flags, finished.clkRate],
        r.written = true) ∧
    ((started 0).phase = .running ∧ fresh.rvalid = false ∧
      ∀ r ∈ [fresh.res0, fresh.res1, fresh.res2, fresh.res3, fresh.flags, fresh.clkRate], r.written = false) ∧
    (∀ off ∈ [0x100, 0x200, 0x27F, 0x300, 0x3FF], ∃ b, finished.mem.read off = some b) ∧
    (∀ off ∈ [0x100, 0x17F, 0x200, 0x27F, 0x300, 0x3FF],
      fresh.mem.read off = none ∧ (host (.read off 8) fresh).inbox = .read off 8 :: []) ∧
    ∀ off ∈ [0x004, 0x008, 0x00C, 0x014, 0x018, 0x01C, 0x020, 0x024, 0x028],
      (host (.read off 32) finished).inbox = .read off 32 :: [] := by
  refine ⟨by decide, by decide, fun off h => ?_, by decide, fun _ _ => rfl⟩
  fin_cases h <;> exact ⟨_, rfl⟩

theorem witness_BufferWrites :
    (∀ off ∈ [0x100, 0x17F, 0x200, 0x27F, 0x300, 0x3FF],
      (host (.write off 8 0xAB) fresh).inbox = .write off 8 0xAB :: []) ∧ fresh.phase ≠ .running ∧
    ∀ off ∈ [0x014, 0x018, 0x01C, 0x020, 0x024, 0x028],
      (host (.write off 32 0xAB) fresh).inbox = .write off 32 0xAB :: [] := by decide

theorem witness_ChecksInOrder :
    (started 0x300D0000).pos = .entry ∧
    checkFault (.vcell 13) (started 0x300D0000) = .precondition ∧
    checkFault (.eeReadWord 127) (started 0x127F0000) = .illegalOperand ∧
    checkFault .eeProgram (started 0x20000000) = .input ∧ checkFault .busInit (started 0x08000000) = .lifecycle ∧
    checkFault .chkId (accept 0x40000000#32 fresh) = .lifecycle ∧
    checkFault (.vcell 12) (started 0x300C0000) = .none ∧ (started 0x300C0000).pos = .entry ∧
    checkFault (.dsense 0) (started 0x39000000) = .none ∧ (started 0x39000000).pos = .entry := by decide

theorem witness_ErrIsTransport :
    ∃ t, exec (.readReg 0x20)
      { standing 0x01200000 0 .data Scratch.clear 0 with replies := [{ Reply.serving 0 with failed := true }] } =
        .next t ∧ t.logRev = ⟨.read true, .err⟩ :: [] := ⟨_, rfl, by decide⟩

/-- A ReadReg at one of its acknowledgements, which will not be given. -/
def unacknowledged (beat : Beat) : State :=
  { standing 0x01200000 0 beat Scratch.clear 0 with replies := [{ Reply.serving 0 with nack := true }] }

theorem witness_NackStopsThenFaults :
    (∃ t, exec (.readReg 0x20) (unacknowledged .ackSend) = .next t ∧ t.logRev = ⟨.getAck, .nack⟩ :: []) ∧
    (∃ t, exec (.readReg 0x20) (unacknowledged .ackRead) = .next t ∧ t.logRev = ⟨.getAck, .nack⟩ :: []) :=
  ⟨⟨_, rfl, by decide⟩, ⟨_, rfl, by decide⟩⟩

/-- For CommandsKeepHostState, StatusBitsHaveOneWriter and ResultRegisterFrame: steps that lead to a next state, of commands
with and without results. -/
theorem witness_frames :
    goesOn (exec .busClose (standing 0x09000000 0 .start Scratch.clear 0)) ∧
    goesOn (exec .eeLock (standing 0x11000000 2 .stop Scratch.clear 0)) ∧
    goesOn (exec (.dvolt 1 2) (started 0x38010200)) ∧ goesOn (exec (.vcell 3) (started 0x30030000)) ∧
    goesOn (exec .rsense (standing 0x31000000 15 .start (wordRead 0x19 0x35) 0)) :=
  ⟨⟨_, rfl⟩, ⟨_, rfl⟩, ⟨_, rfl⟩, ⟨_, rfl⟩, ⟨_, rfl⟩⟩

theorem witness_MemoryFrame :
    goesOn (exec .eeReadImage (standing 0x13000000 15 .start (wordRead 1 2) 0)) ∧ 15 = 0 * 16 + 15 ∧
    goesOn (exec .eeReadImage (standing 0x13000000 0 .start Scratch.clear 0)) ∧ 0 = 0 * 16 + 0 ∧
    goesOn (exec .eeReadImage { standing 0x13000000 127 .start (wordRead 1 2) 0 with selLatch := true }) ∧
      127 = 63 * 2 + 1 ∧
    goesOn (exec .eeReadImage (started 0x13000000)) ∧ goesOn (exec (.dvolt 1 2) (started 0x38010200)) :=
  ⟨⟨_, rfl⟩, rfl, ⟨_, rfl⟩, rfl, ⟨_, rfl⟩, rfl, ⟨_, rfl⟩, ⟨_, rfl⟩⟩

/-- For DvoltDsenseResults and DcurResult. -/
theorem witness_entry_results :
    (started 0x38010000).pos = .entry ∧ (started 0x39000000).pos = .entry ∧ (started 0x3AE80319).pos = .entry := by
  decide

theorem witness_BusLifecycleCompletes :
    (standing 0x08000000 0 .start Scratch.clear 0).pos = .at 0 .start ∧
    (standing 0x08000000 0 .start Scratch.clear 0).nextReply.failed = false ∧
    (let s := { accept 0x08000000#32 { booted with busReady := false } with replies := [Reply.serving 0] }
     s.nextReply.failed = false ∧ s.Accepted .busInit ∧ s.inbox = [] ∧ s.busReady = false ∧ s.cfgWritten = true) ∧
    (let s := { started 0x09000000 with replies := [Reply.serving 0] }
     s.nextReply.failed = false ∧ s.Accepted .busClose ∧ s.inbox = [] ∧ s.busReady = true) := by decide

theorem witness_ReadCommandsComplete :
    (standing 0x40000000 0 .stop (byteRead 0x89) 0).nextReply.failed = false ∧
    (standing 0x40000000 0 .stop (byteRead 0x89) 0).pos = .at 0 .stop ∧
    (standing 0x30000000 1 .stop (byteRead 1) 0).pos = .at 1 .stop ∧
    (0x89#8 ∈ tcfg.knownIds) ∧ (0x00#8 ∉ tcfg.knownIds) ∧ (0x00000230#32).getLsbD 9 = true := by decide

theorem witness_WriteCommandsComplete :
    (standing 0x02229900 0 .stop Scratch.clear 0).nextReply.failed = false ∧
    (standing 0x02229900 0 .stop Scratch.clear 0).pos = .at 0 .stop ∧
    (standing 0x11000000 2 .stop Scratch.clear 0).pos = .at 2 .stop ∧
    (standing 0x1410AA55 12 .stop Scratch.clear 0).pos = .at 12 .stop := by decide

theorem witness_WordCommandsComplete :
    let d := standing 0x31000000 15 .start (wordRead 0x19 0x35) 0
    let i := standing 0x32000000 17 .start (wordRead 0x19 0x35) 0
    d.pos = .at (if d.selLatch then 1 else 15) .start ∧ i.pos = .at (if i.selLatch then 3 else 17) .start ∧
    (let e := { standing 0x31000000 1 .start (wordRead 0x19 0x35) 0 with selLatch := true }
     e.pos = .at (if e.selLatch then 1 else 15) .start) := by decide

theorem witness_LongCommandsComplete :
    (let s := standing 0x13000000 1023 .start (wordRead 1 2) 0
     s.pos = .at (if s.selLatch then 127 else 1023) .start) ∧
    (let s := standing 0x20000000 987 .start (wordRead 1 2) 0
     s.pos = .at (if s.selLatch then 973 else 987) .start) ∧
    (let s := standing 0x34000000 3 .start Scratch.clear 0
     s.pos = .at ((linesStatusDecode s.config).length - 1) .start) := by decide +kernel

/-- A command of the store variant at a silent line, with an empty STORE of 256 bytes. -/
def unheldStore (w : Word32) (j : Nat) : State :=
  { standing w j .start Scratch.clear 0 with selLatch := true, storeLen := 256 }

theorem witness_ByteWithoutValueRefused :
    (∀ s ∈ [unheldStore 0x127E0000 0, unheldStore 0x32000000 2, unheldStore 0x13000000 126],
      s.selLatch = true ∧ 0x7E + 2 ≤ s.storeLen.toNat ∧ s.mem.read (0x300 + 0x7E) = none ∧
      s.mem.read (0x300 + tcfg.eeSenseAddr.toNat / 2 * 2) = none ∧ s.config = tcfg) ∧
    (unheldStore 0x127E0000 0).pos = .at 0 .start ∧ (unheldStore 0x32000000 2).pos = .at 2 .start ∧
    (unheldStore 0x13000000 126).pos = .at (2 * 63) .start ∧
    (let s := standing 0x20000000 973 .start Scratch.clear 0
     s.pos = .at ((if s.selLatch then 14 else 28) + 15 * 63) .start ∧ s.mem.read (0x100 + 2 * 63) = none) := by
  decide

theorem witness_ReadRegRun :
    let s := served (started 0x01200000) [.rd 0x20 0x5A]
    s.Accepted (.readReg 0x20) ∧ s.inbox = [] ∧ s.busReady = true ∧
    s.replies = List.replicate 9 (Reply.serving 0x5A) ++ [] ∧ (Reply.serving 0x5A).failed = false ∧
    (Reply.serving 0x5A).nack = false := by decide

theorem witness_WriteRegRun :
    let s := served (started 0x02229900) [.wr 0x22 0x99]
    s.Accepted (.writeReg 0x22 0x99) ∧ s.inbox = [] ∧ s.busReady = true ∧
    s.replies = List.replicate 3 (Reply.serving 0) ++ [] ∧ (Reply.serving 0).failed = false := by decide

theorem witness_LockWaitsForClear :
    let s := served { started 0x11000000 with cfgReg := 0x00020030#32 } ([.rd 0xE0 0x80] ++ lockXfers tcfg 0x00)
    s.Accepted .eeLock ∧ s.inbox = [] ∧ s.busReady = true ∧ (0x80#8).getLsbD 7 = true ∧ (0x00#8).getLsbD 7 = false ∧
    1 < s.pollLimit.toNat ∧ (started 0x11000000).pollLimit = 0 ∧
    s.replies = serveAll (List.replicate 1 (Xfer.rd s.config.regEeCtrl 0x80) ++ lockXfers s.config 0x00) ++ [] := by
  decide

theorem witness_PollTimesOut :
    let s := served { started 0x11000000 with cfgReg := 0x00020030#32 } [.rd 0xE0 0x80, .rd 0xE0 0x80]
    s.Accepted .eeLock ∧ s.inbox = [] ∧ s.busReady = true ∧ s.pollLimit ≠ 0 ∧
    s.replies = serveAll (List.replicate s.pollLimit.toNat (Xfer.rd s.config.regEeCtrl 0x80)) ++ [] := by decide

theorem witness_UnboundedPollRunsOn :
    let s := served (started 0x11000000) [.rd 0xE0 0x80, .rd 0xE0 0x80]
    s.Accepted .eeLock ∧ s.inbox = [] ∧ s.busReady = true ∧ (0x80#8).getLsbD 7 = true ∧ s.pollLimit = 0 ∧
    s.replies = serveAll (List.replicate 2 (Xfer.rd s.config.regEeCtrl 0x80)) ++ [] := by decide

theorem witness_ReadWordDeviceRun :
    let s := served (started 0x127E0000) (readWordXfers tcfg 0x00 0x7E 0x34 0x12)
    s.Accepted (.eeReadWord 0x7E) ∧ s.inbox = [] ∧ s.busReady = true ∧ s.selLatch = false ∧
    (0x7E#8).toNat % 2 = 0 ∧ (0x7E#8).toNat ≤ 126 ∧ (0x00#8).getLsbD 7 = false ∧
    s.replies = serveAll (readWordXfers s.config 0x00 0x7E 0x34 0x12) ++ [] :=
  ⟨by decide, rfl, rfl, rfl, by decide, by decide, by decide, rfl⟩

/-- The command has just been accepted with STORE_SEL = 1 on a block whose bus is not open. -/
def fromStore (w : Word32) (len : BitVec 9) (m : Memory) : State :=
  accept w { fresh with cfgReg := 0x100#32, storeLen := len, mem := m }

theorem witness_ReadWordStoreRun :
    (let s := fromStore 0x127A0000 0x7B []
     s.Accepted (.eeReadWord 0x7A) ∧ s.inbox = [] ∧ s.selLatch = true ∧ s.storeLen.toNat < (0x7A#8).toNat + 2) ∧
    (let s := fromStore 0x127A0000 0x7C [(0x37A, 0x34), (0x37B, 0x12)]
     s.Accepted (.eeReadWord 0x7A) ∧ (0x7A#8).toNat + 2 ≤ s.storeLen.toNat ∧
     s.mem.read (0x300 + (0x7A#8).toNat) = some 0x34 ∧ s.mem.read (0x300 + (0x7A#8).toNat + 1) = some 0x12) ∧
    (let s := fromStore 0x127A0000 0x7C [(0x37A, 0x34)]
     s.Accepted (.eeReadWord 0x7A) ∧ s.mem.read (0x300 + (0x7A#8).toNat + 1) = none) := by decide

theorem witness_ReadImageDeviceRun :
    let s := served (started 0x13000000) (readImageXfers tcfg 0x00 image)
    s.Accepted .eeReadImage ∧ s.inbox = [] ∧ s.busReady = true ∧ s.selLatch = false ∧ (0x00#8).getLsbD 7 = false ∧
    s.replies = serveAll (readImageXfers s.config 0x00 image) ++ [] :=
  ⟨by decide, rfl, rfl, rfl, by decide, rfl⟩

theorem witness_ReadImageStoreRun :
    (∀ len ∈ [0#9, 100#9, 128#9], let s := fromStore 0x13000000 len (filled 0x300 image)
      s.Accepted .eeReadImage ∧ s.inbox = [] ∧ s.selLatch = true) ∧
    ∀ a, a < 128 → (fromStore 0x13000000 128 (filled 0x300 image)).mem.read (0x300 + a) = some (image a) := by
  decide +kernel

theorem witness_WriteWordRun :
    let s := served (started 0x1410AA55) (writeWordXfers tcfg 0x00 0x10 0xAA 0x55)
    s.Accepted (.eeWriteWord 0x10 0xAA 0x55) ∧ s.inbox = [] ∧ s.busReady = true ∧
    (0x10#8).toNat % 2 = 0 ∧ (0x10#8).toNat ≤ 126 ∧
    s.replies = serveAll (writeWordXfers s.config 0x00 0x10 0xAA 0x55) ++ [] :=
  ⟨by decide, rfl, rfl, by decide, by decide, rfl⟩

/-- EE_PROGRAM has just been accepted with a whole image in SRCBUF. -/
def programStart : State := { started 0x20000000 with srcLen := 128, mem := filled 0x100 image }

/-- The same with the password read from a STORE of `len` bytes that holds the image. -/
def programFromStore (len : BitVec 9) : State :=
  { programStart with selLatch := true, storeLen := len, mem := filled 0x100 image ++ filled 0x300 image }

theorem witness_ProgramRun :
    (0x02#8).getLsbD tcfg.authOkBit = true ∧
    (let s := served programStart (readWordXfers tcfg 0x00 0x7A 0x34 0x12 ++ sessionXfers tcfg 0x00 0x34 0x12 0x02 ++
      rewriteXfers tcfg 0x00 image)
     (s.Accepted .eeProgram ∧ s.inbox = [] ∧ s.busReady = true ∧ s.srcLen = 128#16 ∧ s.passwordHeld 0x34 0x12) ∧
     (∀ a, a < 128 → s.mem.read (0x100 + a) = some (image a)) ∧
     s.replies = serveAll ((if s.selLatch then [] else readWordXfers s.config 0x00 0x7A 0x34 0x12) ++
      sessionXfers s.config 0x00 0x34 0x12 0x02 ++ rewriteXfers s.config 0x00 image) ++ []) ∧
    (let s := served (programFromStore 0x7C) (sessionXfers tcfg 0x00 0x7A 0x7B 0x02 ++ rewriteXfers tcfg 0x00 image)
     (s.Accepted .eeProgram ∧ s.inbox = [] ∧ s.busReady = true ∧ s.srcLen = 128#16 ∧ s.passwordHeld 0x7A 0x7B) ∧
     (∀ a, a < 128 → s.mem.read (0x100 + a) = some (image a)) ∧
     s.replies = serveAll ((if s.selLatch then [] else readWordXfers s.config 0x00 0x7A 0x7A 0x7B) ++
      sessionXfers s.config 0x00 0x7A 0x7B 0x02 ++ rewriteXfers s.config 0x00 image) ++ []) ∧
    (let s := programFromStore 0x7B
     s.Accepted .eeProgram ∧ s.inbox = [] ∧ s.busReady = true ∧ s.srcLen = 128#16 ∧ s.selLatch = true ∧
     s.storeLen.toNat < 0x7C) :=
  ⟨by decide, ⟨⟨by decide, rfl, rfl, rfl, fun h => nomatch h⟩, by decide +kernel, rfl⟩,
    ⟨⟨by decide, rfl, rfl, rfl, fun _ => by decide +kernel⟩, by decide +kernel, rfl⟩, by decide⟩

theorem witness_ProgramAuthFailure :
    (0x01#8).getLsbD tcfg.authOkBit = false ∧
    (let s := served programStart (readWordXfers tcfg 0x00 0x7A 0x34 0x12 ++ sessionXfers tcfg 0x00 0x34 0x12 0x01)
     (s.Accepted .eeProgram ∧ s.inbox = [] ∧ s.busReady = true ∧ s.srcLen = 128#16 ∧ s.passwordHeld 0x34 0x12) ∧
     s.replies = serveAll ((if s.selLatch then [] else readWordXfers s.config 0x00 0x7A 0x34 0x12) ++
      sessionXfers s.config 0x00 0x34 0x12 0x01) ++ []) ∧
    (let s := served (programFromStore 0x7C) (sessionXfers tcfg 0x00 0x7A 0x7B 0x01)
     (s.Accepted .eeProgram ∧ s.inbox = [] ∧ s.busReady = true ∧ s.srcLen = 128#16 ∧ s.passwordHeld 0x7A 0x7B) ∧
     s.replies = serveAll ((if s.selLatch then [] else readWordXfers s.config 0x00 0x7A 0x7A 0x7B) ++
      sessionXfers s.config 0x00 0x7A 0x7B 0x01) ++ []) :=
  ⟨by decide, ⟨⟨by decide, rfl, rfl, rfl, fun h => nomatch h⟩, rfl⟩,
    ⟨⟨by decide, rfl, rfl, rfl, fun _ => by decide +kernel⟩, rfl⟩⟩

theorem witness_VcellRun :
    let s := served (started 0x300C0000) [.rd 0x38 0xFF, .rd 0x39 0xFF]
    s.Accepted (.vcell 12) ∧ s.inbox = [] ∧ s.busReady = true ∧ (12#8).toNat ≤ 12 ∧
    s.config.regCellBase.toNat + 25 ≤ 255 ∧
    s.replies = serveAll [.rd (BitVec.ofNat 8 (s.config.regCellBase.toNat + 2 * (12#8).toNat)) 0xFF,
      .rd (BitVec.ofNat 8 (s.config.regCellBase.toNat + 2 * (12#8).toNat + 1)) 0xFF] ++ [] := by decide

theorem witness_BusyAndIdentityRuns :
    (let s := served (started 0x10000000) [.rd 0xE0 0x80]
     s.inbox = [] ∧ s.busReady = true ∧ s.Accepted .eeBusy ∧
     s.replies = serveAll [.rd s.config.regEeCtrl 0x80] ++ []) ∧
    (∀ b ∈ [0x89#8, 0x00#8], let s := served (started 0x40000000) [.rd 0xF0 b]
      s.Accepted .chkId ∧ s.replies = serveAll [.rd s.config.regDeviceId b] ++ []) ∧
    (0x89#8 ∈ tcfg.knownIds ∧ 0x00#8 ∉ tcfg.knownIds ∧ (started 0x40000000).cfgReg.getLsbD 9 = false ∧
      (0x00000230#32).getLsbD 9 = true) := by decide

theorem witness_SenseAndCurrentRuns :
    (let s := served (started 0x31000000) (readWordXfers tcfg 0x00 0x34 0x19 0x35)
     s.inbox = [] ∧ s.busReady = true ∧ s.selLatch = false ∧ s.Accepted .rsense ∧
     s.replies =
        serveAll (readWordXfers s.config 0x00 (s.config.eeSenseAddr.setWidth 8 &&& 0x7E#8) 0x19 0x35) ++ []) ∧
    (let s := served (started 0x32000000)
        ([Xfer.rd 0x40 0xE8, Xfer.rd 0x41 0x03] ++ readWordXfers tcfg 0x00 0x34 0x19 0x35)
     s.Accepted .icur ∧
     s.replies = serveAll ([Xfer.rd s.config.regCurrentLo 0xE8, Xfer.rd s.config.regCurrentHi 0x03] ++
        readWordXfers s.config 0x00 (s.config.eeSenseAddr.setWidth 8 &&& 0x7E#8) 0x19 0x35) ++ []) := by
  decide +kernel

/-- The store variant: the word at 0x34 just below STORE_LEN, and one byte above it. -/
theorem witness_SenseAndCurrentRuns_store :
    (∀ len ∈ [0x35#9, 0x36#9],
      let d := fromStore 0x31000000 len [(0x334, 0x19), (0x335, 0x35)]
      let i := served { d with latch := 0x32000000, busReady := true } [.rd 0x40 0xE8, .rd 0x41 0x03]
      d.inbox = [] ∧ d.selLatch = true ∧ d.Accepted .rsense ∧ i.inbox = [] ∧ i.selLatch = true ∧ i.Accepted .icur ∧
      i.busReady = true ∧
      i.replies = serveAll [Xfer.rd i.config.regCurrentLo 0xE8, Xfer.rd i.config.regCurrentHi 0x03] ++ [] ∧
      (let a := d.config.eeSenseAddr.toNat / 2 * 2
       d.mem.read (0x300 + a) = some 0x19 ∧ d.mem.read (0x300 + a + 1) = some 0x35)) ∧
    ¬ tcfg.eeSenseAddr.toNat / 2 * 2 + 2 ≤ (0x35#9).toNat ∧
    tcfg.eeSenseAddr.toNat / 2 * 2 + 2 ≤ (0x36#9).toNat := by decide +kernel

theorem witness_VthrRun :
    (let s := served (started 0x33000000) (readWordXfers tcfg 0x00 0x40 0x10 0x70)
     s.Accepted (.vthr 0) ∧ s.inbox = [] ∧ (0 = 0#8 ∧ 0x40#8 = s.config.eeOvTh) ∧ s.selLatch = false ∧
     s.busReady = true ∧ s.replies = serveAll (readWordXfers s.config 0x00 0x40 0x10 0x70) ++ []) ∧
    (let s := fromStore 0x33030000 0x48 [(0x346, 0xF8), (0x347, 0x51)]
     s.Accepted (.vthr 3) ∧ s.inbox = [] ∧ (3#8 = 3#8 ∧ 0x46#8 = s.config.eeUvRel) ∧ s.selLatch = true ∧
     (0x46#8).toNat + 2 ≤ s.storeLen.toNat ∧ s.mem.read (0x300 + (0x46#8).toNat) = some 0xF8 ∧
     s.mem.read (0x300 + (0x46#8).toNat + 1) = some 0x51) ∧
    (let s := fromStore 0x33030000 0x47 []
     s.Accepted (.vthr 3) ∧ s.inbox = [] ∧ (3#8 = 3#8 ∧ 0x46#8 = s.config.eeUvRel) ∧ s.selLatch = true ∧
     s.storeLen.toNat < (0x46#8).toNat + 2) := by decide +kernel

theorem witness_StatusDecodeRun :
    let s := served (started 0x34000000) (statusXfers tcfg fun _ => 0x10)
    s.Accepted .statusDecode ∧ s.inbox = [] ∧ s.busReady = true ∧ s.config.Legal ∧
    s.replies = serveAll (statusXfers s.config fun _ => 0x10) ++ [] :=
  ⟨by decide, rfl, rfl, by decide, rfl⟩

theorem witness_EepromCommandsEndLocked :
    let s := served (started 0x11000000) (lockXfers tcfg 0x00)
    s.Accepted .eeLock ∧ s.inbox = [] ∧ ∃ t, Sys2Proof.core.run 14 s = .next t ∧ t.phase = .done :=
  ⟨by decide, rfl, _, rfl, by decide⟩

theorem witness_BoundedPollsEnd :
    let s := { started 0x11000000 with cfgReg := 0x00020030#32 }
    s.Accepted .eeLock ∧ s.inbox = [] ∧ s.pollLimit ≠ 0 := by decide

/-- READ_REG in progress: its BusStart is the only event of the log. -/
def sending : State :=
  { standing 0x01200000 0 .send Scratch.clear 0 with logRev := [⟨.start, .ok⟩] }

/-- EE_LOCK before the BusStop of a poll that answered 0x00: the events of the poll are the newest of the log. -/
def polling : State :=
  { standing 0x11000000 1 .stop (byteRead 0x00) 0 with
    logRev := [⟨.read false, .byte 0⟩, ⟨.read true, .byte 0⟩, ⟨.getAck, .ack⟩, ⟨.write [0x61], .ok⟩, ⟨.start, .ok⟩,
      ⟨.getAck, .ack⟩, ⟨.write [0x60, 0xE0], .ok⟩, ⟨.start, .ok⟩] }

theorem sending_inv : sending.Inv where
  config_legal := by decide
  mem_wf := by decide
  cfg_reserved := by decide
  store_len := by decide
  fcode_fault := by decide
  pos_running := by decide
  scratch_clear := by decide
  bus_configured := by decide
  init_configured := by decide
  auth_valid := by decide
  rvalid_written := by decide
  position := ⟨.readReg 0x20, _, by decide, rfl, rfl⟩

theorem witness_StepKeepsInvariant : sending.Inv ∧ goesOn (step sending) := ⟨sending_inv, ⟨_, rfl⟩⟩

theorem witness_InvariantExcludesFault : sending.Inv := sending_inv

theorem witness_StepKeepsTransactionInLog : sending.Inv ∧ sending.InFlight ∧ goesOn (step sending) := by
  refine ⟨sending_inv, ?_, ⟨_, rfl⟩⟩
  intro i line hi hl
  have h : decode sending.latch = .ok (.readReg 0x20) := by decide
  rw [h] at hi
  cases hi
  cases hl
  exact ⟨[], rfl⟩

theorem polling_inv : polling.Inv where
  config_legal := by decide
  mem_wf := by decide
  cfg_reserved := by decide
  store_len := by decide
  fcode_fault := by decide
  pos_running := by decide
  scratch_clear := by decide
  bus_configured := by decide
  init_configured := by decide
  auth_valid := by decide
  rvalid_written := by decide
  position := ⟨.eeLock, _, by decide, rfl, rfl⟩

/-- The step of the witness ends before the write of EE_LOCK. -/
theorem witness_EepromWritesFollowPolls :
    ((∀ a v, Instr.eeProgram ≠ .writeReg a v) ∧ Instr.eeProgram ≠ .statusDecode) ∧
    polling.Inv ∧ polling.InFlight ∧ polling.FollowsPoll ∧
    ∃ t, step polling = .next t ∧ t.pos = .at 2 .start ∧ decode t.latch = .ok .eeLock := by
  have h : decode polling.latch = .ok .eeLock := by decide
  refine ⟨by simp, polling_inv, ?_, ?_, _, rfl, by decide, h⟩
  · intro i line hi hl
    rw [h] at hi
    cases hi
    cases hl
    exact ⟨0, [], rfl⟩
  · intro j i a v after hp
    cases hp

end Sys2Proof.Tests
end

/-!
PROOFS. The host interface (family 10_state.md): which location an access reaches (R19, R39), what a host access does
in one step, which host writes RUNNING refuses (R40), and that reserved offsets and fields read 0 (R42).
-/

namespace Sys2Proof.Machine

open Sys2Proof

/-! ## Which location an access reaches (R19, R39) -/

theorem hostLoc_reg {off : Nat} (hoff : off ≤ 0x0FF) (halign : off % 4 = 0) : hostLoc off 32 = some (regLoc off) := by
  simp [hostLoc, Nat.lt_succ_of_le hoff, halign]

theorem hostLoc_byte {off : Nat} (hlo : 0x100 ≤ off) (hhi : off ≤ 0x3FF) : hostLoc off 8 = some (byteLoc off) := by
  simp [hostLoc, Nat.not_lt.mpr hlo, Nat.lt_succ_of_le hhi]

/-- R39: the accesses that reach no location are those of another width, alignment or offset. -/
theorem hostLoc_eq_none_iff (off width : Nat) :
    hostLoc off width = none ↔
      ¬ ((off ≤ 0x0FF ∧ off % 4 = 0 ∧ width = 32) ∨ (0x100 ≤ off ∧ off ≤ 0x3FF ∧ width = 8)) := by
  unfold hostLoc
  split_ifs <;> simp only [true_iff, false_iff] <;> omega

theorem regLoc_reserved {off : Nat} (h : 0x02C ≤ off) : regLoc off = .reserved := by
  unfold regLoc
  split
  case h_12 => rfl
  all_goals omega

theorem byteLoc_srcbuf {off : Nat} (hhi : off ≤ 0x17F) : byteLoc off = .buffer .srcbuf :=
  if_pos (by omega)

theorem byteLoc_store {off : Nat} (hlo : 0x300 ≤ off) : byteLoc off = .buffer .store := by
  unfold byteLoc
  rw [if_neg (by omega), if_neg (by omega), if_neg (by omega), if_neg (by omega)]

theorem byteLoc_reserved {off : Nat} (h : (0x180 ≤ off ∧ off ≤ 0x1FF) ∨ (0x280 ≤ off ∧ off ≤ 0x2FF)) :
    byteLoc off = .reserved := by
  unfold byteLoc
  rcases h with h | h
  · rw [if_neg (by omega), if_pos (by omega)]
  · rw [if_neg (by omega), if_neg (by omega), if_neg (by omega), if_pos (by omega)]

/-! ## One step on a host access -/

section Access

variable {s : State} {off width : Nat} {v x : Word32} {loc : HostLoc} {rest : List HostAction}

theorem step_write (hin : s.inbox = .write off width v :: rest) (hloc : hostLoc off width = some loc) :
    step s = writeLoc loc off v { s with inbox := rest } := by
  rw [step_host hin (by simp)]
  simp [hostStep, hloc]

theorem step_read (hin : s.inbox = .read off width :: rest) (hloc : hostLoc off width = some loc) :
    step s = .next (hostRead loc off width { s with inbox := rest }) := by
  rw [step_host hin (by simp)]
  simp [hostStep, hloc]

/-- R39: an access that reaches no location is refused, write or read. -/
theorem step_access_illegal {a : HostAction} (ha : a = .write off width v ∨ a = .read off width)
    (hin : s.inbox = a :: rest) (hloc : hostLoc off width = none) : step s = .refused .hostAccessIllegal := by
  rcases ha with rfl | rfl <;> rw [step_host hin (by simp)] <;> simp [hostStep, hloc]

/-- A read of a location that has a value shows that value and changes nothing else (R180). -/
theorem step_read_shown (hin : s.inbox = .read off width :: rest) (hloc : hostLoc off width = some loc)
    (hv : readLoc loc off { s with inbox := rest } = some v) :
    step s = .next { s with inbox := rest, readsRev := ⟨off, v⟩ :: s.readsRev } := by
  rw [step_read hin hloc]
  simp [hostRead, hv]

/-- Any host read is observed, with a value of the location or a draw (R180). -/
theorem hostRead_observed (loc : HostLoc) (off width : Nat) (s : State) :
    ∃ x, (hostRead loc off width s).readsRev = ⟨off, x⟩ :: s.readsRev := by
  obtain ⟨v, -, h⟩ | ⟨-, h⟩ := hostRead_cases loc off width s <;> exact ⟨_, by rw [h]⟩

/-- The observation of a read of a location that has a value is that value. -/
theorem observed_eq_shown {t : State} (hin : s.inbox = .read off width :: rest) (hloc : hostLoc off width = some loc)
    (hv : readLoc loc off { s with inbox := rest } = some v) (hstep : step s = .next t)
    (hobs : t.readsRev = ⟨off, x⟩ :: s.readsRev) : x = v := by
  rw [step_read_shown hin hloc hv] at hstep
  cases hstep
  simpa using hobs.symm

end Access

/-! ## Host writes that RUNNING refuses (R40) -/

/-- The locations of R40. -/
def runningLocked : List HostLoc := [.cmd, .cfg, .srcLen, .storeLen, .buffer .srcbuf, .buffer .store]

theorem whenNotRunning_running {s : State} (h : s.phase = .running) (t : State) :
    whenNotRunning s t = .refused .hostWriteWhileRunning := if_pos h

theorem whenNotRunning_next {s : State} (h : s.phase ≠ .running) (t : State) :
    whenNotRunning s t = .next t := if_neg h

/-- R40: while RUNNING, exactly the writes of these locations are refused. -/
theorem writeLoc_running_refused_iff {s : State} (h : s.phase = .running) (loc : HostLoc) (off : Nat) (v : Word32) :
    writeLoc loc off v s = .refused .hostWriteWhileRunning ↔ loc ∈ runningLocked := by
  cases loc
  case buffer b => cases b <;> simp [writeLoc, whenNotRunning_running h, runningLocked]
  case cmd => simp [writeLoc, writeCmd, h, runningLocked]
  all_goals simp [writeLoc, whenNotRunning_running h, runningLocked]

theorem step_write_running {s : State} {off width : Nat} {v : Word32} {loc : HostLoc} {rest : List HostAction}
    (hrun : s.phase = .running) (hin : s.inbox = .write off width v :: rest)
    (hloc : hostLoc off width = some loc) (hlocked : loc ∈ runningLocked) :
    step s = .refused .hostWriteWhileRunning := by
  rw [step_write hin hloc]
  exact (writeLoc_running_refused_iff (s := { s with inbox := rest }) hrun loc off v).2 hlocked

/-- Settles O15: each listed access reaches a location of R40. -/
theorem runningRefusesHostWrites : Obligations.RunningRefusesHostWrites := by
  intro s off width v rest hrun hin hacc
  rcases hacc with ⟨rfl, hreg⟩ | ⟨rfl, ⟨hlo, hhi⟩ | ⟨hlo, hhi⟩⟩
  · rcases hreg with rfl | rfl | rfl | rfl <;> exact step_write_running hrun hin rfl (by decide)
  · have hloc : hostLoc off 8 = some (.buffer .srcbuf) := by rw [hostLoc_byte hlo (by omega), byteLoc_srcbuf hhi]
    exact step_write_running hrun hin hloc (by decide)
  · have hloc : hostLoc off 8 = some (.buffer .store) := by rw [hostLoc_byte (by omega) hhi, byteLoc_store hlo]
    exact step_write_running hrun hin hloc (by decide)

/-! ## Widths, alignments and offsets (R39) -/

/-- Settles O16: a legal access is one that reaches a location, whose read is observed whether or not it has a value. -/
theorem hostAccessWidths : Obligations.HostAccessWidths := by
  intro s off width v rest legal
  refine ⟨fun hbad hin => ?_, fun hbad hin => ?_, fun hlegal hin => ?_⟩
  · exact step_access_illegal (v := v) (.inl rfl) hin ((hostLoc_eq_none_iff off width).2 hbad)
  · exact step_access_illegal (v := v) (.inr rfl) hin ((hostLoc_eq_none_iff off width).2 hbad)
  · cases hloc : hostLoc off width with
    | none => exact absurd hlegal ((hostLoc_eq_none_iff off width).1 hloc)
    | some loc =>
      obtain ⟨x, hx⟩ := hostRead_observed loc off width { s with inbox := rest }
      exact ⟨_, x, step_read hin hloc, hx⟩

/-! ## Reserved offsets and fields (R42) -/

theorem hostLoc_reserved {off width : Nat}
    (h : (width = 32 ∧ off % 4 = 0 ∧ 0x02C ≤ off ∧ off ≤ 0x0FF) ∨
      (width = 8 ∧ ((0x180 ≤ off ∧ off ≤ 0x1FF) ∨ (0x280 ≤ off ∧ off ≤ 0x2FF)))) :
    hostLoc off width = some .reserved := by
  rcases h with ⟨rfl, halign, hlo, hhi⟩ | ⟨rfl, hoff⟩
  · rw [hostLoc_reg hhi halign, regLoc_reserved hlo]
  · rw [hostLoc_byte (by omega) (by omega), byteLoc_reserved hoff]

/-- R22: STAT's two reserved fields are 0: one lies just above STATE, the other above every field. -/
theorem statWord_reserved (s : State) : s.statWord.extractLsb' 2 2 = 0 ∧ s.statWord.extractLsb' 24 8 = 0 := by
  unfold State.statWord
  constructor
  · refine (BitVec.extractLsb'_append_eq_of_le (by decide)).trans ?_
    exact BitVec.extractLsb'_append_eq_of_add_le (by decide)
  · repeat refine (BitVec.extractLsb'_append_eq_of_le (by decide)).trans ?_
    rfl

/-- R20: the reserved bits of CFG are 7, 10 and 11. -/
theorem cfg_reserved_bits {c : Word32} (h : c &&& ~~~cfgMask = 0) : c.getLsbD 7 = false ∧ c.extractLsb' 10 2 = 0 := by
  have hbit (k : Nat) (hk : (~~~cfgMask).getLsbD k = true) : c.getLsbD k = false := by
    simpa [hk] using congrArg (·.getLsbD k) h
  refine ⟨hbit 7 (by decide), ?_⟩
  ext i hi
  interval_cases i
  · simpa using hbit 10 (by decide)
  · simpa using hbit 11 (by decide)

/-- R42: whatever CFG held, a write of it leaves its reserved bits 0. -/
theorem writeCfg_reserved (v : Word32) (s : State) : (writeCfg v s).cfgReg &&& ~~~cfgMask = 0 := by
  simp only [writeCfg]
  split
  · rw [BitVec.and_or_distrib_right, BitVec.and_assoc, BitVec.and_assoc]
    simp [cfgMask]
  · rw [BitVec.and_assoc]
    simp

/-- A zero-extended field is 0 above its width. -/
theorem extract_setWidth_above {n : Nat} (x : BitVec n) {w k : Nat} :
    (x.setWidth w).extractLsb' n k = 0 := by
  ext i hi
  simp

/-- The reserved fields of the four registers as a host read shows them (R42). -/
theorem reservedFields_read_zero {s t : State} {off : Nat} {rest : List HostAction} {x : Word32}
    (hcfg : s.cfgReg &&& ~~~cfgMask = 0) (hin : s.inbox = .read off 32 :: rest) (hstep : step s = .next t)
    (hobs : t.readsRev = ⟨off, x⟩ :: s.readsRev) :
    (off = 0x004 → x.extractLsb' 2 2 = 0 ∧ x.extractLsb' 24 8 = 0) ∧
    (off = 0x008 → x.getLsbD 7 = false ∧ x.extractLsb' 10 2 = 0) ∧
    (off = 0x00C → x.extractLsb' 16 16 = 0) ∧
    (off = 0x010 → x.extractLsb' 9 23 = 0) := by
  refine ⟨?_, ?_, ?_, ?_⟩ <;> rintro rfl
  · obtain rfl : x = s.statWord := observed_eq_shown hin rfl rfl hstep hobs
    exact statWord_reserved s
  · obtain rfl : x = s.cfgReg := observed_eq_shown hin rfl rfl hstep hobs
    exact cfg_reserved_bits hcfg
  · obtain rfl : x = s.srcLen.setWidth 32 := observed_eq_shown hin rfl rfl hstep hobs
    exact extract_setWidth_above s.srcLen
  · obtain rfl : x = s.storeLen.setWidth 32 := observed_eq_shown hin rfl rfl hstep hobs
    exact extract_setWidth_above s.storeLen

/-- Settles O17: a reserved location has the value 0 and no effect; a register's reserved field is 0 in its word. -/
theorem reservedReadZero : Obligations.ReservedReadZero := by
  refine ⟨?reservedOffset, ?reservedField, ?cfgWrite⟩
  case reservedOffset =>
    intro s off width v rest hres
    have hloc := hostLoc_reserved hres
    exact ⟨fun hin => step_write hin hloc, fun hin => step_read_shown hin hloc rfl⟩
  case reservedField =>
    intro s off rest t x hcfg hin hstep hobs
    exact reservedFields_read_zero hcfg hin hstep hobs
  case cfgWrite =>
    intro s v rest hidle _ hin
    refine ⟨writeCfg v { s with inbox := rest }, ?_, writeCfg_reserved v _⟩
    rw [step_write hin rfl]
    exact whenNotRunning_next hidle _

end Sys2Proof.Machine

/-!
PROOFS. Encoding (family 30_encoding.md): the opcode map by formats (R66, R68), and which words the decoder rejects
(R69, R70).
-/

namespace Sys2Proof.Machine

open Sys2Proof

/-! ## Opcodes and reserved bits of a format (R66, R68) -/

/-- The opcodes of each format, from the statements' four lists. -/
def opcodesOf : Format → List Byte
  | .n => opcodesN
  | .a => opcodesA
  | .ab => opcodesAB
  | .abc => opcodesABC

/-- How many low bits of the word a format reserves (R66): its unused operand fields lie at the bottom. -/
def reservedWidth : Format → Nat
  | .n => 24
  | .a => 16
  | .ab => 8
  | .abc => 0

/-- R68: the opcode map assigns every listed opcode, with the format whose list holds it. -/
theorem opcodeMap_of_mem {f : Format} {op : Byte} (h : op ∈ opcodesOf f) (a b c : Byte) :
    ∃ i, opcodeMap op a b c = some (f, i) := by
  cases f
  all_goals
    simp only [opcodesOf, opcodesN, opcodesA, opcodesAB, opcodesABC] at h
    fin_cases h <;> exact ⟨_, rfl⟩

/-- R68: an opcode that the map assigns is in the list of its format. -/
theorem mem_opcodesOf_of_opcodeMap {f : Format} {op a b c : Byte} {i : Instr}
    (h : opcodeMap op a b c = some (f, i)) : op ∈ opcodesOf f := by
  unfold opcodeMap at h
  split at h <;> cases h
  all_goals
    next hop => rw [show op = BitVec.ofNat 8 op.toNat by simp, hop]; decide

/-- R69: an opcode in no format's list is reserved. -/
theorem opcodeMap_eq_none {op : Byte} (h : ∀ f, op ∉ opcodesOf f) (a b c : Byte) : opcodeMap op a b c = none := by
  cases hm : opcodeMap op a b c with
  | none => rfl
  | some r => exact absurd (mem_opcodesOf_of_opcodeMap hm) (h r.1)

/-- R66: the reserved bits are the low ones. -/
theorem reserved_eq_allOnes (f : Format) : f.reserved = (BitVec.allOnes (reservedWidth f)).setWidth 32 := by
  cases f <;> decide

/-- R70: the decoder's mask test reads the reserved field. -/
theorem and_reserved_eq_zero_iff (w : Word32) (f : Format) :
    w &&& f.reserved = 0#32 ↔ w.extractLsb' 0 (reservedWidth f) = 0 := by
  have hle : reservedWidth f ≤ 32 := by cases f <;> decide
  rw [reserved_eq_allOnes]
  constructor
  · intro h
    ext k hk
    simpa [hk, show k < 32 by omega] using congrArg (·.getLsbD k) h
  · intro h
    ext k hk
    have hlow : k < reservedWidth f → w.getLsbD k = false := by simpa using congrArg (·.getLsbD k) h
    rw [← BitVec.getLsbD_eq_getElem]
    by_cases hkf : k < reservedWidth f <;> simp [hkf, hlow]

/-! ## What the decoder rejects (R69, R70) -/

/-- R68, R69: the assigned opcodes are those of the four formats. -/
theorem mem_assigned_iff (op : Byte) :
    op ∈ opcodesN ++ opcodesA ++ opcodesAB ++ opcodesABC ↔ ∃ f, op ∈ opcodesOf f := by
  simp only [List.mem_append]
  constructor
  · rintro (((h | h) | h) | h)
    exacts [⟨.n, h⟩, ⟨.a, h⟩, ⟨.ab, h⟩, ⟨.abc, h⟩]
  · rintro ⟨f, h⟩
    cases f
    exacts [.inl (.inl (.inl h)), .inl (.inl (.inr h)), .inl (.inr h), .inr h]

/-- The words that are no command, format by format; format ABC reserves no bit, so it has no clause of its own. -/
theorem illegalWord_iff (w : Word32) :
    illegalWord w ↔ (∀ f, fieldOp w ∉ opcodesOf f) ∨ ∃ f, fieldOp w ∈ opcodesOf f ∧ w &&& f.reserved ≠ 0#32 := by
  simp only [illegalWord, mem_assigned_iff, not_exists, ne_eq, and_reserved_eq_zero_iff]
  refine or_congr_right ⟨?_, ?_⟩
  · rintro (h | h | h)
    exacts [⟨.n, h⟩, ⟨.a, h⟩, ⟨.ab, h⟩]
  · rintro ⟨f, hop, hres⟩
    cases f with
    | n => exact .inl ⟨hop, hres⟩
    | a => exact .inr (.inl ⟨hop, hres⟩)
    | ab => exact .inr (.inr ⟨hop, hres⟩)
    | abc => exact absurd BitVec.of_length_zero hres

theorem decode_reservedOpcode {w : Word32} (h : ∀ f, fieldOp w ∉ opcodesOf f) : decode w = .error .reservedOpcode := by
  simp only [decode, opcodeMap_eq_none h]

theorem decode_assigned {w : Word32} {f : Format} (h : fieldOp w ∈ opcodesOf f) :
    ∃ i, decode w = if w &&& f.reserved = 0#32 then .ok i else .error .reservedField := by
  obtain ⟨i, hi⟩ := opcodeMap_of_mem h (fieldA w) (fieldB w) (fieldC w)
  exact ⟨i, by simp only [decode, hi]⟩

theorem decode_error_of_illegalWord {w : Word32} (h : illegalWord w) : ∃ e, decode w = .error e := by
  rcases (illegalWord_iff w).1 h with hop | ⟨f, hop, hres⟩
  · exact ⟨_, decode_reservedOpcode hop⟩
  · obtain ⟨i, hi⟩ := decode_assigned hop
    exact ⟨_, hi.trans (if_neg hres)⟩

theorem decode_ok_of_not_illegalWord {w : Word32} (h : ¬ illegalWord w) : ∃ i, decode w = .ok i := by
  rw [illegalWord_iff] at h
  push Not at h
  obtain ⟨⟨f, hop⟩, hres⟩ := h
  obtain ⟨i, hi⟩ := decode_assigned hop
  exact ⟨i, hi.trans (if_pos (hres f hop))⟩

/-- Settles O4: the illegal words are those the decoder rejects, and the step decodes before anything else. -/
theorem illegalWordsFaultFirst : Obligations.IllegalWordsFaultFirst := by
  refine ⟨fun s hrun hin hill => ?_, fun w hlegal => decode_ok_of_not_illegalWord hlegal⟩
  obtain ⟨e, he⟩ := decode_error_of_illegalWord hill
  rw [step_quiet hin, advance_illegal hrun he]
  rfl

end Sys2Proof.Machine

/-!
PROOFS. Register access (family 40_register_access.md): the bus event that each line issues at each beat (R83 to R85,
R88, R89), that a step of a command logs this event and no other, and what follows `err` (R79) and NACK (R84).
-/

namespace Sys2Proof.Machine

open Sys2Proof

/-! ## Only the bus event writes the bus log -/

/-- The bus log is the same in both states. -/
def SameLog (s t : State) : Prop := t.logRev = s.logRev

theorem Verdict.Keeps.mono {P Q : State → Prop} (hPQ : ∀ t, P t → Q t) {v : Verdict} (h : v.Keeps P) : v.Keeps Q := by
  cases v with
  | proceed t => exact hPQ t h
  | skip t => exact hPQ t h
  | again t => exact hPQ t h
  | raise c t => exact hPQ t h
  | refuse r => exact h

theorem silent_sameLog {act : State → Verdict} (h : ∀ t, (act t).Keeps (SameLog t)) :
    (Line.silent act).Keeps SameLog :=
  fun _ t hst => (h t).mono fun _ htu => htu.trans hst

theorem readReg_sameLog {a : Byte} {use : Byte → State → Verdict} (h : ∀ x t, (use x t).Keeps (SameLog t)) :
    (Line.readReg a use).Keeps SameLog :=
  fun _ t x hst => (h x t).mono fun _ htu => htu.trans hst

theorem readInto_sameLog {a : Byte} {use : Byte → State → State} (h : ∀ x t, SameLog t (use x t)) :
    (readInto a use).Keeps SameLog :=
  readReg_sameLog h

theorem writeTo_sameLog (a v : Byte) : (writeTo a v).Keeps SameLog := fun _ _ hst => hst

theorem pollReset_sameLog : (Line.silent pollReset).Keeps SameLog := silent_sameLog fun _ => rfl

theorem pollTest_sameLog (a : Byte) : (Line.readReg a pollTest).Keeps SameLog := by
  refine readReg_sameLog fun x t => ?_
  rcases pollTest_cases x t with ⟨-, e⟩ | ⟨-, e | e⟩ <;> rw [e] <;> exact rfl

theorem readWordStore_sameLog (a : Byte) : (Line.silent (readWordStore a)).Keeps SameLog := by
  refine silent_sameLog fun t => ?_
  rcases readWordStore_cases a t with e | e | ⟨even, odd, -, -, e⟩ <;> rw [e]
  · exact rfl
  · exact trivial
  · exact rfl

theorem fetchSourceWord_sameLog (k : Nat) : (Line.silent (fetchSourceWord k)).Keeps SameLog := by
  refine silent_sameLog fun t => ?_
  rcases fetchSourceWord_cases k t with e | ⟨even, odd, -, -, e⟩ <;> rw [e]
  · exact trivial
  · exact rfl

theorem verdictAuth_sameLog : (Line.silent verdictAuth).Keeps SameLog := by
  refine silent_sameLog fun t => ?_
  rcases verdictAuth_cases t with ⟨-, e⟩ | ⟨-, e⟩ <;> rw [e] <;> exact rfl

theorem checkIdentity_sameLog (a : Byte) : (Line.readReg a checkIdentity).Keeps SameLog := by
  refine readReg_sameLog fun x t => ?_
  simp only [checkIdentity]
  split
  · exact rfl
  · split <;> exact rfl

theorem shutdownRead_sameLog (a : Byte) :
    (Line.readReg a fun v s => if unbalancedBit v then .proceed (takeFlags a v s) else .skip (takeFlags a v s)).Keeps
      SameLog := by
  refine readReg_sameLog fun x t => ?_
  split <;> exact rfl

theorem linesReadWord_sameLog (s : State) (a : Byte) : ∀ line ∈ linesReadWord s a, line.Keeps SameLog :=
  linesReadWord_forall pollReset_sameLog (pollTest_sameLog _) writeTo_sameLog (fun _ => readInto_sameLog fun _ _ => rfl)
    (fun _ => readInto_sameLog fun _ _ => rfl) (readWordStore_sameLog a)

/-- A word read followed by the silent line that makes the result of it. -/
theorem linesReadWord_result_sameLog (s : State) (a : Byte) {result : State → Verdict}
    (h : ∀ t, (result t).Keeps (SameLog t)) : ∀ line ∈ linesReadWord s a ++ [.silent result], line.Keeps SameLog :=
  List.forall_mem_append.2 ⟨linesReadWord_sameLog s a, List.forall_mem_singleton.2 (silent_sameLog h)⟩

/-- No line of a command writes the bus log by what it does with its answers. -/
theorem linesOf_sameLog (i : Instr) (s : State) : ∀ line ∈ linesOf i s, line.Keeps SameLog := by
  cases i with
  | readReg a => exact List.forall_mem_singleton.2 (readInto_sameLog fun _ _ => rfl)
  | writeReg a v => exact List.forall_mem_singleton.2 (writeTo_sameLog a v)
  | busInit => exact List.forall_mem_singleton.2 fun _ _ _ hst => hst
  | busClose => exact List.forall_mem_singleton.2 fun _ _ hst => hst
  | eeBusy => exact List.forall_mem_singleton.2 (readInto_sameLog fun _ _ => rfl)
  | eeLock => exact linesLock_forall pollReset_sameLog (pollTest_sameLog _) writeTo_sameLog
  | eeReadWord a => exact linesReadWord_result_sameLog s a fun _ => rfl
  | eeReadImage =>
    exact linesEeReadImage_forall pollReset_sameLog (pollTest_sameLog _) writeTo_sameLog
      (fun _ => readInto_sameLog fun _ _ => rfl) (fun _ => readInto_sameLog fun _ _ => rfl) readWordStore_sameLog
      (fun _ _ => silent_sameLog fun _ => rfl)
  | eeWriteWord a even odd => exact linesWriteWord_forall pollReset_sameLog (pollTest_sameLog _) writeTo_sameLog
  | eeProgram =>
    exact linesEeProgram_forall pollReset_sameLog (pollTest_sameLog _) writeTo_sameLog
      (fun _ => readInto_sameLog fun _ _ => rfl) (fun _ => readInto_sameLog fun _ _ => rfl) readWordStore_sameLog
      (readInto_sameLog fun _ _ => rfl) verdictAuth_sameLog (fun k _ => fetchSourceWord_sameLog k)
      (fun _ _ => silent_sameLog fun _ => rfl)
  | vcell k =>
    exact List.forall_mem_cons.2 ⟨readInto_sameLog fun _ _ => rfl,
      List.forall_mem_singleton.2 (readInto_sameLog fun _ _ => rfl)⟩
  | rsense => exact linesReadWord_result_sameLog s _ fun _ => rfl
  | icur =>
    exact List.forall_mem_cons.2 ⟨readInto_sameLog fun _ _ => rfl,
      List.forall_mem_cons.2 ⟨readInto_sameLog fun _ _ => rfl, linesReadWord_result_sameLog s _ fun _ => rfl⟩⟩
  | vthr sel => exact linesReadWord_result_sameLog s _ fun _ => rfl
  | statusDecode =>
    exact linesStatusDecode_forall (shutdownRead_sameLog _) (fun _ _ hst => hst)
      (fun _ => readInto_sameLog fun _ _ => rfl) (silent_sameLog fun _ => rfl)
  | dvolt hi lo => exact List.forall_mem_nil _
  | dsense raw => exact List.forall_mem_nil _
  | dcur lo hi sense => exact List.forall_mem_nil _
  | chkId => exact List.forall_mem_singleton.2 (checkIdentity_sameLog _)

theorem needBus_sameLog (s : State) : (needBus s).Keeps (SameLog s) := by
  rcases needBus_cases s with ⟨-, e⟩ | ⟨-, e⟩ <;> rw [e] <;> exact rfl

theorem needBusForWord_sameLog (s : State) : (needBusForWord s).Keeps (SameLog s) := by
  rcases needBusForWord_cases s with ⟨-, e⟩ | ⟨-, -, e⟩ <;> rw [e] <;> exact rfl

theorem requireOperand_sameLog {legal : Bool} {c : FaultCode} {rest : State → Verdict} {s : State}
    (h : (rest s).Keeps (SameLog s)) : (requireOperand legal c rest s).Keeps (SameLog s) := by
  unfold requireOperand
  split
  · exact h
  · exact rfl

theorem startCount_sameLog {v : Verdict} {s : State} (h : v.Keeps (SameLog s)) : (startCount v).Keeps (SameLog s) := by
  cases v <;> exact h

/-- The checks of a command do not write the bus log. -/
theorem entryOf_sameLog (i : Instr) (s : State) : (entryOf i s).Keeps (SameLog s) := by
  cases i with
  | busInit => simp only [entryOf, entryBusInit]; split <;> exact rfl
  | eeReadWord a => exact requireOperand_sameLog (needBusForWord_sameLog s)
  | eeReadImage => exact startCount_sameLog (needBusForWord_sameLog s)
  | eeWriteWord a even odd => exact requireOperand_sameLog (needBus_sameLog s)
  | eeProgram =>
    simp only [entryOf, entryEeProgram]
    split
    · exact rfl
    · exact startCount_sameLog (needBus_sameLog s)
  | vcell k => exact requireOperand_sameLog (needBus_sameLog s)
  | rsense => exact needBusForWord_sameLog s
  | vthr sel => exact requireOperand_sameLog (needBusForWord_sameLog s)
  | statusDecode => exact needBus_sameLog { s with scratch := { s.scratch with flagBits := 0 } }
  | dvolt hi lo => exact rfl
  | dsense raw => exact rfl
  | dcur lo hi sense => exact rfl
  | readReg | writeReg | busClose | eeBusy | eeLock | icur | chkId => exact needBus_sameLog s

theorem settle_sameLog {n j : Nat} {v : Verdict} {s t : State} (hv : v.Keeps (SameLog s)) (h : settle n j v = .next t) :
    SameLog s t := by
  rcases settle_next h with ⟨u, rfl, rfl⟩ | ⟨u, rfl, rfl⟩ | ⟨u, rfl, rfl⟩ | ⟨c, u, rfl, rfl⟩
  · exact (goTo_logRev _ _ u).trans hv
  · exact (goTo_logRev _ _ u).trans hv
  · exact hv
  · exact hv

theorem settleEntry_sameLog {n : Nat} {v : Verdict} {s t : State} (hv : v.Keeps (SameLog s))
    (h : settleEntry n v = .next t) : SameLog s t := by
  rcases settleEntry_next h with ⟨u, rfl, rfl⟩ | ⟨u, rfl, rfl⟩ | ⟨u, rfl, rfl⟩ | ⟨c, u, rfl, rfl⟩
  · exact (goTo_logRev _ _ u).trans hv
  · exact (goTo_logRev _ _ u).trans hv
  · exact hv
  · exact hv

/-! ## The bus event of a line at a beat (R83 to R85, R88, R89) -/

/-- The primitive that a line issues at a beat in state `s`; none where the line has no such beat, and none for a
silent line. -/
def Line.prim (s : State) : Line → Beat → Option BusPrim
  | .busInit _, .start => some .init
  | .busClose _, .start => some .close
  | .readReg _ _, .start => some .start
  | .readReg a _, .send => some (.write [s.addrW, a])
  | .readReg _ _, .ackSend => some .getAck
  | .readReg _ _, .restart => some .start
  | .readReg _ _, .sendRead => some (.write [s.addrR])
  | .readReg _ _, .ackRead => some .getAck
  | .readReg _ _, .data => some (.read true)
  | .readReg _ _, .dummy => some (.read false)
  | .readReg _ _, .stop => some .stop
  | .readReg _ _, .ackFail => some .stop
  | .writeReg _ _ _, .start => some .start
  | .writeReg a v _, .send => some (.write [s.addrW, a, v])
  | .writeReg _ _ _, .stop => some .stop
  | _, _ => none

/-- Only ReadReg asks for an acknowledgement, at two of its beats. -/
theorem prim_getAck {s : State} {line : Line} {b : Beat} (h : line.prim s b = some .getAck) :
    ∃ a use, line = .readReg a use ∧ (b = .ackSend ∨ b = .ackRead) := by
  cases line with
  | readReg a use => cases b <;> simp_all [Line.prim]
  | busInit | busClose | writeReg | silent => cases b <;> simp [Line.prim] at h

/-- What a continuation of a bus event leads to has the bus log that it was given. -/
def KeepsLog (k : Reply → State → Out) : Prop := ∀ r u v, k r u = .next v → SameLog u v

theorem keepsLog_next {f : Reply → State → State} (h : ∀ r u, SameLog u (f r u)) :
    KeepsLog fun r u => .next (f r u) := fun r u _ hv => Host.Outcome.next.inj hv ▸ h r u

theorem keepsLog_settle {n j : Nat} {f : Reply → State → Verdict} (h : ∀ r u, (f r u).Keeps (SameLog u)) :
    KeepsLog fun r u => settle n j (f r u) := fun r u _ hv => settle_sameLog (h r u) hv

theorem keepsLog_ack {j : Nat} {b b' : Beat} :
    KeepsLog fun r u => .next (if r.nack then toBeat j b u else toBeat j b' u) :=
  keepsLog_next fun r u => by split <;> exact rfl

/-- A beat of a line that issues a bus event is one bus call, whose continuation logs nothing more. -/
theorem runLine_eq_busCall {line : Line} (hl : line.Keeps SameLog) {s : State} {b : Beat} {p : BusPrim}
    (hp : line.prim s b = some p) (n j : Nat) : ∃ k, runLine n j b line s = busCall p s k ∧ KeepsLog k := by
  cases line with
  | readReg a use =>
    simp only [runLine]
    cases b with
    | ackSend | ackRead => cases hp; rw [readRegBeat]; exact ⟨_, rfl, keepsLog_ack⟩
    | stop => cases hp; rw [readRegBeat]; exact ⟨_, rfl, keepsLog_settle fun _ u => hl u u _ rfl⟩
    | start | send | restart | sendRead | data | dummy | ackFail =>
      cases hp; rw [readRegBeat]; exact ⟨_, rfl, keepsLog_next fun _ _ => rfl⟩
  | writeReg a v after =>
    simp only [runLine]
    cases b with
    | start | send => cases hp; rw [writeRegBeat]; exact ⟨_, rfl, keepsLog_next fun _ _ => rfl⟩
    | stop => cases hp; rw [writeRegBeat]; exact ⟨_, rfl, keepsLog_settle fun _ u => hl u u rfl⟩
    | ackSend | restart | sendRead | ackRead | data | dummy | ackFail => cases hp
  | busInit use =>
    cases b <;> cases hp
    rw [runLine, if_pos rfl]
    exact ⟨_, rfl, keepsLog_settle fun r u => hl u u r.clock rfl⟩
  | busClose after =>
    cases b <;> cases hp
    rw [runLine, if_pos rfl]
    exact ⟨_, rfl, keepsLog_settle fun _ u => hl u u rfl⟩
  | silent act => cases b <;> cases hp

/-- A beat that issues no bus event logs none. -/
theorem runLine_sameLog {line : Line} (hl : line.Keeps SameLog) {s t : State} {b : Beat} {n j : Nat}
    (hp : line.prim s b = none) (h : runLine n j b line s = .next t) : SameLog s t := by
  cases line with
  | silent act =>
    simp only [runLine] at h
    split at h
    · exact settle_sameLog (hl s s rfl) h
    · cases h
  | readReg | writeReg | busInit | busClose => cases b <;> cases hp <;> cases h

/-- An answered bus event, `err` or not, is the newest of the bus log after its step. -/
theorem busCall_logRev {p : BusPrim} {s t : State} {k : Reply → State → Out} (hk : KeepsLog k)
    (h : busCall p s k = .next t) : t.logRev = ⟨p, answerOf p s.nextReply⟩ :: s.logRev := by
  rcases busCall_next h with ⟨-, rfl⟩ | ⟨-, h⟩
  · rfl
  · exact hk _ _ _ h

/-! ## The bus event of a step of a command -/

theorem exec_at {i : Instr} {s : State} {j : Nat} {b : Beat} {line : Line} (hp : s.pos = .at j b)
    (hl : (linesOf i s)[j]? = some line) : exec i s = runLine (linesOf i s).length j b line s := by
  rw [exec_eq_runCommand]
  simp only [runCommand, hp, hl]

/-- A step of a command that logs an event is the beat of a line that issues it, with the waiting answer. -/
theorem exec_logs {i : Instr} {s t : State} {e : BusEvent} (h : exec i s = .next t) (he : t.logRev = e :: s.logRev) :
    ∃ j b line p, s.pos = .at j b ∧ (linesOf i s)[j]? = some line ∧ line.prim s b = some p ∧
      e = ⟨p, answerOf p s.nextReply⟩ := by
  have changed : ¬ SameLog s t := fun same => List.cons_ne_self e s.logRev (he.symm.trans same)
  rw [exec_eq_runCommand] at h
  rcases runCommand_next h with ⟨-, h⟩ | ⟨j, b, line, hpos, hj, h⟩
  · exact absurd (settleEntry_sameLog (entryOf_sameLog i s) h) changed
  · have hl := linesOf_sameLog i s line (List.mem_of_getElem? hj)
    cases hp : line.prim s b with
    | none => exact absurd (runLine_sameLog hl hp h) changed
    | some p =>
      obtain ⟨k, hcall, hk⟩ := runLine_eq_busCall hl hp (linesOf i s).length j
      have hlog := busCall_logRev hk (hcall.symm.trans h)
      exact ⟨j, b, line, p, hpos, hj, hp, (List.cons.inj (he.symm.trans hlog)).1⟩

/-! ## `err` (R79) and NACK (R84) -/

theorem answerOf_eq_err_iff {p : BusPrim} {r : Reply} : answerOf p r = .err ↔ r.failed = true := by
  refine ⟨fun h => ?_, fun h => answerOf_failed h p⟩
  by_contra hf
  exact answerOf_ne_err (Bool.eq_false_iff.2 hf) p h

theorem answerOf_getAck_eq_nack {r : Reply} (h : answerOf .getAck r = .nack) : r.failed = false ∧ r.nack = true := by
  cases hf : r.failed <;> cases hn : r.nack <;> simp_all [answerOf]

theorem recordEvent_eq_logged (p : BusPrim) (s : State) : recordEvent p s = s.logged ⟨p, answerOf p s.nextReply⟩ := rfl

theorem raiseFault_eq_ended (c : FaultCode) (s : State) : raiseFault c s = s.ended .fault c := rfl

/-- Settles O22: the event is one bus call, and after `err` that call raises TRANSPORT without its continuation. -/
theorem errIsTransport : Obligations.ErrIsTransport := by
  intro i s t p h hlog
  obtain ⟨j, b, line, q, hpos, hj, hprim, hev⟩ := exec_logs h hlog
  obtain ⟨rfl, herr⟩ := BusEvent.mk.inj hev
  have hfailed : s.nextReply.failed = true := answerOf_eq_err_iff.1 herr.symm
  obtain ⟨k, hcall, -⟩ :=
    runLine_eq_busCall (linesOf_sameLog i s line (List.mem_of_getElem? hj)) hprim (linesOf i s).length j
  rw [exec_at hpos hj, hcall, busCall_failed hfailed, recordEvent_eq_logged, ← herr, raiseFault_eq_ended] at h
  exact (Host.Outcome.next.inj h).symm

/-- R84: after a NACK at either acknowledgement ReadReg stands at AckFail. -/
theorem readRegBeat_nack {s : State} (hf : s.nextReply.failed = false) (hn : s.nextReply.nack = true) {b : Beat}
    (hb : b = .ackSend ∨ b = .ackRead) (n j : Nat) (a : Byte) (use : Byte → State → Verdict) :
    readRegBeat n j a use b s = .next (toBeat j .ackFail (recordEvent .getAck s)) := by
  rcases hb with rfl | rfl <;> simp only [readRegBeat, busCall_ok hf, hn, if_true]

/-- R84: AckFail is BusStop and then TRANSPORT, whatever the answer is (R79 covers `err`). -/
theorem readRegBeat_ackFail (n j : Nat) (a : Byte) (use : Byte → State → Verdict) (s : State) :
    readRegBeat n j a use .ackFail s = .next (raiseFault .transport (recordEvent .stop s)) := by
  simp only [readRegBeat, busCall, ite_self]

/-- Settles O23: the NACK leaves the command at AckFail of the same ReadReg, whose one step is BusStop and TRANSPORT. -/
theorem nackStopsThenFaults : Obligations.NackStopsThenFaults := by
  intro i s t h hlog
  obtain ⟨j, b, line, p, hpos, hj, hprim, hev⟩ := exec_logs h hlog
  obtain ⟨rfl, hnack⟩ := BusEvent.mk.inj hev
  obtain ⟨hf, hn⟩ := answerOf_getAck_eq_nack hnack.symm
  obtain ⟨a, use, rfl, hb⟩ := prim_getAck hprim
  rw [exec_at hpos hj, runLine, readRegBeat_nack hf hn hb] at h
  obtain rfl := Host.Outcome.next.inj h
  have hlines : linesOf i (toBeat j .ackFail (recordEvent .getAck s)) = linesOf i s := by
    apply linesOf_congr <;> simp
  refine ⟨answerOf .stop (recordEvent .getAck s).nextReply, ?_, by simp⟩
  rw [exec_at (toBeat_pos ..) (hlines ▸ hj), runLine, readRegBeat_ackFail]
  rfl

end Sys2Proof.Machine

/-!
PROOFS. Telemetry decoding (family 43_telemetry_decoding.md): the sample and its value (R119, R122), the commands that
decode their operands only (R137 to R139), and the runs of VCELL (R123, R124) and STATUS_DECODE (R134 to R136).
-/

namespace Sys2Proof.Machine

open Sys2Proof

/-! ## The decode functions in the statements' words (R119, R122, R125, R129) -/

/-- R119: `hi << 5` has its low five bits 0 and `lo >> 3` is below 32, so the sum has no carry and is the or. -/
theorem sample_eq_or (hi lo : Byte) : sample hi lo = (lo.toNat >>> 3) ||| (hi.toNat <<< 5) := by
  have hlo : lo.toNat >>> 3 < 2 ^ 5 := by have := lo.isLt; rw [Nat.shiftRight_eq_div_pow]; omega
  rw [Nat.or_comm, ← Nat.shiftLeft_add_eq_or_of_lt hlo, Nat.shiftLeft_eq, Nat.shiftRight_eq_div_pow]
  rfl

/-- Settles O60: the or form is `sample_eq_or`, the bounds are those of the two bytes. -/
theorem sampleForms : Obligations.SampleForms := by
  intro hi lo
  have hhi := hi.isLt
  have hlo := lo.isLt
  refine ⟨?_, sample_eq_or hi lo, ?_, ?_, ?_, rfl, ?_⟩
  · rw [Nat.shiftLeft_eq, Nat.shiftRight_eq_div_pow]; rfl
  all_goals simp only [v10, sample]; omega

/-- R125: the sense value as a 32-bit register. -/
theorem senseValue_bits (raw : Byte) :
    BitVec.ofNat 32 (senseValue raw) = if raw = 0#8 then 25#32 else raw.setWidth 32 := by
  unfold senseValue
  split
  · next h => exact (if_pos h).symm
  · next h => exact (BitVec.ofNat_toNat 32 raw).trans (if_neg h).symm

/-- R129: the raw current is the 16-bit value read with or without sign. -/
theorem rawCurrent_eq (isSigned : Bool) (hi lo : Byte) :
    rawCurrent isSigned hi lo = if isSigned then (hi ++ lo : BitVec 16).toInt else (hi ++ lo : BitVec 16).toNat := by
  have hbytes : (hi ++ lo : BitVec 16).toNat = hi.toNat * 256 + lo.toNat := Laws.toNat_append_byte hi lo
  have hlo := lo.isLt
  cases isSigned with
  | false => simp [rawCurrent, hbytes]
  | true =>
    simp only [rawCurrent, BitVec.toInt_eq_toNat_cond, hbytes, BitVec.msb_eq_decide, Bool.and_true, decide_eq_true_eq,
      if_true]
    split_ifs <;> push_cast <;> omega

/-! ## Command words from their bytes (R65, R66) -/

/-- A word of four bytes decodes to the command that the opcode map gives them, when its reserved field is 0. -/
theorem decode_of_bytes {o a b c : Byte} {f : Format} {i : Instr} (hmap : opcodeMap o a b c = some (f, i))
    (hzero : (o ++ a ++ b ++ c : Word32).extractLsb' 0 (reservedWidth f) = 0) : decode (o ++ a ++ b ++ c) = .ok i := by
  obtain ⟨ho, ha, hb, hc⟩ := Laws.fields_of_bytes o a b c
  simp only [decode, ho, ha, hb, hc, hmap, (and_reserved_eq_zero_iff _ f).2 hzero, if_true]

theorem toNat_of_bytes (o a b c : Byte) :
    (o ++ a ++ b ++ c : Word32).toNat = ((o.toNat * 256 + a.toNat) * 256 + b.toNat) * 256 + c.toNat := by
  rw [← Laws.toNat_append_byte, ← Laws.toNat_append_byte, ← Laws.toNat_append_byte]

theorem decode_dvolt (hi lo : Byte) : decode (0x38#8 ++ hi ++ lo ++ 0#8) = .ok (.dvolt hi lo) :=
  decode_of_bytes (f := .ab) rfl (Laws.fields_of_bytes _ _ _ _).2.2.2

theorem decode_dsense (raw : Byte) : decode (0x39#8 ++ raw ++ 0#8 ++ 0#8) = .ok (.dsense raw) := by
  refine decode_of_bytes (f := .a) rfl (BitVec.eq_of_toNat_eq ?_)
  rw [BitVec.extractLsb'_toNat, toNat_of_bytes, Nat.shiftRight_zero]
  exact Nat.mod_eq_zero_of_dvd ⟨0x39 * 256 + raw.toNat, by simp only [reservedWidth, BitVec.toNat_ofNat]; omega⟩

theorem decode_dcur (lo hi raw : Byte) : decode (0x3A#8 ++ lo ++ hi ++ raw) = .ok (.dcur lo hi raw) :=
  decode_of_bytes (f := .abc) rfl BitVec.of_length_zero

/-! ## The commands without a bus event (R137 to R139) -/

/-- A command without lines is done in the step of its entry. -/
theorem exec_lineless {i : Instr} {s t : State} (hpos : s.pos = .entry) (hlines : linesOf i s = [])
    (hentry : entryOf i s = .proceed t) : exec i s = .next (finish t) := by
  rw [exec_eq_runCommand, runCommand, hpos]
  simp only [hlines, hentry]
  rfl

/-- Settles O28. -/
theorem dvoltDsenseResults : Obligations.DvoltDsenseResults := by
  refine ⟨decode_dvolt, decode_dsense, fun s hpos => ⟨fun hi lo => ?_, fun raw => ?_⟩⟩
  · exact exec_lineless (t := s.setVoltage hi lo) hpos rfl rfl
  · rw [exec_lineless (t := s.setSense raw) hpos rfl rfl, State.setSense, senseValue_bits]
    rfl

/-- Settles O29: the model's result with the two forms of the raw current in its place. -/
theorem dcurResult : Obligations.DcurResult := by
  refine ⟨decode_dcur, fun s lo hi raw hpos => ?_⟩
  rw [exec_lineless (t := s.setCurrent hi lo raw) hpos rfl rfl, State.setCurrent, rawCurrent_eq]
  rfl

/-! ## From line to line of a procedure -/

theorem goTo_line {n j : Nat} (h : j < n) (s : State) : goTo n j s = toBeat j .start s := if_pos h

theorem goTo_end {n j : Nat} (h : n ≤ j) (s : State) : goTo n j s = finish s := if_neg (Nat.not_lt.2 h)

/-- The state at BusStop of line `j`, whose ReadReg of `a` has answered `v` and left the answers `rest`. -/
@[simp] def State.behindRead (s : State) (j : Nat) (a v : Byte) (rest : List Reply) : State :=
  { s with
    replies := rest
    logRev := (Xfer.events s (.rd a v)).reverse ++ s.logRev
    scratch := { s.scratch with byte := v }
    pos := .at j .stop }

theorem behindRead_eq_onBus (s : State) (j : Nat) (a v : Byte) (rest : List Reply) :
    s.behindRead j a v rest = s.onBus rest ((Xfer.events s (.rd a v)).reverse ++ s.logRev) v (.at j .stop) := rfl

section Lines

variable {i : Instr} {s t : State} {j : Nat} {a v : Byte} {use : Byte → State → State} {rest : List Reply}

/-- An accepted command whose checks pass goes to its first line. -/
theorem reaches_first_line (hr : s.Runs i) (hp : s.pos = .entry) (he : entryOf i s = .proceed t)
    (hn : 0 < (linesOf i s).length) : Reaches s (toBeat 0 .start t) :=
  Reaches.of_step (by rw [step_at_entry hr hp, he, settleEntry, goTo_line hn])

/-- A line `b <- ReadReg(a)` served with `v` goes on with the next line. -/
theorem reaches_readInto (hr : s.Runs i) (hp : s.pos = .at j .start)
    (hl : (linesOf i s)[j]? = some (readInto a use)) (hs : s.replies = serveAll [.rd a v] ++ rest)
    (hn : j + 1 < (linesOf i s).length) : Reaches s (toBeat (j + 1) .start (use v (s.behindRead j a v rest))) :=
  run_rd hr hp hl hs (by rw [← behindRead_eq_onBus, settle, goTo_line hn])

/-- The last line of a procedure, where it is `b <- ReadReg(a)` served with `v`, completes the command. -/
theorem reaches_readInto_last (hr : s.Runs i) (hp : s.pos = .at j .start)
    (hl : (linesOf i s)[j]? = some (readInto a use)) (hs : s.replies = serveAll [.rd a v] ++ rest)
    (hn : (linesOf i s).length ≤ j + 1) : Reaches s (finish (use v (s.behindRead j a v rest))) :=
  run_rd hr hp hl hs (by rw [← behindRead_eq_onBus, settle, goTo_end hn])

end Lines

theorem serveAll_cons (x : Xfer) (xs : List Xfer) (rest : List Reply) :
    serveAll (x :: xs) ++ rest = serveAll [x] ++ (serveAll xs ++ rest) := by
  simp [serveAll]

/-- The bus events of transactions depend on the state only by CFG (R80). -/
theorem events_congr {s t : State} (h : t.cfgReg = s.cfgReg) : Xfer.events t = Xfer.events s := by
  funext x
  cases x <;> simp only [Xfer.events, State.addrW, State.addrR, State.devAddr, h]

/-! ## VCELL (R123, R124) -/

/-- R123: the registers of a cell, as 8-bit sums. -/
theorem cellRegA_eq (c : Config) (k : Byte) :
    cellRegA c k = BitVec.ofNat 8 (c.regCellBase.toNat + 2 * k.toNat) := by
  simp [cellRegA, BitVec.ofNat_add, BitVec.ofNat_mul]

theorem cellRegB_eq (c : Config) (k : Byte) :
    cellRegB c k = BitVec.ofNat 8 (c.regCellBase.toNat + 2 * k.toNat + 1) := by
  rw [BitVec.ofNat_add, ← cellRegA_eq]
  rfl

theorem cellPair_eq (c : Config) (first second : Byte) :
    cellPair c first second = (if c.cellLoFirst then second else first, if c.cellLoFirst then first else second) := by
  unfold cellPair
  split <;> rfl

/-- VCELL's result (R124): the sample of the pair, its value, and the raw pair. -/
theorem cellResult_eq {s : State} {first second hi lo : Byte} (h : cellPair s.config first second = (hi, lo)) :
    cellResult first second s =
      { s with
        res0 := holds (BitVec.ofNat 32 (hi.toNat * 32 + lo.toNat / 8))
        res1 := holds (BitVec.ofNat 32 ((hi.toNat * 32 + lo.toNat / 8) * 122))
        res2 := holds ((hi ++ lo : BitVec 16).setWidth 32)
        rvalid := true } := by
  unfold cellResult
  rw [h]
  rfl

/-- VCELL at its second line, once the first byte of the pair is read. -/
@[simp] def State.vcellSecond (s : State) (k first : Byte) (rest : List Reply) : State :=
  toBeat 1 .start (saveFirst first ((toBeat 0 .start s).behindRead 0 (cellRegA s.config k) first rest))

theorem vcell_reaches_second {s : State} {k first : Byte} {rest : List Reply} (ha : s.Accepted (.vcell k))
    (hin : s.inbox = []) (hbus : s.busReady = true) (hk : k.toNat ≤ 12)
    (hs : s.replies = serveAll [.rd (cellRegA s.config k) first] ++ rest) : Reaches s (s.vcellSecond k first rest) := by
  obtain ⟨hrun, hpos, hdec⟩ := ha
  have hentry : entryOf (.vcell k) s = .proceed s := by
    simp [entryOf, requireOperand, cellIndexLegal, hk, needBus, hbus]
  have start : Reaches s (toBeat 0 .start s) :=
    reaches_first_line ⟨hrun, hdec, hin⟩ hpos hentry (Nat.zero_lt_succ 1)
  exact start.trans
    (reaches_readInto (i := .vcell k) (s := toBeat 0 .start s) ⟨hrun, hdec, hin⟩ rfl rfl hs (Nat.lt_succ_self 1))

/-- Settles O48: the first line keeps the first byte, and the second completes the command. -/
theorem vcellRun : Obligations.VcellRun := by
  intro s k first second rest ha hin hbus hk _
  rw [← cellRegA_eq, ← cellRegB_eq]
  intro xs hi lo hs
  rw [serveAll_cons] at hs
  have toSecond := vcell_reaches_second ha hin hbus hk hs
  obtain ⟨hrun, -, hdec⟩ := ha
  let t := s.vcellSecond k first (serveAll [.rd (cellRegB s.config k) second] ++ rest)
  have hrt : t.Runs (.vcell k) := ⟨by simpa [t] using hrun, by simpa [t] using hdec, by simpa [t] using hin⟩
  have toDone := reaches_readInto_last (v := second) (rest := rest) hrt (j := 1) (by simp [t]) rfl (by simp [t])
    (Nat.le_refl 2)
  let u := t.behindRead 1 (cellRegB t.config k) second rest
  have hresult : cellResult u.scratch.first second u = _ :=
    cellResult_eq (by simpa [u, t] using cellPair_eq s.config first second)
  rw [hresult] at toDone
  refine toSecond.trans ?_
  simpa [xs, hi, lo, u, t, finish, State.ended, State.afterXfers, Xfer.events, State.addrW, State.addrR, State.devAddr]
    using toDone

/-! ## The registers of the flag table (R134) -/

theorem mem_flagRegs (c : Config) (r : Byte) : r ∈ flagRegs c ↔ ∃ e ∈ c.flagTable, e.reg = r := by
  have hbyte : r ∈ (List.range 256).map (BitVec.ofNat 8) :=
    List.mem_map.2 ⟨r.toNat, List.mem_range.2 r.isLt, by simp⟩
  simp [flagRegs, List.mem_filter, hbyte]

theorem flagRegs_ascending (c : Config) : (flagRegs c).Pairwise fun a b => a.toNat < b.toNat := by
  refine List.Pairwise.filter _ (List.pairwise_map.2 (List.pairwise_lt_range.imp_of_mem ?_))
  intro a b ha hb hab
  rw [List.mem_range] at ha hb
  simpa [Nat.mod_eq_of_lt ha, Nat.mod_eq_of_lt hb] using hab

/-- R7: the first entry of a legal flag table is on the shutdown register. -/
theorem shutdown_mem_flagRegs {c : Config} (h : c.Legal) : c.regShutdown ∈ flagRegs c := by
  obtain ⟨-, -, -, -, -, hhead, -⟩ := h
  exact (mem_flagRegs c _).2 ⟨_, List.mem_of_mem_head? hhead, rfl⟩

/-! ## FLAGS bit by bit (R136) -/

theorem getLsbD_setBit_self {k : Nat} (hk : k < 32) (f : Word32) (b : Bool) : (setBit f k b).getLsbD k = b := by
  unfold setBit
  split <;> simp [*]

theorem getLsbD_setBit_other {k m : Nat} (h : m ≠ k) (f : Word32) (b : Bool) :
    (setBit f k b).getLsbD m = f.getLsbD m := by
  have hbit : (1#32 <<< k).getLsbD m = false := by
    rw [BitVec.getLsbD_shiftLeft, BitVec.getLsbD_one]
    simp
    omega
  by_cases hm : m < 32
  · unfold setBit
    split
    · rw [BitVec.getLsbD_or, hbit, Bool.or_false]
    · rw [BitVec.getLsbD_and, BitVec.getLsbD_not, hbit]
      simp [hm]
  · rw [BitVec.getLsbD_of_ge _ _ (by omega), BitVec.getLsbD_of_ge _ _ (by omega)]

/-- A bit that belongs to no entry from entry `k` on keeps its value. -/
theorem getLsbD_latchFlags_outside (reg v : Byte) {m : Nat} :
    ∀ {k : Nat} {es : List FlagEntry} {f : Word32}, (m < k ∨ k + es.length ≤ m) →
      (latchFlags reg v k es f).getLsbD m = f.getLsbD m
  | _, [], _, _ => rfl
  | k, e :: es, f, h => by
    rw [List.length_cons] at h
    rw [latchFlags, getLsbD_latchFlags_outside reg v (by omega)]
    split
    · exact getLsbD_setBit_other (by omega) f _
    · rfl

/-- The bit of an entry is the register's bit when the entry is on that register, and keeps its value otherwise. -/
theorem getLsbD_latchFlags_entry (reg v : Byte) {e : FlagEntry} :
    ∀ {k m : Nat} {es : List FlagEntry} {f : Word32}, es[m]? = some e → k + m < 32 →
      (latchFlags reg v k es f).getLsbD (k + m) = if e.reg = reg then v.getLsbD e.bit else f.getLsbD (k + m)
  | k, 0, d :: es, f, he, hk => by
    obtain rfl : d = e := by simpa using he
    rw [latchFlags, getLsbD_latchFlags_outside reg v (by omega)]
    split
    · exact getLsbD_setBit_self hk f _
    · rfl
  | k, m + 1, d :: es, f, he, hk => by
    rw [latchFlags, show k + (m + 1) = k + 1 + m by omega,
      getLsbD_latchFlags_entry reg v (by simpa using he) (by omega)]
    split
    · rfl
    · split
      · exact getLsbD_setBit_other (by omega) f _
      · rfl

/-- F once the registers `regs` are read, register `r` answering `v r`, from the value `f` before. -/
def flagBitsFrom (c : Config) (v : Byte → Byte) (regs : List Byte) (f : Word32) : Word32 :=
  regs.foldl (fun g r => latchFlags r (v r) 0 c.flagTable g) f

theorem getLsbD_flagBitsFrom_outside (c : Config) (v : Byte → Byte) {m : Nat} (hm : c.flagTable.length ≤ m)
    (regs : List Byte) (f : Word32) : (flagBitsFrom c v regs f).getLsbD m = f.getLsbD m := by
  induction regs generalizing f with
  | nil => rfl
  | cons r regs ih =>
    exact (ih _).trans (getLsbD_latchFlags_outside r (v r) (.inr (by omega)))

/-- Each entry's bit comes from the read of its own register, wherever that stands in the order. -/
theorem getLsbD_flagBitsFrom_entry (c : Config) (v : Byte → Byte) {m : Nat} {e : FlagEntry}
    (he : c.flagTable[m]? = some e) (hm : m < 32) (regs : List Byte) (f : Word32) :
    (flagBitsFrom c v regs f).getLsbD m = if e.reg ∈ regs then (v e.reg).getLsbD e.bit else f.getLsbD m := by
  induction regs generalizing f with
  | nil => rfl
  | cons r regs ih =>
    have hr := getLsbD_latchFlags_entry r (v r) (k := 0) (f := f) he (by omega)
    rw [Nat.zero_add] at hr
    rw [flagBitsFrom, List.foldl_cons, ← flagBitsFrom, ih, hr]
    by_cases hmem : e.reg ∈ regs
    · simp [hmem]
    · by_cases hreg : e.reg = r <;> simp [hmem, hreg]

/-- FLAGS at the end is entry `k` as read in bit `k`. -/
theorem getLsbD_flags_entry {c : Config} (hc : c.Legal) (v : Byte → Byte) {k : Nat} {e : FlagEntry}
    (he : c.flagTable[k]? = some e) :
    (flagBitsFrom c v (flagRegs c) 0#32).getLsbD k = (v e.reg).getLsbD e.bit := by
  obtain ⟨-, -, -, -, hlen, -, -⟩ := hc
  have hk : k < c.flagTable.length := (List.getElem?_eq_some_iff.1 he).1
  have hmem : e.reg ∈ flagRegs c := (mem_flagRegs c _).2 ⟨e, List.mem_of_getElem? he, rfl⟩
  rw [getLsbD_flagBitsFrom_entry c v he (by omega), if_pos hmem]

/-- FLAGS at the end is 0 in the bits beyond the table. -/
theorem getLsbD_flags_beyond (c : Config) (v : Byte → Byte) {k : Nat} (he : c.flagTable[k]? = none) :
    (flagBitsFrom c v (flagRegs c) 0#32).getLsbD k = false := by
  rw [getLsbD_flagBitsFrom_outside c v (List.getElem?_eq_none_iff.1 he), BitVec.getLsbD_zero]

/-! ## STATUS_DECODE's lines (R134, R135) -/

/-- R135: the read of register `r` is followed by the corrective write. -/
def clearsUnbalanced (c : Config) (v : Byte → Byte) (r : Byte) : Bool := r = c.regShutdown && unbalancedBit (v r)

/-- The transactions for one register of the flag table. -/
def flagXfers (c : Config) (v : Byte → Byte) (r : Byte) : List Xfer :=
  .rd r (v r) :: if clearsUnbalanced c v r then [.wr r 0x10#8] else []

theorem statusXfers_eq (c : Config) (v : Byte → Byte) : statusXfers c v = (flagRegs c).flatMap (flagXfers c v) := by
  have hreg : ∀ r, .rd r (v r) :: (if r = c.regShutdown ∧ (v r).getLsbD 4 = true then [.wr r 0x10#8] else []) =
      flagXfers c v r := fun r => by simp [flagXfers, clearsUnbalanced, unbalancedBit]
  simp only [statusXfers, hreg]

/-- R135: where the shutdown register is read, the corrective write depends on its bit 4 alone. -/
theorem any_clearsUnbalanced {c : Config} (v : Byte → Byte) {regs : List Byte} (h : c.regShutdown ∈ regs) :
    regs.any (clearsUnbalanced c v) = (v c.regShutdown).getLsbD 4 := by
  rw [Bool.eq_iff_iff, List.any_eq_true]
  simp only [clearsUnbalanced, unbalancedBit, Bool.and_eq_true, decide_eq_true_eq]
  exact ⟨fun ⟨_, _, hr, hbit⟩ => hr ▸ hbit, fun hbit => ⟨_, h, rfl, hbit⟩⟩

/-- The read of the shutdown register `r`: with its unbalanced bit 0 the line of the corrective write is skipped. -/
def shutdownRead (r : Byte) : Line :=
  .readReg r fun b t => if unbalancedBit b then .proceed (takeFlags r b t) else .skip (takeFlags r b t)

/-- The corrective write to the shutdown register `r`. -/
def correctiveWrite (r : Byte) : Line := .writeReg r 0x10#8 fun t => { t with unbalCleared := true }

theorem linesFlagReg_shutdown {c : Config} {r : Byte} (h : r = c.regShutdown) :
    linesFlagReg c r = [shutdownRead r, correctiveWrite r] := if_pos h

theorem linesFlagReg_other {c : Config} {r : Byte} (h : r ≠ c.regShutdown) :
    linesFlagReg c r = [readInto r (takeFlags r)] := if_neg h

section StatusLines

variable {c : Config} {seen todo : List Byte} {r : Byte}

/-- The lines for register `r` stand behind those for the registers before it. -/
theorem linesStatusDecode_at (h : flagRegs c = seen ++ r :: todo) {k : Nat} (hk : k < (linesFlagReg c r).length) :
    (linesStatusDecode c)[(seen.flatMap (linesFlagReg c)).length + k]? = (linesFlagReg c r)[k]? := by
  rw [linesStatusDecode, h, List.flatMap_append, List.flatMap_cons, List.append_assoc, List.append_assoc,
    List.getElem?_append_right (Nat.le_add_right _ _), Nat.add_sub_cancel_left, List.getElem?_append_left hk]

/-- Behind the lines for a register there is another line. -/
theorem linesStatusDecode_goes_on (h : flagRegs c = seen ++ r :: todo) :
    (seen.flatMap (linesFlagReg c)).length + (linesFlagReg c r).length < (linesStatusDecode c).length := by
  rw [linesStatusDecode, h, List.flatMap_append, List.flatMap_cons]
  simp only [List.length_append, List.length_singleton]
  omega

theorem linesStatusDecode_last (c : Config) :
    (linesStatusDecode c)[((flagRegs c).flatMap (linesFlagReg c)).length]? = some (.silent flagsResult) := by
  rw [linesStatusDecode, List.getElem?_append_right (Nat.le_refl _), Nat.sub_self]
  rfl

theorem linesStatusDecode_length (c : Config) :
    (linesStatusDecode c).length = ((flagRegs c).flatMap (linesFlagReg c)).length + 1 := by
  rw [linesStatusDecode, List.length_append, List.length_singleton]

end StatusLines

/-! ## STATUS_DECODE's run (R134 to R136) -/

/-- STATUS_DECODE behind the lines for register `r`, which answered `v r`; `j` is the next line. -/
@[simp] def State.pastFlagReg (s : State) (v : Byte → Byte) (r : Byte) (j : Nat) (rest : List Reply) : State :=
  { s with
    replies := rest
    logRev := ((flagXfers s.config v r).flatMap (Xfer.events s)).reverse ++ s.logRev
    unbalCleared := s.unbalCleared || clearsUnbalanced s.config v r
    scratch := { s.scratch with
      byte := v r
      flagBits := latchFlags r (v r) 0 s.config.flagTable s.scratch.flagBits }
    pos := .at j .start }

section FlagReg

variable {s : State} {v : Byte → Byte} {r : Byte} {j : Nat} {rest : List Reply}

/-- A register that is not the shutdown register: one line, one read. -/
theorem reaches_past_otherReg (hr : s.Runs .statusDecode) (hp : s.pos = .at j .start) (h : r ≠ s.config.regShutdown)
    (hl : (linesStatusDecode s.config)[j]? = some (readInto r (takeFlags r)))
    (hn : j + 1 < (linesStatusDecode s.config).length) (hs : s.replies = serveAll (flagXfers s.config v r) ++ rest) :
    Reaches s (s.pastFlagReg v r (j + 1) rest) := by
  have hclear : clearsUnbalanced s.config v r = false := by simp [clearsUnbalanced, h]
  have hx : flagXfers s.config v r = [.rd r (v r)] := by simp [flagXfers, hclear]
  rw [hx] at hs
  simpa [hclear, hx, takeFlags, toBeat] using reaches_readInto hr hp hl hs hn

/-- The shutdown register with its unbalanced bit 0: the line of the corrective write is skipped. -/
theorem reaches_past_balanced (hr : s.Runs .statusDecode) (hp : s.pos = .at j .start)
    (hclear : clearsUnbalanced s.config v r = false) (hu : unbalancedBit (v r) = false)
    (hl : (linesStatusDecode s.config)[j]? = some (shutdownRead r))
    (hn : j + 2 < (linesStatusDecode s.config).length) (hs : s.replies = serveAll (flagXfers s.config v r) ++ rest) :
    Reaches s (s.pastFlagReg v r (j + 2) rest) := by
  have hx : flagXfers s.config v r = [.rd r (v r)] := by simp [flagXfers, hclear]
  rw [hx] at hs
  refine run_rd hr hp hl hs ?_
  rw [← behindRead_eq_onBus, hu, if_neg Bool.false_ne_true, settle, linesOf, goTo_line hn]
  simp [hclear, hx, takeFlags, toBeat]

/-- The shutdown register with its unbalanced bit 1: the read, then the corrective write. -/
theorem reaches_past_unbalanced (hr : s.Runs .statusDecode) (hp : s.pos = .at j .start)
    (hclear : clearsUnbalanced s.config v r = true) (hu : unbalancedBit (v r) = true)
    (hl : (linesStatusDecode s.config)[j]? = some (shutdownRead r))
    (hw : (linesStatusDecode s.config)[j + 1]? = some (correctiveWrite r))
    (hn : j + 2 < (linesStatusDecode s.config).length) (hs : s.replies = serveAll (flagXfers s.config v r) ++ rest) :
    Reaches s (s.pastFlagReg v r (j + 2) rest) := by
  have hx : flagXfers s.config v r = [.rd r (v r), .wr r 0x10#8] := by simp [flagXfers, hclear]
  rw [hx, serveAll_cons] at hs
  let t : State := toBeat (j + 1) .start (takeFlags r (v r) (s.behindRead j r (v r) (serveAll [.wr r 0x10#8] ++ rest)))
  have hread : Reaches s t := by
    refine run_rd hr hp hl hs ?_
    rw [← behindRead_eq_onBus, hu, if_pos rfl, settle, linesOf, goTo_line (by omega)]
  have hrt : t.Runs .statusDecode :=
    ⟨by simpa [t] using hr.running, by simpa [t] using hr.decodes, by simpa [t] using hr.alone⟩
  have hlines : linesOf .statusDecode t = linesStatusDecode s.config := by simp [t, linesOf]
  have hwrite := run_wr hrt (j := j + 1) (by simp [t]) (hlines ▸ hw) (rest := rest) (by simp [t])
  rw [hlines, goTo_line hn] at hwrite
  refine hread.trans ?_
  simpa [t, hclear, hx, takeFlags, toBeat, State.onBus, Xfer.events, State.addrW, State.addrR, State.devAddr]
    using hwrite

/-- STATUS_DECODE gets past each register of the flag table, whatever it answers. -/
theorem reaches_past_flagReg (hr : s.Runs .statusDecode) {seen todo : List Byte}
    (hregs : flagRegs s.config = seen ++ r :: todo)
    (hp : s.pos = .at (seen.flatMap (linesFlagReg s.config)).length .start)
    (hs : s.replies = serveAll (flagXfers s.config v r) ++ rest) :
    Reaches s (s.pastFlagReg v r ((seen ++ [r]).flatMap (linesFlagReg s.config)).length rest) := by
  have hline {k : Nat} := linesStatusDecode_at (c := s.config) hregs (k := k)
  have hn := linesStatusDecode_goes_on hregs
  rw [List.flatMap_append, List.flatMap_singleton, List.length_append]
  by_cases h : r = s.config.regShutdown
  · rw [linesFlagReg_shutdown h] at hline hn ⊢
    cases hu : unbalancedBit (v r) with
    | false =>
      exact reaches_past_balanced hr hp (by simp [clearsUnbalanced, hu]) hu (hline (k := 0) (by simp)) hn hs
    | true =>
      exact reaches_past_unbalanced hr hp (by simp [clearsUnbalanced, hu, ← h]) hu (hline (k := 0) (by simp))
        (hline (k := 1) (by simp)) hn hs
  · rw [linesFlagReg_other h] at hline hn ⊢
    exact reaches_past_otherReg hr hp h (hline (k := 0) (by simp)) hn hs

end FlagReg

/-- STATUS_DECODE once the registers `seen` are read: `byte` is the last byte read, and the answers `rest` are left. -/
@[simp] def State.decoding (s : State) (v : Byte → Byte) (seen : List Byte) (byte : Byte) (rest : List Reply) :
    State :=
  { s with
    replies := rest
    logRev := ((seen.flatMap (flagXfers s.config v)).flatMap (Xfer.events s)).reverse ++ s.logRev
    unbalCleared := s.unbalCleared || seen.any (clearsUnbalanced s.config v)
    scratch := { s.scratch with byte := byte, flagBits := flagBitsFrom s.config v seen 0#32 }
    pos := .at (seen.flatMap (linesFlagReg s.config)).length .start }

/-- One register more. -/
theorem decoding_pastFlagReg (s : State) (v : Byte → Byte) (seen : List Byte) (r byte : Byte) (rs rest : List Reply) :
    (s.decoding v seen byte rs).pastFlagReg v r ((seen ++ [r]).flatMap (linesFlagReg s.config)).length rest =
      s.decoding v (seen ++ [r]) (v r) rest := by
  have hevents : Xfer.events (s.decoding v seen byte rs) = Xfer.events s := events_congr rfl
  rw [State.pastFlagReg, hevents]
  simp [flagBitsFrom, Bool.or_assoc]

/-- From the registers `seen` on, STATUS_DECODE reads the registers `todo` in their order. -/
theorem reaches_decoding {s : State} (hr : s.Runs .statusDecode) (v : Byte → Byte) (rest : List Reply)
    (todo : List Byte) : ∀ (seen : List Byte) (byte : Byte), flagRegs s.config = seen ++ todo →
      ∃ byte', Reaches (s.decoding v seen byte (serveAll (todo.flatMap (flagXfers s.config v)) ++ rest))
        (s.decoding v (flagRegs s.config) byte' rest) := by
  induction todo with
  | nil =>
    intro seen byte h
    rw [List.append_nil] at h
    exact ⟨byte, h ▸ Reaches.refl _⟩
  | cons r todo ih =>
    intro seen byte h
    let rest' := serveAll (todo.flatMap (flagXfers s.config v)) ++ rest
    have hsplit : serveAll ((r :: todo).flatMap (flagXfers s.config v)) ++ rest =
        serveAll (flagXfers s.config v r) ++ rest' := by simp [rest', serveAll]
    rw [hsplit]
    have here : (s.decoding v seen byte (serveAll (flagXfers s.config v r) ++ rest')).Runs .statusDecode :=
      ⟨hr.running, hr.decodes, hr.alone⟩
    have past := reaches_past_flagReg (v := v) (r := r) (rest := rest') here h rfl rfl
    obtain ⟨byte', onward⟩ := ih (seen ++ [r]) (v r) (by simpa using h)
    exact ⟨byte', (decoding_pastFlagReg .. ▸ past).trans onward⟩

/-- The last line puts F into FLAGS and completes the command. -/
theorem reaches_flags_done {s : State} (hr : s.Runs .statusDecode)
    (hp : s.pos = .at ((flagRegs s.config).flatMap (linesFlagReg s.config)).length .start) :
    Reaches s (finish (s.setFlags s.scratch.flagBits)) :=
  run_silent hr hp (linesStatusDecode_last s.config)
    (by rw [flagsResult, settle, linesOf, goTo_end (Nat.le_of_eq (linesStatusDecode_length s.config))])

/-- Settles O52: the list of registers, then the run through it and the line of FLAGS. -/
theorem statusDecodeRun : Obligations.StatusDecodeRun := by
  refine ⟨fun c => ⟨flagRegs_ascending c, mem_flagRegs c⟩, ?_⟩
  intro s v rest ⟨hrun, hpos, hdec⟩ hin hbus hlegal hs
  rw [statusXfers_eq] at hs ⊢
  have hr : s.Runs .statusDecode := ⟨hrun, hdec, hin⟩
  have hentry : entryOf .statusDecode s = .proceed { s with scratch := { s.scratch with flagBits := 0 } } := by
    simp [entryOf, entryStatusDecode, needBus, hbus]
  have hlines : 0 < (linesOf .statusDecode s).length := by
    rw [linesOf, linesStatusDecode_length]
    exact Nat.succ_pos _
  have start : Reaches s (s.decoding v [] s.scratch.byte s.replies) := by
    simpa [flagBitsFrom, toBeat] using reaches_first_line hr hpos hentry hlines
  obtain ⟨byte, through⟩ := reaches_decoding hr v rest (flagRegs s.config) [] s.scratch.byte rfl
  rw [← hs] at through
  have last := reaches_flags_done (s := s.decoding v (flagRegs s.config) byte rest) ⟨hrun, hdec, hin⟩ rfl
  refine ⟨flagBitsFrom s.config v (flagRegs s.config) 0#32, ?_, fun k => ?_⟩
  · have run := (start.trans through).trans last
    simpa [finish, State.setFlags, State.ended, State.afterXfers, OutReg.holding, holds,
      any_clearsUnbalanced v (shutdown_mem_flagRegs hlegal)] using run
  · split
    · next e he => exact getLsbD_flags_entry hlegal v he
    · next he => exact getLsbD_flags_beyond s.config v he

end Sys2Proof.Machine

/-!
PROOFS. Encoding (family 30_encoding.md): the opcode map in both directions, and that decoding and encoding undo each
other (R65, R66, R68, R76).
-/

namespace Sys2Proof.Machine

open Sys2Proof

/-! ## The operands that a format uses (R66) -/

/-- The operand bytes with the fields that the format reserves set to 0. -/
def operandsUsed : Format → Byte × Byte × Byte → Byte × Byte × Byte
  | .n, _ => (0, 0, 0)
  | .a, (a, _, _) => (a, 0, 0)
  | .ab, (a, b, _) => (a, b, 0)
  | .abc, x => x

/-- R66, R70: a word of four bytes has its reserved field 0 exactly when the operand bytes that its format reserves are 0. -/
theorem reserved_zero_iff (o a b c : Byte) (f : Format) :
    (o ++ a ++ b ++ c : Word32) &&& f.reserved = 0#32 ↔ operandsUsed f (a, b, c) = (a, b, c) := by
  have ha := a.isLt
  have hb := b.isLt
  have hc := c.isLt
  rw [and_reserved_eq_zero_iff]
  cases f with
  | abc => exact iff_of_true BitVec.of_length_zero rfl
  | n | a | ab =>
    rw [← BitVec.toNat_inj, BitVec.extractLsb'_toNat, toNat_of_bytes, Nat.shiftRight_zero]
    simp only [operandsUsed, reservedWidth, Prod.mk.injEq, ← BitVec.toNat_inj, BitVec.ofNat_eq_ofNat,
      BitVec.toNat_ofNat, true_and]
    omega

/-! ## The opcode map in both directions (R68) -/

theorem opcodeMap_of_instr (i : Instr) :
    ∃ f, opcodeMap (opcodeOf i) (operandsOf i).1 (operandsOf i).2.1 (operandsOf i).2.2 = some (f, i) := by
  cases i <;> exact ⟨_, rfl⟩

/-- A command that the map gives has the opcode, and the operands that its format uses. -/
theorem instr_of_opcodeMap {o a b c : Byte} {f : Format} {i : Instr} (h : opcodeMap o a b c = some (f, i)) :
    opcodeOf i = o ∧ operandsOf i = operandsUsed f (a, b, c) := by
  unfold opcodeMap at h
  split at h <;> cases h
  all_goals
    next hop => exact ⟨BitVec.eq_of_toNat_eq hop.symm, rfl⟩

/-! ## Decoding and encoding -/

/-- A word is its four fields (R65). -/
theorem word_of_fields (w : Word32) : fieldOp w ++ fieldA w ++ fieldB w ++ fieldC w = w := by
  have hw := w.isLt
  apply BitVec.eq_of_toNat_eq
  rw [toNat_of_bytes]
  simp only [fieldOp, fieldA, fieldB, fieldC, BitVec.extractLsb'_toNat, Nat.shiftRight_eq_div_pow]
  omega

/-- R76: a word decodes to a command exactly when the opcode map gives the command and the reserved operands are 0. -/
theorem decode_eq_ok_iff (w : Word32) (i : Instr) :
    decode w = .ok i ↔ ∃ f, opcodeMap (fieldOp w) (fieldA w) (fieldB w) (fieldC w) = some (f, i) ∧
      operandsUsed f (fieldA w, fieldB w, fieldC w) = (fieldA w, fieldB w, fieldC w) := by
  simp only [← reserved_zero_iff (fieldOp w), word_of_fields, decode]
  split
  · next h => simp [h]
  · next f j h =>
    rw [h]
    constructor
    · intro hd
      split at hd <;> cases hd
      exact ⟨f, rfl, ‹_›⟩
    · rintro ⟨f', hf, hres⟩
      cases hf
      exact if_pos hres

/-- Settles O1: the map gives the command with the operands its format uses, which are the bytes of its word. -/
theorem decodeInvertsEncode : Obligations.DecodeInvertsEncode := by
  intro i
  obtain ⟨ho, ha, hb, hc⟩ := Laws.fields_of_bytes (opcodeOf i) (operandsOf i).1 (operandsOf i).2.1 (operandsOf i).2.2
  obtain ⟨f, hf⟩ := opcodeMap_of_instr i
  rw [decode_eq_ok_iff, encode, ho, ha, hb, hc]
  exact ⟨f, hf, (instr_of_opcodeMap hf).2.symm⟩

/-- Settles O2: the reserved operands are 0, so the command's bytes are the word's fields. -/
theorem encodeInvertsDecode : Obligations.EncodeInvertsDecode := by
  intro w i h
  obtain ⟨f, hmap, hused⟩ := (decode_eq_ok_iff w i).1 h
  obtain ⟨hop, hoperands⟩ := instr_of_opcodeMap hmap
  rw [encode, hop, hoperands, hused, word_of_fields]

/-- Settles O3: seven words of the opcode map's examples. -/
theorem specWordsDecode : Obligations.SpecWordsDecode := by
  unfold Obligations.SpecWordsDecode
  decide

end Sys2Proof.Machine

/-!
PROOFS. The host interface, continued: what one host access does in each STATE (R20 to R25, R28 to R31, R38, R41), how a
command is accepted (R21), and the state after reset (R37, R166).
-/

namespace Sys2Proof.Machine

open Sys2Proof

/-! ## Accepting a command (R21, R33) -/

theorem tableWord_toNat (w : Word32) : tableWord 32 w.toNat = some w := by
  rw [tableWord, if_pos (Nat.le_refl 32), Nat.mod_eq_of_lt w.isLt, BitVec.ofNat_toNat, BitVec.setWidth_eq]

theorem hostWaits_alone {s : State} (h : s.inbox = []) : hostWaits s = s := by simp [hostWaits, h]

theorem withFetchWord_alone {s : State} (h : s.inbox = []) (w : Word32) :
    s.withFetchWord 32 w.toNat = accept w s := by
  simp only [State.withFetchWord, tableWord_toNat, placeCommand, hostWaits_alone h]

/-- Settles O5: a quiet step of a running block is `exec`, and a placed word is a command just accepted. -/
theorem stepRunsDecodedCommand : Obligations.StepRunsDecodedCommand := by
  refine ⟨fun s i hrun hi => ⟨fun hin => ?_, fun rest hin => ?_⟩, fun s w i hin hi => ?_⟩
  · rw [step_quiet hin, advance_running hrun hi]
  · rw [step_quiet_action hin, advance_running (s := { s with inbox := rest }) hrun hi]
  · rw [withFetchWord_alone hin]
    exact ⟨⟨rfl, rfl, hi⟩, by rw [step_quiet (s := accept w s) hin, advance_running (s := accept w s) rfl hi]⟩

theorem writeCmd_accepts {s : State} (h : s.phase = .idle ∨ s.phase = .done) {w : Word32} :
    writeCmd w s = .next (accept w s) := by
  unfold writeCmd
  rcases h with h | h <;> rw [h]

theorem writeCmd_fault {s : State} (h : s.phase = .fault) {w : Word32} : writeCmd w s = .next s := by
  unfold writeCmd
  rw [h]

/-- Settles O12: the four cases of a write of CMD, and the constant that a read of it shows. -/
theorem commandAcceptance : Obligations.CommandAcceptance := by
  intro s w rest
  refine ⟨fun hin => ⟨fun hp => ?_, fun hp => ?_, fun hp => ?_⟩, fun hin => step_read_shown hin rfl rfl⟩
  · rw [step_write hin rfl]
    exact writeCmd_accepts (s := { s with inbox := rest }) hp
  · rw [step_write hin rfl]
    exact writeCmd_fault (s := { s with inbox := rest }) hp
  · exact step_write_running hp hin rfl (by decide)

/-! ## FAULT (R155) -/

/-- R155: in FAULT a host write of CMD is ignored. -/
theorem step_write_cmd_fault {s : State} {w : Word32} {rest : List HostAction} (hp : s.phase = .fault)
    (hin : s.inbox = .write 0x000 32 w :: rest) : step s = .next { s with inbox := rest } :=
  ((commandAcceptance s w rest).1 hin).2.1 hp

/-- A host write in FAULT keeps STATE, FCODE, the bus log and the coming answers. -/
theorem writeLoc_fault {s t : State} {loc : HostLoc} {off : Nat} {v : Word32} (hp : s.phase = .fault)
    (h : writeLoc loc off v s = .next t) :
    t.phase = .fault ∧ t.fcode = s.fcode ∧ t.logRev = s.logRev ∧ t.replies = s.replies := by
  rcases writeLoc_next h with rfl | ⟨-, hq, rfl⟩ | ⟨-, ⟨-, rfl⟩ | ⟨-, rfl⟩ | ⟨-, rfl⟩ | ⟨-, rfl⟩⟩
  · exact ⟨hp, rfl, rfl, rfl⟩
  · rw [hp] at hq; exact absurd hq (by decide)
  all_goals exact ⟨hp, rfl, rfl, rfl⟩

/-- A host read changes neither STATE, FCODE, the bus log nor the coming answers. -/
theorem hostRead_keeps (loc : HostLoc) (off width : Nat) (s : State) :
    (hostRead loc off width s).phase = s.phase ∧ (hostRead loc off width s).fcode = s.fcode ∧
    (hostRead loc off width s).logRev = s.logRev ∧ (hostRead loc off width s).replies = s.replies := by
  obtain ⟨v, -, h⟩ | ⟨-, h⟩ := hostRead_cases loc off width s <;> rw [h] <;> exact ⟨rfl, rfl, rfl, rfl⟩

/-- Settles O9: in FAULT the block waits, and of the host's actions only reset touches STATE or FCODE. -/
theorem faultEndsOnlyByReset : Obligations.FaultEndsOnlyByReset := by
  refine fun s hp => ⟨fun t h hnoreset => ?_, fun w rest hin => step_write_cmd_fault hp hin⟩
  rcases step_cases s with ⟨rest, -, e⟩ | ⟨a, rest, hin, hquiet, e⟩ <;> rw [e] at h
  · rw [advance_waits (s := { s with inbox := rest }) (by simp [hp])] at h
    cases h
    exact ⟨hp, rfl, rfl, rfl⟩
  · rcases hostStep_next h with ⟨ha, -⟩ | ⟨rfl, -⟩ | ⟨off, width, v, loc, -, -, hw⟩ | ⟨off, width, loc, -, -, rfl⟩
    · exact absurd ha hquiet
    · exact absurd hin (hnoreset rest)
    · exact writeLoc_fault (s := { s with inbox := rest }) hp hw
    · obtain ⟨hphase, hkept⟩ := hostRead_keeps loc off width { s with inbox := rest }
      exact ⟨hphase.trans hp, hkept⟩

/-! ## Reset (R37, R166) -/

/-- Settles O10: the fields of the state after reset, and the empty buffers. -/
theorem resetValues : Obligations.ResetValues := by
  refine ⟨rfl, rfl, rfl, rfl, rfl, rfl, rfl, rfl, rfl, rfl, rfl, rfl, rfl, rfl, rfl, rfl, rfl, rfl, rfl, rfl, rfl, rfl,
    rfl, fun x => memory_read_nil x⟩

/-- Settles O11. -/
theorem resetFromAnyState : Obligations.ResetFromAnyState := by
  intro s rest hin
  rw [step_host hin (by simp), hostStep]
  rfl

/-! ## Writes of the host's registers (R20, R23, R24, R31) -/

/-- An accepted host write outside RUNNING. -/
theorem step_write_accepted {s t : State} {off width : Nat} {v : Word32} {loc : HostLoc} {rest : List HostAction}
    (hp : s.phase ≠ .running) (hin : s.inbox = .write off width v :: rest) (hloc : hostLoc off width = some loc)
    (ht : writeLoc loc off v { s with inbox := rest } = whenNotRunning { s with inbox := rest } t) :
    step s = .next t := by
  rw [step_write hin hloc, ht]
  exact whenNotRunning_next hp t

/-- R20, R31: the bits of CFG after a write: DEV_ADDR's own bits while the bus is open, else those written, without the
reserved ones. -/
theorem getLsbD_writeCfg (v : Word32) (s : State) {k : Nat} (hk : k < 32) :
    (writeCfg v s).cfgReg.getLsbD k =
      if k < 7 ∧ s.busReady = true then s.cfgReg.getLsbD k else v.getLsbD k && cfgMask.getLsbD k := by
  have hlow : (0x0000007F#32).getLsbD k = decide (k < 7) := by revert k; decide
  have hhigh : (0xFFFFF300#32).getLsbD k = (cfgMask.getLsbD k && !decide (k < 7)) := by revert k; decide
  cases hb : s.busReady
  · simp only [writeCfg, hb, Bool.false_eq_true, if_false, and_false, BitVec.getLsbD_and]
  · simp only [writeCfg, hb, if_true, and_true, BitVec.getLsbD_or, BitVec.getLsbD_and, hlow, hhigh]
    by_cases h : k < 7 <;> simp [h]

/-- A field of CFG that is not reserved and lies above DEV_ADDR takes the value written. -/
theorem extract_writeCfg (v : Word32) (s : State) {k n : Nat} (hk : 7 ≤ k) (hn : k + n ≤ 32)
    (hmask : ∀ i, i < n → cfgMask.getLsbD (k + i) = true) :
    (writeCfg v s).cfgReg.extractLsb' k n = v.extractLsb' k n := by
  ext i hi
  have h := getLsbD_writeCfg v s (k := k + i) (by omega)
  rw [if_neg (by omega), hmask i hi, Bool.and_true] at h
  simpa using h

/-- DEV_ADDR takes the value written, or keeps its value while the bus is open. -/
theorem devAddr_writeCfg (v : Word32) (s : State) :
    (writeCfg v s).cfgReg.extractLsb' 0 7 =
      if s.busReady then s.cfgReg.extractLsb' 0 7 else v.extractLsb' 0 7 := by
  ext i hi
  have hmask : cfgMask.getLsbD i = true := by revert i; decide
  have h := getLsbD_writeCfg v s (k := i) (by omega)
  rw [hmask, Bool.and_true] at h
  cases hb : s.busReady <;> simpa [hb, hi] using h

/-- Settles O13: the fields bit by bit. -/
theorem cfgWriteFields : Obligations.CfgWriteFields := by
  intro s v rest hp hin
  let u : State := { s with inbox := rest }
  have hbit {k : Nat} (hk : k < 32) (h7 : ¬ k < 7) :
      (writeCfg v u).cfgReg.getLsbD k = (v.getLsbD k && cfgMask.getLsbD k) := by
    rw [getLsbD_writeCfg v u hk, if_neg (fun h => h7 h.1)]
  refine ⟨(writeCfg v u).cfgReg, step_write_accepted hp hin rfl rfl, devAddr_writeCfg v u, ?_, ?_, ?_, ?_, ?_, ?_, ?_⟩
  · simpa [cfgMask] using hbit (k := 7) (by decide) (by decide)
  · simpa [cfgMask] using hbit (k := 8) (by decide) (by decide)
  · simpa [cfgMask] using hbit (k := 9) (by decide) (by decide)
  · simpa [cfgMask] using hbit (k := 10) (by decide) (by decide)
  · simpa [cfgMask] using hbit (k := 11) (by decide) (by decide)
  · exact extract_writeCfg v u (by decide) (by decide) (by decide)
  · exact extract_writeCfg v u (by decide) (by decide) (by decide)

theorem clampStoreLen_toNat (v : Word32) : (clampStoreLen v).toNat = min (v.toNat % 65536) 256 := by
  simp only [clampStoreLen, BitVec.toNat_ofNat, BitVec.extractLsb'_toNat, Nat.shiftRight_zero]
  omega

theorem setWidth_eq_ofNat {n : Nat} (x : BitVec n) : x.setWidth 32 = BitVec.ofNat 32 x.toNat := by simp

/-- Settles O14: the two writes store the value written, STORE_LEN's clamped, and a read shows STORE_LEN zero-extended. -/
theorem storeLenClamps : Obligations.StoreLenClamps := by
  refine ⟨fun s v rest hin => ⟨fun hp => ?_, fun hp => ?_⟩, fun s rest hin => ?_,
    fun s v rest hin => ⟨fun hp => ?_, fun hp => ?_⟩, rfl, rfl⟩
  · exact ⟨clampStoreLen v, clampStoreLen_toNat v, step_write_accepted hp hin rfl rfl⟩
  · exact step_write_running hp hin rfl (by decide)
  · exact step_read_shown hin rfl (congrArg some (setWidth_eq_ofNat _))
  · exact ⟨v.extractLsb' 0 16, by simp, step_write_accepted hp hin rfl rfl⟩
  · exact step_write_running hp hin rfl (by decide)

/-! ## Writes of the buffers and of read-only registers (R28 to R30, R22, R25 to R27) -/

theorem byteLoc_imgbuf {off : Nat} (hlo : 0x200 ≤ off) (hhi : off ≤ 0x27F) : byteLoc off = .buffer .imgbuf := by
  unfold byteLoc
  rw [if_neg (by omega), if_neg (by omega), if_pos (by omega)]

/-- A byte of SRCBUF or STORE is at a location that the host writes. -/
theorem hostLoc_writable {off : Nat} (h : (0x100 ≤ off ∧ off ≤ 0x17F) ∨ (0x300 ≤ off ∧ off ≤ 0x3FF)) :
    ∃ b, hostLoc off 8 = some (.buffer b) ∧ (b = .srcbuf ∨ b = .store) := by
  rcases h with ⟨hlo, hhi⟩ | ⟨hlo, hhi⟩
  · exact ⟨.srcbuf, by rw [hostLoc_byte hlo (by omega), byteLoc_srcbuf hhi], .inl rfl⟩
  · exact ⟨.store, by rw [hostLoc_byte (by omega) hhi, byteLoc_store hlo], .inr rfl⟩

/-- Settles O20: a byte written is held and no other changes; the other locations ignore a write. -/
theorem bufferWrites : Obligations.BufferWrites := by
  refine ⟨fun s off v rest hin => ⟨fun hp hoff => ?_, fun hoff => ?_⟩, fun s off v rest hin hoff => ?_⟩
  · obtain ⟨b, hloc, hb⟩ := hostLoc_writable hoff
    refine ⟨s.mem.write off (v.extractLsb' 0 8), step_write_accepted hp hin hloc ?_, memory_read_write_same .., ?_⟩
    · rcases hb with rfl | rfl <;> rfl
    · exact fun x hx => memory_read_write_other _ _ _ _ hx
  · have hloc : hostLoc off 8 = some (.buffer .imgbuf) := by
      rw [hostLoc_byte (by omega) (by omega), byteLoc_imgbuf hoff.1 hoff.2]
    exact step_write hin hloc
  · rcases hoff with rfl | rfl | rfl | rfl | rfl | rfl <;> exact step_write hin rfl

/-! ## What a host read shows (R22, R25, R38, R41) -/

/-- A read of a location without a value is a draw, which is used up (R38). -/
theorem step_read_drawn {s : State} {off width : Nat} {loc : HostLoc} {rest : List HostAction}
    (hin : s.inbox = .read off width :: rest) (hloc : hostLoc off width = some loc)
    (hv : readLoc loc off { s with inbox := rest } = none) :
    step s = .next
      { s with inbox := rest, readsRev := ⟨off, nextDraw width s⟩ :: s.readsRev, drawn := s.drawn + 1 } := by
  rw [step_read hin hloc]
  simp [hostRead, hv, nextDraw]

theorem nextDraw_byte (s : State) : nextDraw 8 s = ((Config.draw s.drawn).extractLsb' 0 8).setWidth 32 := by
  simp [nextDraw, zext32, BitVec.setWidth_eq_extractLsb']

theorem shown_eq_none {r : OutReg} {d : Bool} (h : d = false ∨ r.written = false) : r.shown d = none := by
  unfold OutReg.shown
  rcases h with h | h <;> simp [h]

theorem shown_eq_some {r : OutReg} {d : Bool} (hd : d = true) (h : r.written = true) : r.shown d = some r.bits := by
  simp [OutReg.shown, hd, h]

section Reads

variable {s : State} {off : Nat} {rest : List HostAction}

/-- R25, R41: a read of one of RES0 to RES3. -/
theorem step_read_result {loc : HostLoc} {r : OutReg} (hin : s.inbox = .read off 32 :: rest)
    (hloc : hostLoc off 32 = some loc)
    (hread : readLoc loc off { s with inbox := rest } = r.shown (decide (s.phase ≠ .running) && s.rvalid)) :
    (s.phase = .running ∨ s.rvalid = false ∨ r.written = false → step s = .next
      { s with inbox := rest, readsRev := ⟨off, Config.draw s.drawn⟩ :: s.readsRev, drawn := s.drawn + 1 }) ∧
    (s.phase ≠ .running → s.rvalid = true → r.written = true → step s = .next
      { s with inbox := rest, readsRev := ⟨off, r.bits⟩ :: s.readsRev }) := by
  refine ⟨fun h => step_read_drawn hin hloc ?_, fun hp hv hw => step_read_shown hin hloc ?_⟩
  · rw [hread]
    rcases h with h | h | h
    · exact shown_eq_none (.inl (by simp [h]))
    · exact shown_eq_none (.inl (by simp [h]))
    · exact shown_eq_none (.inr h)
  · rw [hread, shown_eq_some (by simp [hp, hv]) hw]

/-- R26, R27, R41: a read of FLAGS or CLKRATE. -/
theorem step_read_flagged {loc : HostLoc} {r : OutReg} (hin : s.inbox = .read off 32 :: rest)
    (hloc : hostLoc off 32 = some loc)
    (hread : readLoc loc off { s with inbox := rest } = r.shown (decide (s.phase ≠ .running))) :
    (s.phase = .running ∨ r.written = false → step s = .next
      { s with inbox := rest, readsRev := ⟨off, Config.draw s.drawn⟩ :: s.readsRev, drawn := s.drawn + 1 }) ∧
    (s.phase ≠ .running → r.written = true → step s = .next
      { s with inbox := rest, readsRev := ⟨off, r.bits⟩ :: s.readsRev }) := by
  refine ⟨fun h => step_read_drawn hin hloc ?_, fun hp hw => step_read_shown hin hloc ?_⟩
  · rw [hread]
    exact shown_eq_none (h.imp_left fun h => by simp [h])
  · rw [hread, shown_eq_some (by simp [hp]) hw]

/-- R38: a read of a buffer byte that holds no value, or is not shown. -/
theorem step_read_byte_drawn {loc : HostLoc} (hin : s.inbox = .read off 8 :: rest) (hloc : hostLoc off 8 = some loc)
    (hread : readLoc loc off { s with inbox := rest } = none) : step s = .next
      { s with
        inbox := rest
        readsRev := ⟨off, ((Config.draw s.drawn).extractLsb' 0 8).setWidth 32⟩ :: s.readsRev
        drawn := s.drawn + 1 } := by
  rw [step_read_drawn hin hloc hread, nextDraw_byte]

/-- R41: a read of a byte of IMGBUF. -/
theorem readLoc_imgbuf (off : Nat) (s : State) :
    (s.phase = .running ∨ s.mem.read off = none → readLoc (.buffer .imgbuf) off s = none) ∧
    (∀ b, s.phase ≠ .running → s.mem.read off = some b → readLoc (.buffer .imgbuf) off s = some (b.setWidth 32)) := by
  simp only [readLoc]
  refine ⟨fun h => ?_, fun b hp hb => ?_⟩
  · rcases h with h | h <;> simp [h]
  · simp [hp, hb, zext32]

/-- R28, R30: a read of a byte of SRCBUF or STORE, in every STATE. -/
theorem readLoc_writable {b : Buffer} (hb : b = .srcbuf ∨ b = .store) (off : Nat) (s : State) :
    readLoc (.buffer b) off s = (s.mem.read off).map zext32 := by rcases hb with rfl | rfl <;> rfl

end Reads

/-- Settles O19: each location's value, which is shown, or its absence, which is a draw. -/
theorem resultReads : Obligations.ResultReads := by
  intro s rest
  refine ⟨?results, ?flagged, ?imgbuf, ?writable, fun hin => step_read_shown hin rfl rfl,
    fun hin => step_read_shown hin rfl rfl, 
    fun hin => step_read_shown hin rfl (congrArg some (setWidth_eq_ofNat _))⟩
  case results =>
    rintro off r (⟨rfl, rfl⟩ | ⟨rfl, rfl⟩ | ⟨rfl, rfl⟩ | ⟨rfl, rfl⟩) hin <;> exact step_read_result hin rfl rfl
  case flagged =>
    rintro off r (⟨rfl, rfl⟩ | ⟨rfl, rfl⟩) hin <;> exact step_read_flagged hin rfl rfl
  case imgbuf =>
    intro off hlo hhi hin
    have hloc : hostLoc off 8 = some (.buffer .imgbuf) := by
      rw [hostLoc_byte (by omega) (by omega), byteLoc_imgbuf hlo hhi]
    obtain ⟨hnone, hsome⟩ := readLoc_imgbuf off { s with inbox := rest }
    exact ⟨fun h => step_read_byte_drawn hin hloc (hnone h), fun b hp hb => step_read_shown hin hloc (hsome b hp hb)⟩
  case writable =>
    intro off hoff hin
    obtain ⟨b, hloc, hb⟩ := hostLoc_writable hoff
    have hread := readLoc_writable hb off { s with inbox := rest }
    refine ⟨fun h => step_read_byte_drawn hin hloc ?_, fun x hx => step_read_shown hin hloc ?_⟩
    · simpa using hread.trans (congrArg (Option.map zext32) h)
    · simpa [zext32] using hread.trans (congrArg (Option.map zext32) hx)

/-! ## STAT (R22, R145) -/

theorem getLsbD_append_high {n m k : Nat} (x : BitVec n) (y : BitVec m) (h : m ≤ k) :
    (x ++ y).getLsbD k = x.getLsbD (k - m) := by simp [BitVec.getLsbD_append, Nat.not_lt.2 h]

theorem getLsbD_append_low {n m k : Nat} (x : BitVec n) (y : BitVec m) (h : k < m) :
    (x ++ y).getLsbD k = y.getLsbD k := by simp [BitVec.getLsbD_append, h]

/-- R22: the fields of the STAT word. -/
theorem statWord_fields (s : State) :
    s.statWord.extractLsb' 0 2 = s.phase.code ∧ s.statWord.extractLsb' 4 4 = s.fcode.code ∧
    s.statWord.getLsbD 8 = s.rvalid ∧ s.statWord.getLsbD 9 = s.busReady ∧ s.statWord.getLsbD 10 = s.idWarn ∧
    s.statWord.getLsbD 11 = s.authValid ∧ s.statWord.getLsbD 12 = s.authFail ∧ s.statWord.getLsbD 13 = s.authOk ∧
    s.statWord.getLsbD 14 = s.authBusy ∧ s.statWord.getLsbD 15 = s.unbalCleared ∧
    s.statWord.extractLsb' 16 8 = s.lastOp := by
  unfold State.statWord
  refine ⟨?_, ?_, ?_, ?_, ?_, ?_, ?_, ?_, ?_, ?_, ?_⟩
  case refine_1 | refine_2 | refine_11 =>
    repeat refine (BitVec.extractLsb'_append_eq_of_le (by decide)).trans ?_
    exact (BitVec.extractLsb'_append_eq_of_add_le (by decide)).trans BitVec.extractLsb'_eq_self
  all_goals
    repeat refine (getLsbD_append_high _ _ (by decide)).trans ?_
    exact (getLsbD_append_low _ _ (by decide)).trans (by simp)

/-- Settles O18. -/
theorem statFields : Obligations.StatFields := by
  refine ⟨by decide, fun s rest hin => ?_, fun s v rest hin => step_write hin rfl⟩
  exact ⟨s.statWord, step_read_shown hin rfl rfl, statWord_fields s⟩

end Sys2Proof.Machine

/-!
PROOFS. What a step of a command may change: the frame of every command, kept by its checks and by what every line does
with its answers; from it the frame statements (R20 to R36), the transitions of STATE (R18) and the inputs that a running
command keeps (R33, R40, R98).
-/

namespace Sys2Proof.Machine

open Sys2Proof

/-! ## The frame of a command -/

/-- What stays the same in a state that a command makes of `s` before it moves the sequencer: everything but the bus port,
the local variables, POLLCOUNT and what the tables of R22, R25 to R29 and R68 let the command write. -/
structure Frame (i : Instr) (s t : State) : Prop where
  config : t.config = s.config
  cfgReg : t.cfgReg = s.cfgReg
  cfgWritten : t.cfgWritten = s.cfgWritten
  srcLen : t.srcLen = s.srcLen
  storeLen : t.storeLen = s.storeLen
  latch : t.latch = s.latch
  selLatch : t.selLatch = s.selLatch
  lastOp : t.lastOp = s.lastOp
  inbox : t.inbox = s.inbox
  drawn : t.drawn = s.drawn
  readsRev : t.readsRev = s.readsRev
  phase : t.phase = s.phase
  fcode : t.fcode = s.fcode
  auth : i ≠ .eeProgram →
    t.authValid = s.authValid ∧ t.authFail = s.authFail ∧ t.authOk = s.authOk ∧ t.authBusy = s.authBusy
  auth_valid : (s.authValid = false → s.authFail = false ∧ s.authOk = false ∧ s.authBusy = false) →
    t.authValid = false → t.authFail = false ∧ t.authOk = false ∧ t.authBusy = false
  flags : i ≠ .statusDecode → t.unbalCleared = s.unbalCleared ∧ t.flags = s.flags
  idWarn : i ≠ .chkId → t.idWarn = s.idWarn
  clkRate : i ≠ .busInit → t.clkRate = s.clkRate
  busReady : i ≠ .busInit → i ≠ .busClose → t.busReady = s.busReady
  busOpened : t.busReady = true → s.busReady = true ∨ i = .busInit
  res0 : resultCount i = 0 → t.res0 = s.res0
  res1 : resultCount i ≤ 1 → t.res1 = s.res1
  res2 : resultCount i ≤ 2 → t.res2 = s.res2
  res3 : resultCount i ≤ 3 → t.res3 = s.res3
  rvalid : resultCount i = 0 → i ≠ .busInit → i ≠ .statusDecode → t.rvalid = s.rvalid
  rvalid_stays : s.rvalid = true → t.rvalid = true
  rvalid_written : (s.rvalid = true → s.res0.written = true ∨ s.flags.written = true ∨ s.clkRate.written = true) →
    t.rvalid = true → t.res0.written = true ∨ t.flags.written = true ∨ t.clkRate.written = true
  mem : i ≠ .eeReadImage → t.mem = s.mem
  mem_outside : ∀ x, x < 0x200 ∨ 0x280 ≤ x → t.mem.read x = s.mem.read x
  mem_wf : s.mem.wf → t.mem.wf

variable {i : Instr}

theorem Frame.refl (i : Instr) (s : State) : Frame i s s := by
  constructor <;> simp +contextual

theorem Frame.trans {s t u : State} (h : Frame i s t) (k : Frame i t u) : Frame i s u where
  config := k.config.trans h.config
  cfgReg := k.cfgReg.trans h.cfgReg
  cfgWritten := k.cfgWritten.trans h.cfgWritten
  srcLen := k.srcLen.trans h.srcLen
  storeLen := k.storeLen.trans h.storeLen
  latch := k.latch.trans h.latch
  selLatch := k.selLatch.trans h.selLatch
  lastOp := k.lastOp.trans h.lastOp
  inbox := k.inbox.trans h.inbox
  drawn := k.drawn.trans h.drawn
  readsRev := k.readsRev.trans h.readsRev
  phase := k.phase.trans h.phase
  fcode := k.fcode.trans h.fcode
  auth hi := by
    obtain ⟨h1, h2, h3, h4⟩ := h.auth hi
    obtain ⟨k1, k2, k3, k4⟩ := k.auth hi
    exact ⟨k1.trans h1, k2.trans h2, k3.trans h3, k4.trans h4⟩
  auth_valid hs := k.auth_valid (h.auth_valid hs)
  flags hi := ⟨(k.flags hi).1.trans (h.flags hi).1, (k.flags hi).2.trans (h.flags hi).2⟩
  idWarn hi := (k.idWarn hi).trans (h.idWarn hi)
  clkRate hi := (k.clkRate hi).trans (h.clkRate hi)
  busReady hi hi' := (k.busReady hi hi').trans (h.busReady hi hi')
  busOpened hu := (k.busOpened hu).elim h.busOpened .inr
  res0 hi := (k.res0 hi).trans (h.res0 hi)
  res1 hi := (k.res1 hi).trans (h.res1 hi)
  res2 hi := (k.res2 hi).trans (h.res2 hi)
  res3 hi := (k.res3 hi).trans (h.res3 hi)
  rvalid hi hi' hi'' := (k.rvalid hi hi' hi'').trans (h.rvalid hi hi' hi'')
  rvalid_stays hs := k.rvalid_stays (h.rvalid_stays hs)
  rvalid_written hs := k.rvalid_written (h.rvalid_written hs)
  mem hi := (k.mem hi).trans (h.mem hi)
  mem_outside x hx := (k.mem_outside x hx).trans (h.mem_outside x hx)
  mem_wf hs := k.mem_wf (h.mem_wf hs)

/-! ## The updates that commands are made of -/

theorem Frame.record (p : BusPrim) (s : State) : Frame i s (recordEvent p s) := by
  constructor <;> simp +contextual

theorem Frame.scratch (s : State) (x : Scratch) : Frame i s { s with scratch := x } := by
  constructor <;> simp +contextual

theorem Frame.pollCount (s : State) (n : BitVec 17) : Frame i s { s with pollCount := n } := by
  constructor <;> simp +contextual

theorem Frame.word (s : State) (even odd : Byte) : Frame i s (saveOdd odd (saveEven even s)) :=
  .scratch s _

theorem Frame.setRes0 (s : State) (v : Word32) (hi : 0 < resultCount i) : Frame i s (s.setRes0 v) := by
  constructor <;> simp +contextual [Nat.ne_of_gt hi, OutReg.holding, State.setRes0]

theorem Frame.setRes1 (s : State) (v : Word32) (hi : 1 < resultCount i) (hs : s.rvalid = true) :
    Frame i s (s.setRes1 v) := by
  constructor <;> simp +contextual [hs, State.setRes1]
  omega

theorem Frame.setRes2 (s : State) (v : Word32) (hi : 2 < resultCount i) (hs : s.rvalid = true) :
    Frame i s (s.setRes2 v) := by
  constructor <;> simp +contextual [hs, State.setRes2]
  omega

theorem Frame.setRes3 (s : State) (v : Word32) (hi : 3 < resultCount i) (hs : s.rvalid = true) :
    Frame i s (s.setRes3 v) := by
  constructor <;> simp +contextual [hs, State.setRes3]
  omega

theorem Frame.results2 (s : State) (v w : Word32) (hi : 1 < resultCount i) :
    Frame i s ((s.setRes0 v).setRes1 w) :=
  (Frame.setRes0 s v (by omega)).trans (.setRes1 _ w hi rfl)

theorem Frame.results3 (s : State) (v w x : Word32) (hi : 2 < resultCount i) :
    Frame i s (((s.setRes0 v).setRes1 w).setRes2 x) :=
  (Frame.results2 s v w (by omega)).trans (.setRes2 _ x hi rfl)

theorem Frame.results4 (s : State) (v w x y : Word32) (hi : 3 < resultCount i) :
    Frame i s ((((s.setRes0 v).setRes1 w).setRes2 x).setRes3 y) :=
  (Frame.results3 s v w x (by omega)).trans (.setRes3 _ y hi rfl)

theorem Frame.idWarning (s : State) : Frame .chkId s { s with idWarn := true } := by
  constructor <;> simp +contextual

theorem Frame.setFlags (s : State) (v : Word32) : Frame .statusDecode s (s.setFlags v) := by
  constructor <;> simp +contextual [State.setFlags, OutReg.holding]

theorem Frame.unbalanced (s : State) : Frame .statusDecode s { s with unbalCleared := true } := by
  constructor <;> simp +contextual

theorem Frame.takeStatus (b : Byte) (s : State) : Frame .eeProgram s (takeStatus b s) := by
  constructor <;> simp +contextual [Machine.takeStatus, State.latchAuth]

theorem Frame.busOpen (s : State) (v : Word32) : Frame .busInit s { s.setClkRate v with busReady := true } := by
  constructor <;> simp +contextual [State.setClkRate, OutReg.holding]

theorem Frame.busShut (s : State) : Frame .busClose s { s with busReady := false } := by
  constructor <;> simp +contextual

/-- R29: a byte of IMGBUF. -/
theorem Frame.image (s : State) {a : Nat} (ha : a < 128) (v : Byte) : Frame .eeReadImage s (memWrite .imgbuf a v s) := by
  have hout : ∀ x, x < 0x200 ∨ 0x280 ≤ x → (s.mem.write (0x200 + a) v).read x = s.mem.read x :=
    fun x hx => memory_read_write_other _ _ _ _ (by omega)
  have hwf : s.mem.wf → (s.mem.write (0x200 + a) v).wf := fun h => memWrite_wf h .imgbuf ha v
  constructor
  case mem_wf => exact hwf
  all_goals simp +contextual [Buffer.base, hout]

/-! ## What the lines of a command can answer -/

/-- A verdict that line `line` of command `i` may give in state `s`: within the frame; a faulting line names a code, which
is AUTH only at EE_PROGRAM's verdict; only the busy poll repeats its line, and only below POLL_LIMIT (R93); only
STATUS_DECODE skips a line; and a refusal is that of R38. -/
def Verdict.Lawful (i : Instr) (line : Line) (s : State) : Verdict → Prop
  | .proceed t => Frame i s t
  | .skip t => i = .statusDecode ∧ Frame i s t
  | .again t =>
    (∃ a, line = .readReg a pollTest) ∧ t = { s with pollCount := s.pollCount + 1 } ∧
      ¬ (s.pollLimit ≠ 0 ∧ s.pollLimit.toNat ≤ (s.pollCount + 1).toNat)
  | .raise c t => Frame i s t ∧ c ≠ .none ∧ (c = .auth → line = .silent verdictAuth)
  | .refuse r => r = .byteHoldsNoValue

/-- What the line does with its answers is within the frame of command `i`. -/
def Line.Lawful (i : Instr) (line : Line) : Prop :=
  match line with
  | .busInit use => i = .busInit ∧ ∀ x t, Frame i t (use x t)
  | .busClose after => ∀ t, Frame i t (after t)
  | .readReg _ use => ∀ x t, (use x t).Lawful i line t
  | .writeReg _ _ after => ∀ t, Frame i t (after t)
  | .silent act => ∀ t, (act t).Lawful i line t

theorem lawful_readInto {a : Byte} {use : Byte → State → State} (h : ∀ x t, Frame i t (use x t)) :
    (readInto a use).Lawful i := h

theorem lawful_writeTo (a v : Byte) : (writeTo a v).Lawful i := fun t => .refl i t

theorem lawful_pollReset : (Line.silent pollReset).Lawful i := fun t => .pollCount t 0

theorem lawful_pollTest (a : Byte) : (Line.readReg a pollTest).Lawful i := by
  intro x t
  simp only [pollTest]
  split
  · split
    · exact ⟨.pollCount t _, by decide, by intro h; cases h⟩
    · next hlimit => exact ⟨⟨a, rfl⟩, rfl, hlimit⟩
  · exact .refl i t

theorem lawful_saveOdd (a : Byte) : (readInto a saveOdd).Lawful i := lawful_readInto fun _ t => .scratch t _

theorem lawful_saveEven (a : Byte) : (readInto a saveEven).Lawful i := lawful_readInto fun _ t => .scratch t _

theorem lawful_readWordStore (a : Byte) : (Line.silent (readWordStore a)).Lawful i := by
  intro t
  rcases readWordStore_cases a t with e | e | ⟨even, odd, -, -, e⟩ <;> rw [e]
  · exact ⟨.refl i t, by decide, by intro h; cases h⟩
  · exact rfl
  · exact .word t even odd

theorem lawful_fetchSourceWord (k : Nat) : (Line.silent (fetchSourceWord k)).Lawful i := by
  intro t
  rcases fetchSourceWord_cases k t with e | ⟨even, odd, -, -, e⟩ <;> rw [e]
  · exact rfl
  · exact .word t even odd

theorem lawful_verdictAuth : (Line.silent verdictAuth).Lawful i := by
  intro t
  rcases verdictAuth_cases t with ⟨-, e⟩ | ⟨-, e⟩ <;> rw [e]
  · exact .refl i t
  · exact ⟨.refl i t, by decide, fun _ => rfl⟩

theorem lawful_checkIdentity (a : Byte) : (Line.readReg a checkIdentity).Lawful .chkId := by
  intro x t
  simp only [checkIdentity]
  have hresults := fun v w => Frame.results2 (i := .chkId) t v w (by decide)
  split
  · exact hresults _ _
  · split
    · exact (hresults _ _).trans (.idWarning _)
    · exact ⟨hresults _ _, by decide, by intro h; cases h⟩

theorem lawful_shutdownRead (r : Byte) : (shutdownRead r).Lawful .statusDecode := by
  intro x t
  simp only
  split
  · exact .scratch t _
  · exact ⟨rfl, .scratch t _⟩

theorem lawful_storeImageWord {k : Nat} (hk : k < 64) : (Line.silent (storeImageWord k)).Lawful .eeReadImage :=
  fun t => ((Frame.image t (a := 2 * k) (by omega) _).trans (.image _ (by omega) _)).trans
    (.setRes0 _ _ (by decide))

/-- The lines of ReadWord, in any command. -/
theorem lawful_linesReadWord (s : State) (a : Byte) : ∀ line ∈ linesReadWord s a, line.Lawful i :=
  linesReadWord_forall lawful_pollReset (lawful_pollTest _) lawful_writeTo lawful_saveOdd lawful_saveEven
    (lawful_readWordStore a)

/-- A word read followed by the silent line that makes the results of it. -/
theorem lawful_wordResult (s : State) (a : Byte) {result : State → State} (h : ∀ t, Frame i t (result t)) :
    ∀ line ∈ linesReadWord s a ++ [.silent fun t => .proceed (result t)], line.Lawful i :=
  List.forall_mem_append.2 ⟨lawful_linesReadWord s a, List.forall_mem_singleton.2 h⟩

/-- Every line of every command is within the command's frame. -/
theorem linesOf_lawful (i : Instr) (s : State) : ∀ line ∈ linesOf i s, line.Lawful i := by
  cases i with
  | readReg a => exact List.forall_mem_singleton.2 (lawful_readInto fun _ t => .setRes0 t _ Nat.zero_lt_one)
  | writeReg a v => exact List.forall_mem_singleton.2 (lawful_writeTo a v)
  | busInit => exact List.forall_mem_singleton.2 ⟨rfl, fun x t => .busOpen t x⟩
  | busClose => exact List.forall_mem_singleton.2 fun t => .busShut t
  | eeBusy => exact List.forall_mem_singleton.2 (lawful_readInto fun _ t => .results2 t _ _ (by decide))
  | eeLock => exact linesLock_forall lawful_pollReset (lawful_pollTest _) lawful_writeTo
  | eeReadWord a => exact lawful_wordResult s a fun t => .setRes0 t _ Nat.zero_lt_one
  | eeReadImage =>
    exact linesEeReadImage_forall lawful_pollReset (lawful_pollTest _) lawful_writeTo lawful_saveOdd lawful_saveEven
      lawful_readWordStore fun _ hk => lawful_storeImageWord hk
  | eeWriteWord a even odd => exact linesWriteWord_forall lawful_pollReset (lawful_pollTest _) lawful_writeTo
  | eeProgram =>
    exact linesEeProgram_forall lawful_pollReset (lawful_pollTest _) lawful_writeTo lawful_saveOdd lawful_saveEven
      lawful_readWordStore (lawful_readInto fun b t => .takeStatus b t) lawful_verdictAuth
      (fun k _ => lawful_fetchSourceWord k) fun _ _ t => .setRes0 t _ (by decide)
  | vcell k =>
    exact List.forall_mem_cons.2 ⟨lawful_readInto fun _ t => .scratch t _,
      List.forall_mem_singleton.2 (lawful_readInto fun _ t => .results3 t _ _ _ (Nat.lt_succ_self 2))⟩
  | rsense => exact lawful_wordResult s _ fun t => .results2 t _ _ (by decide)
  | icur =>
    exact List.forall_mem_cons.2 ⟨lawful_readInto fun _ t => .scratch t _,
      List.forall_mem_cons.2 ⟨lawful_readInto fun _ t => .scratch t _,
        lawful_wordResult s _ fun t => .results4 t _ _ _ _ (by decide)⟩⟩
  | vthr sel => exact lawful_wordResult s _ fun t => .results3 t _ _ _ (Nat.lt_succ_self 2)
  | statusDecode =>
    exact linesStatusDecode_forall (lawful_shutdownRead _) (fun t => .unbalanced t)
      (fun _ => lawful_readInto fun _ t => .scratch t _) fun t => .setFlags t _
  | dvolt hi lo => exact List.forall_mem_nil _
  | dsense raw => exact List.forall_mem_nil _
  | dcur lo hi sense => exact List.forall_mem_nil _
  | chkId => exact List.forall_mem_singleton.2 (lawful_checkIdentity _)

/-! ## The checks before the first line (R152) -/

/-- What the checks of a command answer: the fault of R152's order with nothing written, or a state within the frame. -/
def Checked (i : Instr) (s : State) : Prop :=
  (checkFault i s ≠ .none ∧ ∃ t, entryOf i s = .raise (checkFault i s) t ∧
    raiseFault (checkFault i s) t = s.ended .fault (checkFault i s)) ∨
  (checkFault i s = .none ∧ ∃ t, entryOf i s = .proceed t ∧ Frame i s t)

theorem checked_raise {s t : State} {c : FaultCode} (hcheck : checkFault i s = c) (hc : c ≠ .none)
    (he : entryOf i s = .raise c t) (ht : raiseFault c t = s.ended .fault c) : Checked i s :=
  .inl (hcheck ▸ ⟨hc, t, he, ht⟩)

theorem checked_proceed {s t : State} (hcheck : checkFault i s = .none) (he : entryOf i s = .proceed t)
    (ht : Frame i s t) : Checked i s :=
  .inr ⟨hcheck, t, he, ht⟩

/-- A command whose one check is that the bus is open (R82). -/
theorem checked_needBus {s : State}
    (hcheck : checkFault i s = if s.busReady = false then .lifecycle else .none) (he : entryOf i s = needBus s) :
    Checked i s := by
  rcases needBus_cases s with ⟨h, e⟩ | ⟨h, e⟩
  · exact checked_proceed (by simp [hcheck, h]) (he.trans e) (.refl i s)
  · exact checked_raise (by rw [hcheck, if_pos h]) (by decide) (he.trans e) rfl

/-- A command whose one check is that the bus is open unless the word is STORE's (R152). -/
theorem checked_needBusForWord {s : State}
    (hcheck : checkFault i s = if s.selLatch = false ∧ s.busReady = false then .lifecycle else .none)
    (he : entryOf i s = needBusForWord s) : Checked i s := by
  rcases needBusForWord_cases s with ⟨h, e⟩ | ⟨h, h', e⟩
  · exact checked_proceed (by rcases h with h | h <;> simp [hcheck, h]) (he.trans e) (.refl i s)
  · exact checked_raise (by rw [hcheck, if_pos ⟨h, h'⟩]) (by decide) (he.trans e) rfl

theorem wordAddrLegal_eq (a : Byte) : wordAddrLegal a = (a.toNat % 2 == 0 && decide (a.toNat ≤ 126)) := by
  have h : a.getLsbD 0 = decide (a.toNat % 2 = 1) := by simp [BitVec.getLsbD, Nat.testBit_zero]
  rw [wordAddrLegal, h]
  rcases Nat.mod_two_eq_zero_or_one a.toNat with h | h <;> simp [h]

/-- The operand check of a command is the syntax's own (R52, R72): an ill-formed command faults first, and for another one
the check is passed. -/
theorem checked_operand {s : State} {legal : Bool} {c : FaultCode} {rest : State → Verdict} (hlegal : legal = i.wf)
    (hcode : i.wf = false → checkFault i s = c) (hc : c ≠ .none)
    (he : entryOf i s = requireOperand legal c rest s)
    (hrest : i.wf = true → entryOf i s = rest s → Checked i s) : Checked i s := by
  cases h : i.wf
  · exact checked_raise (t := s) (hcode h) hc (by rw [he, requireOperand, hlegal, h, if_neg Bool.false_ne_true]) rfl
  · exact hrest h (by rw [he, requireOperand, hlegal, h, if_pos rfl])

theorem entryOf_checked (i : Instr) (s : State) : Checked i s := by
  cases i with
  | readReg | writeReg | busClose | eeBusy | eeLock | icur | chkId =>
    exact checked_needBus (by simp [checkFault, Instr.wf, usesBus]) rfl
  | rsense => exact checked_needBusForWord (by simp [checkFault, Instr.wf, usesBus]) rfl
  | busInit =>
    by_cases h : s.busReady = true ∨ s.cfgWritten = false
    · refine checked_raise (t := s) (c := .lifecycle) (by simp [checkFault, Instr.wf, h]) (by decide) ?_ rfl
      simp [entryOf, entryBusInit, h]
    · refine checked_proceed (by simp [checkFault, Instr.wf, usesBus, h]) (t := s) ?_ (.refl _ s)
      simp [entryOf, entryBusInit, h]
  | eeReadWord a =>
    refine checked_operand (wordAddrLegal_eq a) (c := .illegalOperand) (fun h => by simp [checkFault, h]) (by decide) rfl
      fun hwf he => checked_needBusForWord ?_ he
    simp [checkFault, hwf, usesBus]
  | vthr sel =>
    refine checked_operand rfl (c := .illegalOperand) (fun h => by simp [checkFault, h]) (by decide) rfl
      fun hwf he => checked_needBusForWord ?_ he
    simp [checkFault, hwf, usesBus]
  | eeWriteWord a even odd =>
    refine checked_operand (wordAddrLegal_eq a) (c := .illegalOperand) (fun h => by simp [checkFault, h]) (by decide) rfl
      fun hwf he => checked_needBus ?_ he
    simp [checkFault, hwf, usesBus]
  | vcell k =>
    refine checked_operand rfl (c := .precondition) (fun h => by simp [checkFault, h]) (by decide) rfl
      fun hwf he => checked_needBus ?_ he
    simp [checkFault, hwf, usesBus]
  | eeReadImage =>
    rcases needBusForWord_cases s with ⟨h, e⟩ | ⟨h, h', e⟩
    · refine checked_proceed ?_ (by rw [entryOf, entryEeReadImage, e, startCount]) (.setRes0 s 0 (by decide))
      rcases h with h | h <;> simp [checkFault, Instr.wf, usesBus, h]
    · exact checked_raise (t := s) (c := .lifecycle) (by simp [checkFault, Instr.wf, usesBus, h, h']) (by decide)
        (by rw [entryOf, entryEeReadImage, e]; rfl) rfl
  | eeProgram =>
    have hlen : s.srcLen ≠ 128#16 ↔ s.srcLen.toNat ≠ 128 := not_congr BitVec.toNat_inj.symm
    by_cases h : s.srcLen ≠ 128#16
    · exact checked_raise (t := s) (c := .input) (by simp [checkFault, Instr.wf, hlen.1 h]) (by decide)
        (by rw [entryOf, entryEeProgram, if_pos h]) rfl
    · have hcheck : checkFault .eeProgram s = if s.busReady = false then .lifecycle else .none := by
        simp [checkFault, Instr.wf, usesBus, not_not.1 (mt hlen.2 h)]
      rcases needBus_cases s with ⟨h', e⟩ | ⟨h', e⟩
      · exact checked_proceed (by simp [hcheck, h']) (by rw [entryOf, entryEeProgram, if_neg h, e, startCount])
          (.setRes0 s 0 (by decide))
      · exact checked_raise (t := s) (by rw [hcheck, if_pos h']) (by decide)
          (by rw [entryOf, entryEeProgram, if_neg h, e]; rfl) rfl
  | statusDecode =>
    have hcheck : checkFault .statusDecode s = if s.busReady = false then .lifecycle else .none := by
      simp [checkFault, Instr.wf, usesBus]
    rcases needBus_cases { s with scratch := { s.scratch with flagBits := 0 } } with ⟨h, e⟩ | ⟨h, e⟩
    · exact checked_proceed (by rw [hcheck, if_neg (by simpa using h)]) e (.scratch s _)
    · exact checked_raise (by rw [hcheck, if_pos h]) (by decide) e rfl
  | dvolt | dsense =>
    exact checked_proceed (by simp [checkFault, Instr.wf, usesBus]) rfl (.results2 s _ _ (Nat.lt_succ_self 1))
  | dcur =>
    exact checked_proceed (by simp [checkFault, Instr.wf, usesBus]) rfl (.results4 s _ _ _ _ (Nat.lt_succ_self 3))

end Sys2Proof.Machine

/-!
PROOFS. One step of a command, taken apart: its checks, a bus event within a line, or the end of a line; and what follows
from the frame: the order of the checks (R152), the frame statements (R20 to R36, R68), the transitions of STATE (R18), the
bus log of a step (R17, R58), and the inputs that a running command keeps (R33, R40, R98).
-/

namespace Sys2Proof.Machine

open Sys2Proof

variable {i : Instr}

/-! ## One step of a line, taken apart -/

/-- The order of the bus events of a transaction (R83 to R85); AckFail's BusStop comes after all others. -/
def Beat.rank : Beat → Nat
  | .start => 0
  | .send => 1
  | .ackSend => 2
  | .restart => 3
  | .sendRead => 4
  | .ackRead => 5
  | .data => 6
  | .dummy => 7
  | .stop => 8
  | .ackFail => 9

/-- The last bus event of a line, or the only beat of a silent one. -/
def Line.lastBeat : Line → Beat
  | .readReg _ _ => .stop
  | .writeReg _ _ _ => .stop
  | .busInit _ => .start
  | .busClose _ => .start
  | .silent _ => .start

/-- What a line does at its last beat: a silent line acts on the state itself, another on the state once the event is
recorded. -/
def Line.verdict (line : Line) (s : State) : Verdict :=
  match line with
  | .readReg _ use => use s.scratch.byte (recordEvent .stop s)
  | .writeReg _ _ after => .proceed (after (recordEvent .stop s))
  | .busInit use => .proceed (use s.nextReply.clock (recordEvent .init s))
  | .busClose after => .proceed (after (recordEvent .close s))
  | .silent act => act s

/-- The state in which a bus event within a line leaves the block, but for the position: the event is recorded, and the
byte of the transaction may be new. -/
def State.recorded (s : State) (p : BusPrim) (x : Byte) : State :=
  { recordEvent p s with scratch := { (recordEvent p s).scratch with byte := x } }

theorem Frame.recorded (p : BusPrim) (x : Byte) (s : State) : Frame i s (s.recorded p x) :=
  (Frame.record p s).trans (.scratch _ _)

/-- A step of a line that leads to a next state: TRANSPORT after an event that failed or after AckFail; a later beat of the
same line; or, at its last beat and when its event did not fail, what follows its verdict. -/
theorem runLine_next {line : Line} {n j : Nat} {b : Beat} {s t : State} (h : runLine n j b line s = .next t) :
    (∃ p, t = raiseFault .transport (recordEvent p s)) ∨
    (∃ p x b', line.hasBeat b' = true ∧ b.rank < b'.rank ∧ t = toBeat j b' (s.recorded p x)) ∨
    (b = line.lastBeat ∧ (s.nextReply.failed = false ∨ ∃ act, line = .silent act) ∧
      settle n j (line.verdict s) = .next t) := by
  cases line with
  | readReg a use =>
    simp only [runLine] at h
    cases b
    case ackSend | ackRead =>
      simp only [readRegBeat] at h
      rcases busCall_next h with ⟨-, rfl⟩ | ⟨-, h⟩
      · exact .inl ⟨_, rfl⟩
      · cases h
        split
        · exact .inr (.inl ⟨_, _, .ackFail, rfl, by decide, rfl⟩)
        · exact .inr (.inl ⟨_, _, _, rfl, by decide, rfl⟩)
    case stop =>
      simp only [readRegBeat] at h
      rcases busCall_next h with ⟨-, rfl⟩ | ⟨hf, h⟩
      · exact .inl ⟨_, rfl⟩
      · exact .inr (.inr ⟨rfl, .inl hf, by simpa [Line.verdict] using h⟩)
    case ackFail =>
      rw [readRegBeat_ackFail] at h
      exact .inl ⟨_, (Host.Outcome.next.inj h).symm⟩
    all_goals
      simp only [readRegBeat] at h
      rcases busCall_next h with ⟨-, rfl⟩ | ⟨-, h⟩
      · exact .inl ⟨_, rfl⟩
      · cases h
        exact .inr (.inl ⟨_, _, _, rfl, by decide, rfl⟩)
  | writeReg a v after =>
    simp only [runLine] at h
    cases b <;> simp only [writeRegBeat, reduceCtorEq] at h <;> rcases busCall_next h with ⟨-, rfl⟩ | ⟨hf, h⟩
    case start.inr | send.inr => cases h; exact .inr (.inl ⟨_, _, _, rfl, by decide, rfl⟩)
    case stop.inr => exact .inr (.inr ⟨rfl, .inl hf, h⟩)
    all_goals exact .inl ⟨_, rfl⟩
  | busInit use | busClose after =>
    simp only [runLine] at h
    split at h
    · next hb =>
      rcases busCall_next h with ⟨-, rfl⟩ | ⟨hf, h⟩
      · exact .inl ⟨_, rfl⟩
      · exact .inr (.inr ⟨hb, .inl hf, h⟩)
    · cases h
  | silent act =>
    simp only [runLine] at h
    split at h
    · next hb => exact .inr (.inr ⟨hb, .inr ⟨act, rfl⟩, h⟩)
    · cases h

/-- The verdict of a line is lawful in the state once the last event is recorded. -/
theorem Line.Lawful.verdict {line : Line} (h : line.Lawful i) (s : State) :
    ∃ u, Frame i s u ∧ u.pollCount = s.pollCount ∧ (line.verdict s).Lawful i line u := by
  cases line with
  | readReg a use => exact ⟨_, .record .stop s, by simp, h _ _⟩
  | writeReg a v after => exact ⟨_, .record .stop s, by simp, h _⟩
  | busInit use => exact ⟨_, .record .init s, by simp, h.2 _ _⟩
  | busClose after => exact ⟨_, .record .close s, by simp, h _⟩
  | silent act => exact ⟨s, .refl i s, rfl, h s⟩

/-- What the verdict of a lawful line can be, against the state before the step. -/
theorem Line.Lawful.verdict_cases {line : Line} (h : line.Lawful i) (s : State) :
    (∃ u, line.verdict s = .proceed u ∧ Frame i s u) ∨
    (∃ u, line.verdict s = .skip u ∧ i = .statusDecode ∧ Frame i s u) ∨
    (∃ u, line.verdict s = .again u ∧ (∃ a, line = .readReg a pollTest) ∧ Frame i s u ∧
      u.pollCount = s.pollCount + 1 ∧ ¬ (s.pollLimit ≠ 0 ∧ s.pollLimit.toNat ≤ (s.pollCount + 1).toNat)) ∨
    (∃ c u, line.verdict s = .raise c u ∧ Frame i s u ∧ c ≠ .none ∧ (c = .auth → line = .silent verdictAuth)) ∨
    line.verdict s = .refuse .byteHoldsNoValue := by
  obtain ⟨w, hw, hcount, hv⟩ := h.verdict s
  have hlimit : w.pollLimit = s.pollLimit := by rw [State.pollLimit, hw.cfgReg, State.pollLimit]
  cases hverdict : line.verdict s with
  | proceed u => rw [hverdict] at hv; exact .inl ⟨u, rfl, hw.trans hv⟩
  | skip u => rw [hverdict] at hv; exact .inr (.inl ⟨u, rfl, hv.1, hw.trans hv.2⟩)
  | again u =>
    rw [hverdict] at hv
    obtain ⟨hline, rfl, hbound⟩ := hv
    rw [hlimit, hcount] at hbound
    exact .inr (.inr (.inl ⟨_, rfl, hline, hw.trans (.pollCount w _), by simp [hcount], hbound⟩))
  | raise c u => rw [hverdict] at hv; exact .inr (.inr (.inr (.inl ⟨c, u, rfl, hw.trans hv.1, hv.2⟩)))
  | refuse r => rw [hverdict] at hv; exact .inr (.inr (.inr (.inr (congrArg _ hv))))

/-! ## One step of a command, taken apart -/

/-- Where a step of command `i` leaves the sequencer when the rest of the state is `u`: before a bus event of a line of the
procedure, done, or in FAULT with a code. -/
def LeavesAt (i : Instr) (s u t : State) : Prop :=
  (∃ j b line, (linesOf i s)[j]? = some line ∧ line.hasBeat b = true ∧ t = toBeat j b u) ∨ t = finish u ∨
  ∃ c, c ≠ .none ∧ t = raiseFault c u

theorem hasBeat_start (line : Line) : line.hasBeat .start = true := by cases line <;> rfl

theorem goTo_leavesAt (s u : State) (j : Nat) : LeavesAt i s u (goTo (linesOf i s).length j u) := by
  rcases goTo_cases (linesOf i s).length j u with ⟨hj, e⟩ | ⟨-, e⟩
  · exact .inl ⟨j, .start, _, List.getElem?_eq_getElem hj, hasBeat_start _, e⟩
  · exact .inr (.inl e)

/-- A step of a command that leads to a next state: a state within the command's frame, and a new position. -/
theorem exec_next {s t : State} (h : exec i s = .next t) : ∃ u, Frame i s u ∧ LeavesAt i s u t := by
  rw [exec_eq_runCommand] at h
  rcases runCommand_next h with ⟨-, h⟩ | ⟨j, b, line, -, hline, h⟩
  · rcases entryOf_checked i s with ⟨hc, u, he, hfault⟩ | ⟨-, u, he, hu⟩ <;> rw [he, settleEntry] at h <;> cases h
    · exact ⟨s, .refl i s, .inr (.inr ⟨_, hc, hfault⟩)⟩
    · exact ⟨u, hu, goTo_leavesAt s u 0⟩
  · rcases runLine_next h with ⟨p, rfl⟩ | ⟨p, x, b', hb', -, rfl⟩ | ⟨-, -, h⟩
    · exact ⟨_, .record p s, .inr (.inr ⟨_, by decide, rfl⟩)⟩
    · exact ⟨_, .recorded p x s, .inl ⟨j, b', line, hline, hb', rfl⟩⟩
    · rcases (linesOf_lawful i s line (List.mem_of_getElem? hline)).verdict_cases s with
        ⟨u, e, hu⟩ | ⟨u, e, -, hu⟩ | ⟨u, e, -, hu, -⟩ | ⟨c, u, e, hu, hc, -⟩ | e <;>
        rw [e, settle] at h <;> cases h
      · exact ⟨u, hu, goTo_leavesAt s u _⟩
      · exact ⟨u, hu, goTo_leavesAt s u _⟩
      · exact ⟨u, hu, .inl ⟨j, .start, line, hline, hasBeat_start line, rfl⟩⟩
      · exact ⟨u, hu, .inr (.inr ⟨c, hc, rfl⟩)⟩

/-! ## Frame statements (R20 to R36, R68) -/

/-- Moving the sequencer changes none of the fields of `Frame` but STATE and FCODE. -/
theorem LeavesAt.frame {s u t : State} (h : LeavesAt i s u t) :
    Frame i u { t with phase := u.phase, fcode := u.fcode } := by
  rcases h with ⟨j, b, line, -, -, rfl⟩ | rfl | ⟨c, -, rfl⟩ <;> constructor <;> simp +contextual

/-- What a step of a command keeps but for STATE and FCODE. -/
theorem exec_frame {s t : State} (h : exec i s = .next t) : Frame i s { t with phase := s.phase, fcode := s.fcode } := by
  obtain ⟨u, hu, hleaves⟩ := exec_next h
  have hframe := hu.trans hleaves.frame
  rwa [hu.phase, hu.fcode] at hframe

/-- STATE after a step of a command: as before, DONE, or FAULT; FCODE changes only on the way to FAULT. -/
theorem exec_phase {s t : State} (h : exec i s = .next t) :
    (t.phase = s.phase ∨ t.phase = .done ∨ t.phase = .fault) ∧ (t.phase ≠ .fault → t.fcode = s.fcode) := by
  obtain ⟨u, hu, ⟨j, b, line, -, -, rfl⟩ | rfl | ⟨c, -, rfl⟩⟩ := exec_next h
  · exact ⟨.inl hu.phase, fun _ => hu.fcode⟩
  · exact ⟨.inr (.inl rfl), fun _ => hu.fcode⟩
  · exact ⟨.inr (.inr rfl), fun hp => absurd rfl hp⟩

/-- Settles O24. -/
theorem commandsKeepHostState : Obligations.CommandsKeepHostState := by
  intro i s t h
  have hf := exec_frame h
  exact ⟨hf.config, hf.cfgReg, hf.cfgWritten, hf.srcLen, hf.storeLen, hf.latch, hf.selLatch, hf.lastOp, hf.inbox,
    hf.drawn, hf.readsRev⟩

/-- Settles O25. -/
theorem statusBitsHaveOneWriter : Obligations.StatusBitsHaveOneWriter := by
  intro i s t h
  have hf := exec_frame h
  exact ⟨hf.auth, hf.flags, hf.idWarn, hf.clkRate, hf.busReady, (exec_phase h).2⟩

/-- Settles O26. -/
theorem resultRegisterFrame : Obligations.ResultRegisterFrame := by
  intro i s t h
  have hf := exec_frame h
  exact ⟨hf.res0, hf.res1, hf.res2, hf.res3, hf.rvalid, hf.rvalid_stays⟩

/-! ## The order of the checks (R152) -/

/-- DVOLT, DSENSE and DCUR have no lines, every other command has a first one. -/
theorem linesOf_pos_iff (i : Instr) (s : State) :
    0 < (linesOf i s).length ↔
      ¬ ((∃ hi lo, i = .dvolt hi lo) ∨ (∃ raw, i = .dsense raw) ∨ ∃ lo hi raw, i = .dcur lo hi raw) := by
  have hword : ∀ a (line : Line), 0 < (linesReadWord s a ++ [line]).length := fun a line => by simp
  cases i with
  | dvolt | dsense | dcur => simp [linesOf]
  | eeReadWord | rsense | vthr => exact iff_of_true (hword _ _) (by simp)
  | eeReadImage =>
    refine iff_of_true ?_ (by simp)
    simp only [linesOf, linesEeReadImage, List.range_succ_eq_map, List.flatMap_cons, List.length_append]
    exact Nat.add_pos_left (hword _ _) _
  | eeProgram =>
    refine iff_of_true ?_ (by simp)
    simp only [linesOf, linesEeProgram, List.length_append, List.length_singleton]
    omega
  | statusDecode =>
    refine iff_of_true ?_ (by simp)
    rw [linesOf, linesStatusDecode_length]
    exact Nat.succ_pos _
  | readReg | writeReg | busInit | busClose | eeBusy | eeLock | eeWriteWord | vcell | icur | chkId =>
    exact iff_of_true (Nat.succ_pos _) (by simp)

theorem exec_entry {s : State} (hp : s.pos = .entry) : exec i s = settleEntry (linesOf i s).length (entryOf i s) := by
  rw [exec_eq_runCommand, runCommand, hp]

/-- Settles O21: the checks answer as R152 orders; a command without lines is done, another goes to its first line. -/
theorem checksInOrder : Obligations.ChecksInOrder := by
  intro i s hp decodesOnly
  have hlines := linesOf_pos_iff i s
  rcases entryOf_checked i s with ⟨hc, u, he, hfault⟩ | ⟨hc, u, he, hu⟩
  · refine ⟨fun _ => ?_, fun h => absurd h hc⟩
    rw [exec_entry hp, he, settleEntry, hfault]
  · have hlog : (entryOf i s).Keeps (SameLog s) := entryOf_sameLog i s
    rw [he] at hlog
    refine ⟨fun h => absurd hc h, fun _ => ⟨_, by rw [exec_entry hp, he, settleEntry], ?_⟩⟩
    rcases goTo_cases (linesOf i s).length 0 u with ⟨hn, e⟩ | ⟨hn, e⟩ <;> rw [e]
    · exact ⟨hu.fcode, hlog, fun h => absurd h (hlines.1 hn), fun _ => ⟨hu.phase, rfl⟩⟩
    · exact ⟨hu.fcode, hlog, fun _ => rfl, fun h => absurd (hlines.2 h) (Nat.not_lt.2 hn)⟩

/-! ## The bus log of a step (R17, R58) -/

/-- A step of a command logs at most one event. -/
theorem exec_logRev {s t : State} (h : exec i s = .next t) : t.logRev = s.logRev ∨ ∃ e, t.logRev = e :: s.logRev := by
  rw [exec_eq_runCommand] at h
  rcases runCommand_next h with ⟨-, h⟩ | ⟨j, b, line, -, hline, h⟩
  · exact .inl (settleEntry_sameLog (entryOf_sameLog i s) h)
  · have hl := linesOf_sameLog i s line (List.mem_of_getElem? hline)
    cases hp : line.prim s b with
    | none => exact .inl (runLine_sameLog hl hp h)
    | some p =>
      obtain ⟨k, hcall, hk⟩ := runLine_eq_busCall hl hp (linesOf i s).length j
      exact .inr ⟨_, busCall_logRev hk (hcall.symm.trans h)⟩

/-- One step of the block: a step of the command, ILLEGAL_COMMAND, or waiting. -/
theorem advance_next {s t : State} (h : advance s = .next t) :
    (s.phase = .running ∧ ∃ i, decode s.latch = .ok i ∧ exec i s = .next t) ∨
    (s.phase = .running ∧ (∃ e, decode s.latch = .error e) ∧ t = raiseFault .illegalCommand s) ∨
    (s.phase ≠ .running ∧ t = s) := by
  by_cases hp : s.phase = .running
  · cases hd : decode s.latch with
    | ok i => exact .inl ⟨hp, i, rfl, advance_running hp hd ▸ h⟩
    | error e =>
      rw [advance_illegal hp hd] at h
      exact .inr (.inl ⟨hp, ⟨e, rfl⟩, (Host.Outcome.next.inj h).symm⟩)
  · rw [advance_waits hp] at h
    exact .inr (.inr ⟨hp, (Host.Outcome.next.inj h).symm⟩)

/-- One step of the machine that leads to a next state, with the inbox that the step leaves. -/
theorem step_next {s t : State} (h : step s = .next t) :
    ∃ rest, (s.inbox = [] ∧ rest = [] ∨ ∃ a, s.inbox = a :: rest) ∧
      ((s.inbox = [] ∨ s.inbox = .quiet :: rest) ∧ advance { s with inbox := rest } = .next t ∨
       s.inbox = .reset :: rest ∧ t = resetBlock { s with inbox := rest } ∨
       (∃ off width v loc, s.inbox = .write off width v :: rest ∧ hostLoc off width = some loc ∧
         writeLoc loc off v { s with inbox := rest } = .next t) ∨
       ∃ off width loc, s.inbox = .read off width :: rest ∧ hostLoc off width = some loc ∧
         t = hostRead loc off width { s with inbox := rest }) := by
  rcases step_cases s with ⟨rest, hin, e⟩ | ⟨a, rest, hin, hquiet, e⟩ <;> rw [e] at h
  · rcases hin with ⟨hin, rfl⟩ | hin
    · exact ⟨[], .inl ⟨hin, rfl⟩, .inl ⟨.inl hin, h⟩⟩
    · exact ⟨rest, .inr ⟨_, hin⟩, .inl ⟨.inr hin, h⟩⟩
  · refine ⟨rest, .inr ⟨a, hin⟩, .inr ?_⟩
    rcases hostStep_next h with ⟨ha, -⟩ | ⟨rfl, ht⟩ | ⟨off, width, v, loc, rfl, hloc, hw⟩ |
      ⟨off, width, loc, rfl, hloc, ht⟩
    · exact absurd ha hquiet
    · exact .inl ⟨hin, ht⟩
    · exact .inr (.inl ⟨off, width, v, loc, hin, hloc, hw⟩)
    · exact .inr (.inr ⟨off, width, loc, hin, hloc, ht⟩)

/-- A host write issues no bus event. -/
theorem writeLoc_logRev {s t : State} {loc : HostLoc} {off : Nat} {v : Word32} (h : writeLoc loc off v s = .next t) :
    t.logRev = s.logRev := by
  rcases writeLoc_next h with rfl | ⟨-, -, rfl⟩ | ⟨-, ⟨-, rfl⟩ | ⟨-, rfl⟩ | ⟨-, rfl⟩ | ⟨-, rfl⟩⟩ <;> rfl

/-- Settles O7: only a step of a command logs, and it logs at most one event. -/
theorem oneBusEventAStep : Obligations.OneBusEventAStep := by
  intro s t h
  obtain ⟨rest, -, ⟨-, h⟩ | ⟨-, rfl⟩ | ⟨off, width, v, loc, -, -, h⟩ | ⟨off, width, loc, -, -, rfl⟩⟩ := step_next h
  · rcases advance_next h with ⟨-, i, -, h⟩ | ⟨-, -, rfl⟩ | ⟨-, rfl⟩
    · exact exec_logRev (s := { s with inbox := rest }) h
    · exact .inl rfl
    · exact .inl rfl
  · exact .inl rfl
  · exact .inl (writeLoc_logRev (s := { s with inbox := rest }) h)
  · obtain ⟨-, -, hlog, -⟩ := hostRead_keeps loc off width { s with inbox := rest }
    exact .inl hlog

/-! ## The transitions of STATE (R18) -/

theorem hostLoc_eq_cmd {off width : Nat} (h : hostLoc off width = some .cmd) : off = 0x000 ∧ width = 32 := by
  unfold hostLoc at h
  split at h
  · split at h
    · next hw =>
      simp only [Option.some.injEq, regLoc] at h
      split at h <;> cases h
      exact ⟨rfl, hw.1⟩
    · cases h
  · split at h
    · split at h
      · simp only [Option.some.injEq, byteLoc] at h
        split_ifs at h
      · cases h
    · cases h

/-- STATE after a host write: as before, or RUNNING after an accepted write of CMD. -/
theorem writeLoc_phase {s t : State} {loc : HostLoc} {off : Nat} {v : Word32} (h : writeLoc loc off v s = .next t) :
    t.phase = s.phase ∨ (loc = .cmd ∧ (s.phase = .idle ∨ s.phase = .done) ∧ t.phase = .running) := by
  rcases writeLoc_next h with rfl | ⟨hloc, hp, rfl⟩ | ⟨-, ⟨-, rfl⟩ | ⟨-, rfl⟩ | ⟨-, rfl⟩ | ⟨-, rfl⟩⟩
  · exact .inl rfl
  · exact .inr ⟨hloc, hp, rfl⟩
  all_goals exact .inl rfl

/-- Settles O6: the four kinds of step, each with the transitions it can make. -/
theorem onlyTheListedTransitions : Obligations.OnlyTheListedTransitions := by
  refine ⟨by decide, fun s t h hne => ?_⟩
  obtain ⟨rest, -, ⟨-, h⟩ | ⟨hin, rfl⟩ | ⟨off, width, v, loc, hin, hloc, h⟩ | ⟨off, width, loc, -, -, rfl⟩⟩ := step_next h
  · rcases advance_next h with ⟨hp, i, -, h⟩ | ⟨hp, -, rfl⟩ | ⟨-, rfl⟩
    · exact .inr (.inr ⟨hp, (exec_phase h).1.resolve_left hne⟩)
    · exact .inr (.inr ⟨hp, .inr rfl⟩)
    · exact absurd rfl hne
  · exact .inl ⟨rest, hin, rfl⟩
  · obtain ⟨rfl, hp, ht⟩ := (writeLoc_phase h).resolve_left hne
    obtain ⟨rfl, rfl⟩ := hostLoc_eq_cmd hloc
    exact .inr (.inl ⟨hp, ht, v, rest, hin⟩)
  · exact absurd (hostRead_keeps loc off width { s with inbox := rest }).1 hne

/-! ## What a running command keeps (R33, R40, R98) -/

/-- While RUNNING an accepted host write changes nothing. -/
theorem writeLoc_running {s t : State} (hp : s.phase = .running) {loc : HostLoc} {off : Nat} {v : Word32}
    (h : writeLoc loc off v s = .next t) : t = s := by
  rcases writeLoc_next h with rfl | ⟨-, hq, -⟩ | ⟨hq, -⟩
  · rfl
  · rw [hp] at hq; exact absurd hq (by decide)
  · exact absurd hp hq

/-- Settles O8: the block's step is within the frame, and the host changes nothing that is listed. -/
theorem runningCommandKeepsItsInputs : Obligations.RunningCommandKeepsItsInputs := by
  intro s t hp h hq
  obtain ⟨rest, -, ⟨-, h⟩ | ⟨-, rfl⟩ | ⟨off, width, v, loc, -, -, h⟩ | ⟨off, width, loc, -, -, rfl⟩⟩ := step_next h
  · rcases advance_next h with ⟨-, i, -, h⟩ | ⟨-, -, rfl⟩ | ⟨hnot, -⟩
    · have hf := exec_frame h
      exact ⟨hf.latch, hf.selLatch, hf.cfgReg, hf.srcLen, hf.storeLen, hf.config, hf.lastOp, hf.mem_outside⟩
    · cases hq
    · exact absurd hp hnot
  · cases hq
  · rw [writeLoc_running (s := { s with inbox := rest }) hp h]
    exact ⟨rfl, rfl, rfl, rfl, rfl, rfl, rfl, fun _ _ => rfl⟩
  · obtain ⟨v, -, e⟩ | ⟨-, e⟩ := hostRead_cases loc off width { s with inbox := rest } <;> rw [e] <;>
      exact ⟨rfl, rfl, rfl, rfl, rfl, rfl, rfl, fun _ _ => rfl⟩

end Sys2Proof.Machine

/-!
PROOFS. The invariant (State.Inv), which every step keeps, and the transaction in progress (State.InFlight), which under the
invariant every step keeps in the bus log (R81, R83 to R85, R90).
-/

namespace Sys2Proof.Machine

open Sys2Proof

variable {i : Instr}

/-! ## The text of a procedure changes only in the bytes it writes -/

/-- Two lines are the same but for the byte that a WriteReg writes. -/
def Line.Like (l l' : Line) : Prop := l = l' ∨ ∃ a v w, l = writeTo a v ∧ l' = writeTo a w

theorem like_refl (ls : List Line) : List.Forall₂ Line.Like ls ls := List.forall₂_same.2 fun _ _ => .inl rfl

theorem hasBeat_like {l l' : Line} (h : l.Like l') (b : Beat) : l.hasBeat b = l'.hasBeat b := by
  rcases h with rfl | ⟨a, v, w, rfl, rfl⟩ <;> rfl

/-- The line at a place of a list is like the line there of a list that is alike. -/
theorem like_getElem? {ls ls' : List Line} (h : List.Forall₂ Line.Like ls ls') :
    ∀ {j : Nat} {l : Line}, ls[j]? = some l → ∃ l', ls'[j]? = some l' ∧ l.Like l' := by
  induction h with
  | nil => intro j l hl; cases hl
  | cons hhead _ ih =>
    intro j l hl
    cases j with
    | zero => cases hl; exact ⟨_, rfl, hhead⟩
    | succ j => exact ih (by simpa using hl)

/-- Only EE_PROGRAM's text uses the local variables. -/
theorem linesOf_eq_of_ne_program {s t : State} (hi : i ≠ .eeProgram) (hc : t.config = s.config)
    (hl : t.selLatch = s.selLatch) : linesOf i t = linesOf i s := by
  have e : linesOf i t = linesOf i { t with scratch := s.scratch } := by
    cases i
    case eeProgram => exact absurd rfl hi
    all_goals rfl
  rw [e]
  exact linesOf_congr i hc hl rfl rfl

theorem linesWriteWord_like (c : Config) (a even odd even' odd' : Byte) :
    List.Forall₂ Line.Like (linesWriteWord c a even odd) (linesWriteWord c a even' odd') := by
  refine List.rel_append (List.rel_append (like_refl _) ?_) (like_refl _)
  exact .cons (.inr ⟨_, _, _, rfl, rfl⟩) (.cons (.inr ⟨_, _, _, rfl, rfl⟩) .nil)

/-- The text of a command is alike in all states with the same parameters and the same sampled STORE_SEL. -/
theorem linesOf_like (i : Instr) {s t : State} (hc : t.config = s.config) (hl : t.selLatch = s.selLatch) :
    List.Forall₂ Line.Like (linesOf i t) (linesOf i s) := by
  by_cases hi : i = .eeProgram
  · subst hi
    have hword : linesReadWord t 0x7A#8 = linesReadWord s 0x7A#8 := by simp only [linesReadWord, hc, hl]
    have hunlock : List.Forall₂ Line.Like (linesUnlock t) (linesUnlock s) := by
      rw [linesUnlock, linesUnlock, hc]
      refine List.rel_append (like_refl _) (.cons (.inl rfl) ?_)
      exact .cons (.inr ⟨_, _, _, rfl, rfl⟩) (.cons (.inr ⟨_, _, _, rfl, rfl⟩) .nil)
    have hloop : List.Forall₂ Line.Like ((List.range 64).flatMap (linesProgramWord t))
        ((List.range 64).flatMap (linesProgramWord s)) := by
      refine List.rel_flatMap (R := Eq) (List.forall₂_same.2 fun _ _ => rfl) ?_
      rintro k _ rfl
      rw [linesProgramWord, linesProgramWord, hc]
      exact List.rel_append (List.rel_append (like_refl _) (linesWriteWord_like ..)) (like_refl _)
    rw [linesOf, linesOf, linesEeProgram, linesEeProgram, hword, hc]
    refine List.rel_append ?_ hloop
    iterate 5 refine List.rel_append ?_ (like_refl _)
    exact List.rel_append (like_refl _) hunlock
  · rw [linesOf_eq_of_ne_program hi hc hl]
    exact like_refl _

/-! ## The invariant after a step of the host or the platform -/

theorem inBuffer_of_mem {x : Nat} {b : Buffer} (h : b.base ≤ x ∧ x < b.base + b.size) : inBuffer x = true := by
  simp only [inBuffer, List.any_eq_true, Bool.and_eq_true, decide_eq_true_eq]
  exact ⟨b, by cases b <;> simp, h⟩

theorem inBuffer_of_hostLoc {off width : Nat} {b : Buffer} (h : hostLoc off width = some (.buffer b)) :
    inBuffer off = true := by
  have hoff : off < 0x400 := by
    by_contra hge
    rw [hostLoc, if_neg (by omega), if_neg hge] at h
    cases h
  by_cases hlow : off < 0x100
  · rw [hostLoc, if_pos hlow] at h
    split at h
    · simp only [Option.some.injEq, regLoc] at h
      split at h <;> cases h
    · cases h
  · rw [hostLoc, if_neg hlow, if_pos hoff] at h
    split at h
    · simp only [Option.some.injEq, byteLoc] at h
      refine inBuffer_of_mem (b := b) ?_
      split_ifs at h <;> cases h <;> simp only [Buffer.base, Buffer.size] <;> omega
    · cases h

theorem Inv_inbox {s : State} (h : s.Inv) (rest : List HostAction) : State.Inv { s with inbox := rest } :=
  ⟨h.config_legal, h.mem_wf, h.cfg_reserved, h.store_len, h.fcode_fault, h.pos_running, h.scratch_clear,
    h.bus_configured, h.init_configured, h.auth_valid, h.rvalid_written, h.position⟩

theorem Inv_reset {s : State} (h : s.config.Legal) : (resetBlock s).Inv where
  config_legal := h
  mem_wf := reset_mem_wf
  cfg_reserved := by rw [resetBlock_cfgReg]; rfl
  store_len := by simp [State.reset]
  fcode_fault := by simp [State.reset]
  pos_running := by simp [State.reset]
  scratch_clear _ := rfl
  bus_configured h := by cases h
  init_configured _ h := absurd rfl h
  auth_valid _ := ⟨rfl, rfl, rfl⟩
  rvalid_written h := by cases h
  position := by simp [State.PositionInProcedure, State.reset]

/-- A host write keeps the invariant. -/
theorem writeLoc_inv {s t : State} {off width : Nat} {loc : HostLoc} {v : Word32} (h : s.Inv)
    (hloc : hostLoc off width = some loc) (hw : writeLoc loc off v s = .next t) : t.Inv := by
  rcases writeLoc_next hw with rfl | ⟨-, hp, rfl⟩ | ⟨hp, ⟨-, rfl⟩ | ⟨-, rfl⟩ | ⟨-, rfl⟩ | ⟨hb, rfl⟩⟩
  · exact h
  · have hfcode : s.fcode = .none := h.fcode_fault.2 (by rcases hp with hp | hp <;> simp [hp])
    exact { h with
      fcode_fault := by simp [hfcode]
      pos_running := by simp
      scratch_clear := fun _ => rfl
      init_configured := fun _ _ hentry => absurd rfl hentry
      auth_valid := fun _ => ⟨rfl, rfl, rfl⟩
      rvalid_written := fun hr => by cases hr
      position := trivial }
  · have hpos : s.pos = .none := h.pos_running.2 hp
    exact { h with
      cfg_reserved := writeCfg_reserved v s
      bus_configured := fun _ => rfl
      init_configured := fun _ _ _ => rfl
      position := by simp [State.PositionInProcedure, hpos] }
  · have hpos : s.pos = .none := h.pos_running.2 hp
    exact { h with position := by simp [State.PositionInProcedure, hpos] }
  · have hpos : s.pos = .none := h.pos_running.2 hp
    exact { h with
      store_len := by simp only [clampStoreLen_toNat]; omega
      position := by simp [State.PositionInProcedure, hpos] }
  · have hpos : s.pos = .none := h.pos_running.2 hp
    exact { h with
      mem_wf := memory_write_wf h.mem_wf (by rcases hb with rfl | rfl <;> exact inBuffer_of_hostLoc hloc) _
      position := by simp [State.PositionInProcedure, hpos] }

theorem hostRead_inv {s : State} (h : s.Inv) (loc : HostLoc) (off width : Nat) : (hostRead loc off width s).Inv := by
  obtain ⟨v, -, e⟩ | ⟨-, e⟩ := hostRead_cases loc off width s <;> rw [e] <;> exact { h with }

/-! ## The invariant after a step of a command -/

/-- R88: past its checks BUSINIT has CFG written. -/
theorem busInit_checked {s t : State} (h : exec .busInit s = .next t) (hp : ∀ j b, s.pos ≠ .at j b) :
    s.cfgWritten = true ∨ ∃ c, t = s.ended .fault c := by
  rw [exec_eq_runCommand] at h
  rcases runCommand_next h with ⟨-, h⟩ | ⟨j, b, line, hpos, -, -⟩
  · rcases entryOf_checked .busInit s with ⟨-, u, he, hfault⟩ | ⟨hc, -, -, -⟩
    · rw [he, settleEntry, hfault] at h
      exact .inr ⟨_, (Host.Outcome.next.inj h).symm⟩
    · left
      by_contra hw
      rw [Bool.not_eq_true] at hw
      simp [checkFault, Instr.wf, hw] at hc
  · exact absurd hpos (hp j b)

/-- Under the invariant BUSINIT has CFG written after every step, or has faulted with nothing written. -/
theorem busInit_configured {s t : State} (hinv : s.Inv) (hd : decode s.latch = .ok .busInit)
    (h : exec .busInit s = .next t) : s.cfgWritten = true ∨ ∃ c, t = s.ended .fault c := by
  by_cases hp : ∀ j b, s.pos ≠ .at j b
  · exact busInit_checked h hp
  · push Not at hp
    obtain ⟨j, b, hp⟩ := hp
    exact .inl (hinv.init_configured hd (by simp [hp]) (by simp [hp]))

/-- The position that a step of a command leaves is one of its procedure. -/
theorem LeavesAt.position {s u t : State} (h : LeavesAt i s u t) (hu : Frame i s u) (hd : decode s.latch = .ok i) :
    t.PositionInProcedure := by
  rcases h with ⟨j, b, line, hline, hbeat, rfl⟩ | rfl | ⟨c, -, rfl⟩
  · obtain ⟨line', hline', hlike⟩ :=
      like_getElem? (linesOf_like i hu.config.symm hu.selLatch.symm) hline
    refine ⟨i, line', by rw [toBeat_latch, hu.latch, hd], ?_, by rw [← hasBeat_like hlike, hbeat]⟩
    rw [linesOf_congr i (s := u) (t := toBeat j b u) rfl rfl rfl rfl, hline']
  · simp [State.PositionInProcedure]
  · simp [State.PositionInProcedure]

/-- What the sequencer's move says of STATE, FCODE, the position and the local variables. -/
theorem LeavesAt.control {s u t : State} (h : LeavesAt i s u t) (hrun : u.phase = .running) (hcode : u.fcode = .none) :
    (t.fcode = .none ↔ t.phase ≠ .fault) ∧ (t.pos = .none ↔ t.phase ≠ .running) ∧
    (t.phase ≠ .running → t.scratch = Scratch.clear) := by
  rcases h with ⟨j, b, line, -, -, rfl⟩ | rfl | ⟨c, hc, rfl⟩
  · simp [hrun, hcode, toBeat_pos]
  · simp [hcode]
  · simp [hc]

/-- A step of the running command keeps the invariant. -/
theorem exec_inv {s t : State} (hinv : s.Inv) (hrun : s.phase = .running) (hd : decode s.latch = .ok i)
    (h : exec i s = .next t) : t.Inv := by
  obtain ⟨u, hu, hleaves⟩ := exec_next h
  have hf := exec_frame h
  have hcode : u.fcode = .none := hu.fcode.trans (hinv.fcode_fault.2 (by simp [hrun]))
  obtain ⟨hfcode, hpos, hscratch⟩ := hleaves.control (hu.phase.trans hrun) hcode
  have hconfigured : i = .busInit → t.cfgWritten = true ∨ ∃ c, t = s.ended .fault c := by
    rintro rfl
    exact (busInit_configured hinv hd h).imp_left hf.cfgWritten.trans
  exact
    { config_legal := by rw [hf.config]; exact hinv.config_legal
      mem_wf := hf.mem_wf hinv.mem_wf
      cfg_reserved := by rw [hf.cfgReg]; exact hinv.cfg_reserved
      store_len := by rw [hf.storeLen]; exact hinv.store_len
      fcode_fault := hfcode
      pos_running := hpos
      scratch_clear := hscratch
      bus_configured := fun ht => by
        rcases hf.busOpened ht with hs | hi
        · rw [hf.cfgWritten]; exact hinv.bus_configured hs
        · rcases hconfigured hi with hw | ⟨c, rfl⟩
          · exact hw
          · exact hinv.bus_configured ht
      init_configured := fun hdt hnone _ => by
        rw [hf.latch, hd] at hdt
        rcases hconfigured (Except.ok.inj hdt) with hw | ⟨c, rfl⟩
        · exact hw
        · exact absurd rfl hnone
      auth_valid := hf.auth_valid hinv.auth_valid
      rvalid_written := hf.rvalid_written hinv.rvalid_written
      position := hleaves.position hu hd }

/-- ILLEGAL_COMMAND keeps the invariant (R69, R70). -/
theorem illegalCommand_inv {s : State} (h : s.Inv) : (raiseFault .illegalCommand s).Inv :=
  { h with
    fcode_fault := by simp
    pos_running := by simp
    scratch_clear := fun _ => rfl
    init_configured := fun _ hnone _ => absurd rfl hnone
    position := by simp [State.PositionInProcedure] }

/-- Settles O56: the block's steps and the host's. -/
theorem stepKeepsInvariant : Obligations.StepKeepsInvariant := by
  intro s t hinv h
  obtain ⟨rest, -, ⟨-, h⟩ | ⟨-, rfl⟩ | ⟨off, width, v, loc, -, hloc, h⟩ | ⟨off, width, loc, -, -, rfl⟩⟩ := step_next h
  · have hinv' := Inv_inbox hinv rest
    rcases advance_next h with ⟨hrun, i, hd, h⟩ | ⟨-, -, rfl⟩ | ⟨-, rfl⟩
    · exact exec_inv hinv' hrun hd h
    · exact illegalCommand_inv hinv'
    · exact hinv'
  · exact Inv_reset hinv.config_legal
  · exact writeLoc_inv (Inv_inbox hinv rest) hloc h
  · exact hostRead_inv (Inv_inbox hinv rest) loc off width

/-! ## No step loses the position (log 15) -/

theorem settle_ne_fault (n j : Nat) (v : Verdict) (f : Fault) : settle n j v ≠ .fault f := by cases v <;> simp [settle]

theorem settleEntry_ne_fault (n : Nat) (v : Verdict) (f : Fault) : settleEntry n v ≠ .fault f := by
  cases v <;> simp [settleEntry]

theorem busCall_ne_fault {p : BusPrim} {s : State} {k : Reply → State → Out} {f : Fault} (hk : ∀ r u, k r u ≠ .fault f) :
    busCall p s k ≠ .fault f := by
  unfold busCall
  split
  · simp
  · exact hk _ _

/-- A line does not lose the position at a beat that it has. -/
theorem runLine_ne_fault {line : Line} {b : Beat} (hb : line.hasBeat b = true) (n j : Nat) (s : State) (f : Fault) :
    runLine n j b line s ≠ .fault f := by
  cases line with
  | readReg a use =>
    simp only [runLine]
    cases b <;> simp only [readRegBeat] <;> refine busCall_ne_fault fun r u => ?_
    case stop => exact settle_ne_fault _ _ _ _
    all_goals simp
  | writeReg a v after =>
    simp only [runLine]
    cases b <;> simp [Line.hasBeat] at hb <;> simp only [writeRegBeat] <;> refine busCall_ne_fault fun r u => ?_
    case stop => exact settle_ne_fault _ _ _ _
    all_goals simp
  | busInit use | busClose after =>
    rw [runLine, if_pos (by simpa [Line.hasBeat] using hb)]
    exact busCall_ne_fault fun _ _ => settle_ne_fault _ _ _ _
  | silent act =>
    rw [runLine, if_pos (by simpa [Line.hasBeat] using hb)]
    exact settle_ne_fault _ _ _ _

/-- A command that stands in its procedure does not lose the position. -/
theorem exec_ne_fault {s : State} (hd : decode s.latch = .ok i) (hpos : s.PositionInProcedure) (f : Fault) :
    exec i s ≠ .fault f := by
  have hentry : settleEntry (linesOf i s).length (entryOf i s) ≠ .fault f := settleEntry_ne_fault _ _ f
  rcases hp : s.pos with _ | _ | ⟨j, b⟩
  · rwa [exec_eq_runCommand, runCommand, hp]
  · rwa [exec_eq_runCommand, runCommand, hp]
  · rw [State.PositionInProcedure, hp] at hpos
    obtain ⟨i', line, hd', hline, hb⟩ := hpos
    obtain rfl : i = i' := Except.ok.inj (hd.symm.trans hd')
    rw [exec_at hp hline]
    exact runLine_ne_fault hb _ _ s f

theorem writeLoc_ne_fault (loc : HostLoc) (off : Nat) (v : Word32) (s : State) (f : Fault) :
    writeLoc loc off v s ≠ .fault f := by
  have hwhen : ∀ t, whenNotRunning s t ≠ .fault f := fun t => by unfold whenNotRunning; split <;> simp
  cases loc
  case cmd => simp only [writeLoc, writeCmd]; split <;> simp
  case buffer b =>
    cases b
    case imgbuf => simp [writeLoc]
    all_goals exact hwhen _
  case cfg | srcLen | storeLen => exact hwhen _
  all_goals simp [writeLoc]

theorem hostStep_ne_fault (a : HostAction) (s : State) (f : Fault) : hostStep a s ≠ .fault f := by
  cases a with
  | quiet | reset => simp [hostStep]
  | write off width v =>
    simp only [hostStep]
    split
    · exact writeLoc_ne_fault _ off v s f
    · simp
  | read off width =>
    simp only [hostStep]
    split <;> simp

/-- Settles O58: of all steps only a command's can lose the position, and its position is one of its procedure. -/
theorem invariantExcludesFault : Obligations.InvariantExcludesFault := by
  intro s f hinv
  rcases step_cases s with ⟨rest, -, e⟩ | ⟨a, rest, -, -, e⟩ <;> rw [e]
  · have hinv' := Inv_inbox hinv rest
    by_cases hrun : s.phase = .running
    · cases hd : decode s.latch with
      | ok i =>
        rw [advance_running (s := { s with inbox := rest }) hrun hd]
        exact exec_ne_fault (s := { s with inbox := rest }) hd hinv'.position f
      | error e =>
        rw [advance_illegal (s := { s with inbox := rest }) hrun hd]
        simp
    · rw [advance_waits (s := { s with inbox := rest }) hrun]
      simp
  · exact hostStep_ne_fault a _ f

end Sys2Proof.Machine

/-!
PROOFS. The transaction in progress in the bus log (R81, R83 to R85, R90): every step keeps it, beat by beat.
-/

namespace Sys2Proof.Machine

open Sys2Proof

variable {i : Instr}

/-! ## What a step does to the command in progress -/

/-- What the command in progress is made of, its part of the bus log included. -/
structure SameCommand (s t : State) : Prop where
  pos : t.pos = s.pos
  latch : t.latch = s.latch
  config : t.config = s.config
  selLatch : t.selLatch = s.selLatch
  scratch : t.scratch = s.scratch
  cfgReg : t.cfgReg = s.cfgReg
  logRev : t.logRev = s.logRev

theorem SameCommand.lines {s t : State} (h : SameCommand s t) (i : Instr) : linesOf i t = linesOf i s :=
  linesOf_congr i h.config h.selLatch (by rw [h.scratch]) (by rw [h.scratch])

/-- Under the invariant a step leaves the command in progress alone, or leaves none in its procedure, or is a step of it. -/
theorem step_command {s t : State} (hinv : s.Inv) (h : step s = .next t) :
    SameCommand s t ∨ (∀ j b, t.pos ≠ .at j b) ∨
    ∃ i rest, decode s.latch = .ok i ∧ exec i { s with inbox := rest } = .next t := by
  obtain ⟨rest, -, ⟨-, h⟩ | ⟨-, rfl⟩ | ⟨off, width, v, loc, -, -, h⟩ | ⟨off, width, loc, -, -, rfl⟩⟩ := step_next h
  · rcases advance_next h with ⟨-, i, hd, h⟩ | ⟨-, -, rfl⟩ | ⟨-, rfl⟩
    · exact .inr (.inr ⟨i, rest, hd, h⟩)
    · exact .inr (.inl fun j b => by simp)
    · exact .inl ⟨rfl, rfl, rfl, rfl, rfl, rfl, rfl⟩
  · exact .inr (.inl fun j b => by simp [State.reset])
  · have hnone : s.phase ≠ .running → ∀ j b, s.pos ≠ .at j b := fun hp j b => by simp [hinv.pos_running.2 hp]
    rcases writeLoc_next h with rfl | ⟨-, -, rfl⟩ | ⟨hp, ⟨-, rfl⟩ | ⟨-, rfl⟩ | ⟨-, rfl⟩ | ⟨-, rfl⟩⟩
    · exact .inl ⟨rfl, rfl, rfl, rfl, rfl, rfl, rfl⟩
    · exact .inr (.inl fun j b => by simp)
    all_goals exact .inr (.inl (hnone hp))
  · obtain ⟨v, -, e⟩ | ⟨-, e⟩ := hostRead_cases loc off width { s with inbox := rest } <;> rw [e] <;>
      exact .inl ⟨rfl, rfl, rfl, rfl, rfl, rfl, rfl⟩

/-! ## The transaction in progress, line by line -/

/-- The events of `line`'s transaction before beat `b` are the newest of the bus log: State.InFlight at one line. -/
def Line.InProgress (s : State) : Line → Beat → Prop
  | .readReg a _, b =>
    let sent : List BusEvent := [⟨.write [s.addrW, a], .ok⟩, ⟨.start, .ok⟩]
    let again : List BusEvent := [⟨.write [s.addrR], .ok⟩, ⟨.start, .ok⟩, ⟨.getAck, .ack⟩] ++ sent
    match b with
    | .start => True
    | .send => [⟨.start, .ok⟩] <+: s.logRev
    | .ackSend => sent <+: s.logRev
    | .restart => [⟨.getAck, .ack⟩] ++ sent <+: s.logRev
    | .sendRead => [⟨.start, .ok⟩, ⟨.getAck, .ack⟩] ++ sent <+: s.logRev
    | .ackRead => again <+: s.logRev
    | .data => [⟨.getAck, .ack⟩] ++ again <+: s.logRev
    | .dummy => [⟨.read true, .byte s.scratch.byte⟩, ⟨.getAck, .ack⟩] ++ again <+: s.logRev
    | .stop =>
      ∃ d, [⟨.read false, .byte d⟩, ⟨.read true, .byte s.scratch.byte⟩, ⟨.getAck, .ack⟩] ++ again <+: s.logRev
    | .ackFail => [⟨.getAck, .nack⟩] ++ sent <+: s.logRev ∨ [⟨.getAck, .nack⟩] ++ again <+: s.logRev
  | .writeReg _ _ _, .send => [⟨.start, .ok⟩] <+: s.logRev
  | .writeReg a v _, .stop => [⟨.write [s.addrW, a, v], .ok⟩, ⟨.start, .ok⟩] <+: s.logRev
  | _, _ => True

theorem inFlight_iff {s : State} {j : Nat} {b : Beat} (hp : s.pos = .at j b) :
    s.InFlight ↔ ∀ i line, decode s.latch = .ok i → (linesOf i s)[j]? = some line → line.InProgress s b := by
  rw [State.InFlight, hp]
  refine forall_congr' fun i => forall_congr' fun line => imp_congr_right fun _ => imp_congr_right fun _ => ?_
  cases line <;> cases b <;> exact Iff.rfl

theorem inFlight_of_pos {s : State} (hp : ∀ j b, s.pos ≠ .at j b) : s.InFlight := by
  unfold State.InFlight
  split
  · trivial
  · trivial
  · next j b h => exact absurd h (hp j b)

theorem inProgress_start (s : State) (line : Line) : line.InProgress s .start := by cases line <;> trivial

/-- It is a matter of CFG, the byte of the transaction and the bus log. -/
theorem inProgress_congr {s t : State} {line : Line} {b : Beat} (hcfg : t.cfgReg = s.cfgReg)
    (hbyte : t.scratch.byte = s.scratch.byte) (hlog : t.logRev = s.logRev) (h : line.InProgress s b) :
    line.InProgress t b := by
  have hw : t.addrW = s.addrW := by simp only [State.addrW, State.devAddr, hcfg]
  have hr : t.addrR = s.addrR := by simp only [State.addrR, State.devAddr, hcfg]
  unfold Line.InProgress at h ⊢
  simpa only [hw, hr, hbyte, hlog] using h

theorem settle_pos {n j : Nat} {v : Verdict} {t : State} (h : settle n j v = .next t) :
    t.pos = .none ∨ ∃ j', t.pos = .at j' .start := by
  have hgo : ∀ k u, (goTo n k u).pos = .none ∨ ∃ j', (goTo n k u).pos = .at j' .start := fun k u => by
    rcases goTo_cases n k u with ⟨-, e⟩ | ⟨-, e⟩ <;> rw [e]
    · exact .inr ⟨_, rfl⟩
    · exact .inl rfl
  rcases settle_next h with ⟨u, -, rfl⟩ | ⟨u, -, rfl⟩ | ⟨u, -, rfl⟩ | ⟨c, u, -, rfl⟩
  · exact hgo _ u
  · exact hgo _ u
  · exact .inr ⟨_, rfl⟩
  · exact .inl rfl

/-- An event whose continuation only moves the sequencer: where it does not fail, it stands behind the event. -/
theorem busCall_moves {p : BusPrim} {s t : State} {j j' : Nat} {b b' : Beat} {f : Reply → State → State}
    (h : busCall p s (fun r u => .next (toBeat j b (f r u))) = .next t) (ht : t.pos = .at j' b') :
    s.nextReply.failed = false ∧ b' = b ∧ t = toBeat j b (f s.nextReply (recordEvent p s)) := by
  rcases busCall_next h with ⟨-, rfl⟩ | ⟨hf, h⟩
  · cases ht
  · cases h
    cases ht
    exact ⟨hf, rfl, rfl⟩

/-- The same for BusGetAck, whose answer decides where. -/
theorem busCall_ack {s t : State} {j j' : Nat} {b b₁ b₂ : Beat}
    (h : busCall .getAck s (fun r u => .next (if r.nack then toBeat j b₁ u else toBeat j b₂ u)) = .next t)
    (ht : t.pos = .at j' b) :
    s.nextReply.failed = false ∧
    (s.nextReply.nack = true ∧ b = b₁ ∧ t = toBeat j b₁ (recordEvent .getAck s) ∨
     s.nextReply.nack = false ∧ b = b₂ ∧ t = toBeat j b₂ (recordEvent .getAck s)) := by
  rcases busCall_next h with ⟨-, rfl⟩ | ⟨hf, h⟩
  · cases ht
  · cases hn : s.nextReply.nack <;> rw [hn] at h <;> cases h <;> cases ht
    · exact ⟨hf, .inr ⟨rfl, rfl, rfl⟩⟩
    · exact ⟨hf, .inl ⟨rfl, rfl, rfl⟩⟩

/-- A step within ReadReg puts the event it issues in front of those of the transaction (R83, R84). -/
theorem readReg_inProgress {a : Byte} {use : Byte → State → Verdict} {n j j' : Nat} {b b' : Beat} {s t : State}
    (h : readRegBeat n j a use b s = .next t) (ht : t.pos = .at j' b') (hb : b' ≠ .start)
    (hin : (Line.readReg a use).InProgress s b) : (Line.readReg a use).InProgress t b' := by
  cases b
  case ackSend =>
    obtain ⟨hf, ⟨hn, rfl, rfl⟩ | ⟨hn, rfl, rfl⟩⟩ := busCall_ack h ht
    · exact .inl (by simpa [Line.InProgress, answerOf, hf, hn, State.addrW, State.devAddr] using hin)
    · simpa [Line.InProgress, answerOf, hf, hn, State.addrW, State.devAddr] using hin
  case ackRead =>
    obtain ⟨hf, ⟨hn, rfl, rfl⟩ | ⟨hn, rfl, rfl⟩⟩ := busCall_ack h ht
    · exact .inr (by simpa [Line.InProgress, answerOf, hf, hn, State.addrW, State.addrR, State.devAddr] using hin)
    · simpa [Line.InProgress, answerOf, hf, hn, State.addrW, State.addrR, State.devAddr] using hin
  case stop =>
    simp only [readRegBeat] at h
    rcases busCall_next h with ⟨-, rfl⟩ | ⟨-, h⟩
    · cases ht
    · rcases settle_pos h with h | ⟨k, h⟩ <;> rw [h] at ht <;> cases ht
      exact absurd rfl hb
  case ackFail =>
    rw [readRegBeat_ackFail] at h
    cases h
    cases ht
  case data =>
    obtain ⟨hf, rfl, rfl⟩ :=
      busCall_moves (f := fun r u => { u with scratch := { u.scratch with byte := r.byte } }) h ht
    simpa [Line.InProgress, answerOf, hf, State.addrW, State.addrR, State.devAddr] using hin
  case start =>
    obtain ⟨hf, rfl, rfl⟩ := busCall_moves (f := fun _ u => u) h ht
    simp [Line.InProgress, answerOf, hf]
  case send | restart | sendRead | dummy =>
    obtain ⟨hf, rfl, rfl⟩ := busCall_moves (f := fun _ u => u) h ht
    simpa [Line.InProgress, answerOf, hf, State.addrW, State.addrR, State.devAddr] using hin

/-- A step within WriteReg puts the event it issues in front of those of the transaction (R85). -/
theorem writeReg_inProgress {a v : Byte} {after : State → State} {n j j' : Nat} {b b' : Beat} {s t : State}
    (h : writeRegBeat n j a v after b s = .next t) (ht : t.pos = .at j' b') (hb : b' ≠ .start)
    (hin : (Line.writeReg a v after).InProgress s b) : (Line.writeReg a v after).InProgress t b' := by
  cases b
  case stop =>
    simp only [writeRegBeat] at h
    rcases busCall_next h with ⟨-, rfl⟩ | ⟨-, h⟩
    · cases ht
    · rcases settle_pos h with h | ⟨k, h⟩ <;> rw [h] at ht <;> cases ht
      exact absurd rfl hb
  case start =>
    obtain ⟨hf, rfl, rfl⟩ := busCall_moves (f := fun _ u => u) h ht
    simp [Line.InProgress, answerOf, hf]
  case send =>
    obtain ⟨hf, rfl, rfl⟩ := busCall_moves (f := fun _ u => u) h ht
    simpa [Line.InProgress, answerOf, hf, State.addrW, State.devAddr] using hin
  all_goals cases h

theorem runLine_inProgress {line : Line} {n j j' : Nat} {b b' : Beat} {s t : State}
    (h : runLine n j b line s = .next t) (ht : t.pos = .at j' b') (hb : b' ≠ .start) (hin : line.InProgress s b) :
    line.InProgress t b' := by
  cases line with
  | readReg a use => exact readReg_inProgress h ht hb hin
  | writeReg a v after => exact writeReg_inProgress h ht hb hin
  | busInit | busClose | silent => trivial

/-! ## The transaction in progress, step by step -/

/-- A beat other than the first belongs to the line that the step was made at, in the same text. -/
theorem exec_within {s t : State} {j' : Nat} {b' : Beat} (h : exec i s = .next t) (ht : t.pos = .at j' b')
    (hb : b' ≠ .start) :
    ∃ b line, s.pos = .at j' b ∧ (linesOf i s)[j']? = some line ∧
      runLine (linesOf i s).length j' b line s = .next t ∧ linesOf i t = linesOf i s := by
  rw [exec_eq_runCommand] at h
  rcases runCommand_next h with ⟨-, h⟩ | ⟨j, b, line, hp, hline, h⟩
  · rcases settleEntry_next h with ⟨u, -, rfl⟩ | ⟨u, -, rfl⟩ | ⟨u, -, rfl⟩ | ⟨c, u, -, rfl⟩
    case inr.inr.inl | inr.inr.inr => cases ht
    all_goals
      rcases goTo_cases (linesOf i s).length _ u with ⟨-, e⟩ | ⟨-, e⟩ <;> rw [e] at ht <;> cases ht
      exact absurd rfl hb
  · rcases runLine_next h with ⟨p, rfl⟩ | ⟨p, x, b'', -, -, rfl⟩ | ⟨-, -, h'⟩
    · cases ht
    · cases ht
      refine ⟨b, line, hp, hline, h, ?_⟩
      apply linesOf_congr <;> simp [State.recorded]
    · rcases settle_pos h' with h' | ⟨k, h'⟩ <;> rw [h'] at ht <;> cases ht
      exact absurd rfl hb

/-- A step of the running command keeps the transaction in progress in the bus log. -/
theorem exec_inFlight {s t : State} (hd : decode s.latch = .ok i) (hin : s.InFlight) (h : exec i s = .next t) :
    t.InFlight := by
  by_cases hpos : ∀ j b, t.pos ≠ .at j b
  · exact inFlight_of_pos hpos
  · push Not at hpos
    obtain ⟨j, b', ht⟩ := hpos
    rw [inFlight_iff ht]
    intro i' line' hd' hline'
    by_cases hb : b' = .start
    · rw [hb]; exact inProgress_start t line'
    · obtain ⟨b, line, hp, hline, hrun, hlines⟩ := exec_within h ht hb
      rw [(exec_frame h).latch, hd] at hd'
      cases hd'
      rw [hlines, hline] at hline'
      cases hline'
      exact runLine_inProgress hrun ht hb ((inFlight_iff hp).1 hin i _ hd hline)

theorem SameCommand.inFlight {s t : State} (h : SameCommand s t) (hin : s.InFlight) : t.InFlight := by
  by_cases hpos : ∀ j b, t.pos ≠ .at j b
  · exact inFlight_of_pos hpos
  · push Not at hpos
    obtain ⟨j, b, ht⟩ := hpos
    rw [inFlight_iff ht]
    intro i line hd hline
    rw [h.latch] at hd
    rw [h.lines] at hline
    exact inProgress_congr h.cfgReg (by rw [h.scratch]) h.logRev
      ((inFlight_iff (h.pos ▸ ht)).1 hin i line hd hline)

/-- Settles O59: the host leaves the command alone or ends it, and a step of the command adds its event. -/
theorem stepKeepsTransactionInLog : Obligations.StepKeepsTransactionInLog := by
  intro s t hinv hin h
  rcases step_command hinv h with hsame | hpos | ⟨i, rest, hd, h⟩
  · exact hsame.inFlight hin
  · exact inFlight_of_pos hpos
  · exact exec_inFlight (s := { s with inbox := rest }) hd hin h

end Sys2Proof.Machine

/-!
PROOFS. What stands in the bus log when a line is done, and the rules of spec/41_eeprom_access.md section 3 that follow from it
and from the text of the procedures: writes follow polls (R105, R111), and commands end locked (R106).
-/

namespace Sys2Proof.Machine

open Sys2Proof

variable {i : Instr}

/-! ## One step of a command, by what the line did -/

/-- The step in which line `j` of command `i` ends and the procedure goes on, with the state `u` but for the position. -/
structure Proceeds (i : Instr) (s : State) (j : Nat) (line : Line) (u : State) : Prop where
  pos : s.pos = .at j line.lastBeat
  here : (linesOf i s)[j]? = some line
  answered : s.nextReply.failed = false ∨ ∃ act, line = .silent act
  verdict : line.verdict s = .proceed u

/-- A step of a command made at its entry: its checks pass, or it faults with nothing written. -/
def StartsTo (i : Instr) (s t : State) : Prop :=
  (∀ j b, s.pos ≠ .at j b) ∧
  ((∃ u, Frame i s u ∧ SameLog s u ∧ t = goTo (linesOf i s).length 0 u) ∨
   ∃ c, c ≠ .none ∧ c ≠ .auth ∧ t = s.ended .fault c)

/-- A step of a command made within line `j`: TRANSPORT, or a later beat of the same line. -/
def WithinTo (i : Instr) (s : State) (j : Nat) (t : State) : Prop :=
  ∃ b line, s.pos = .at j b ∧ (linesOf i s)[j]? = some line ∧
    ((∃ p, t = raiseFault .transport (recordEvent p s)) ∨
     ∃ p x b', line.hasBeat b' = true ∧ b.rank < b'.rank ∧ t = toBeat j b' (s.recorded p x))

/-- A step of a command in which line `j` ends without going on to the next line: STATUS_DECODE's skip, the busy poll's
repetition, or a fault. -/
def StopsTo (i : Instr) (s : State) (j : Nat) (line : Line) (t : State) : Prop :=
  s.pos = .at j line.lastBeat ∧ (linesOf i s)[j]? = some line ∧
  ((i = .statusDecode ∧ ∃ u, Frame i s u ∧ t = goTo (linesOf i s).length (j + 2) u) ∨
   ((∃ a, line = .readReg a pollTest) ∧ ∃ u, Frame i s u ∧ u.pollCount = s.pollCount + 1 ∧
     ¬ (s.pollLimit ≠ 0 ∧ s.pollLimit.toNat ≤ (s.pollCount + 1).toNat) ∧ t = toBeat j .start u) ∨
   ∃ c u, line.verdict s = .raise c u ∧ Frame i s u ∧ c ≠ .none ∧ (c = .auth → line = .silent verdictAuth) ∧
     t = raiseFault c u)

theorem checkFault_ne_auth (i : Instr) (s : State) : checkFault i s ≠ .auth := by
  unfold checkFault
  split
  · cases i <;> simp
  · split_ifs <;> simp

/-- Every step of a command is one of these. -/
theorem exec_cases {s t : State} (h : exec i s = .next t) :
    StartsTo i s t ∨ (∃ j, WithinTo i s j t) ∨
    (∃ j line u, Proceeds i s j line u ∧ Frame i s u ∧ t = goTo (linesOf i s).length (j + 1) u) ∨
    ∃ j line, StopsTo i s j line t := by
  rw [exec_eq_runCommand] at h
  rcases runCommand_next h with ⟨hp, h⟩ | ⟨j, b, line, hp, hline, h⟩
  · have hlog := entryOf_sameLog i s
    refine .inl ⟨hp, ?_⟩
    rcases entryOf_checked i s with ⟨hc, u, he, hfault⟩ | ⟨-, u, he, hu⟩ <;> rw [he] at h hlog <;> cases h
    · exact .inr ⟨_, hc, checkFault_ne_auth i s, hfault⟩
    · exact .inl ⟨u, hu, hlog, rfl⟩
  · rcases runLine_next h with ⟨p, rfl⟩ | ⟨p, x, b', hb', hrank, rfl⟩ | ⟨rfl, hanswered, h⟩
    · exact .inr (.inl ⟨j, b, line, hp, hline, .inl ⟨p, rfl⟩⟩)
    · exact .inr (.inl ⟨j, b, line, hp, hline, .inr ⟨p, x, b', hb', hrank, rfl⟩⟩)
    · refine .inr (.inr ?_)
      rcases (linesOf_lawful i s line (List.mem_of_getElem? hline)).verdict_cases s with
        ⟨u, e, hu⟩ | ⟨u, e, hi, hu⟩ | ⟨u, e, hl, hu, hcount, hlimit⟩ | ⟨c, u, e, hu, hc, hauth⟩ | e <;>
        rw [e, settle] at h <;> cases h
      · exact .inl ⟨j, line, u, ⟨hp, hline, hanswered, e⟩, hu, rfl⟩
      · exact .inr ⟨j, line, hp, hline, .inl ⟨hi, u, hu, rfl⟩⟩
      · exact .inr ⟨j, line, hp, hline, .inr (.inl ⟨hl, u, hu, hcount, hlimit, rfl⟩)⟩
      · exact .inr ⟨j, line, hp, hline, .inr (.inr ⟨c, u, e, hu, hc, hauth, rfl⟩)⟩

theorem goTo_pos {n j k : Nat} {b : Beat} {u : State} (h : (goTo n j u).pos = .at k b) : k = j ∧ b = .start := by
  rcases goTo_cases n j u with ⟨-, e⟩ | ⟨-, e⟩ <;> rw [e] at h <;> cases h
  exact ⟨rfl, rfl⟩

theorem start_ne_of_rank {b b' : Beat} (h : b.rank < b'.rank) : b' ≠ .start := by
  rintro rfl
  exact Nat.not_lt_zero _ h

/-- How a step comes to stand at the start of line `k`, but for STATUS_DECODE: the entry, the line before, or a busy poll
at that line. -/
theorem exec_to_start {s t : State} (hi : i ≠ .statusDecode) (h : exec i s = .next t) {k : Nat}
    (ht : t.pos = .at k .start) :
    k = 0 ∨ (∃ j line u, k = j + 1 ∧ Proceeds i s j line u ∧ Frame i s u ∧ t = toBeat k .start u) ∨
    ∃ a, (linesOf i s)[k]? = some (.readReg a pollTest) := by
  rcases exec_cases h with ⟨-, ⟨u, -, -, rfl⟩ | ⟨c, -, -, rfl⟩⟩ | ⟨j, b, line, -, -, ⟨p, rfl⟩ | ⟨p, x, b', -, hb, rfl⟩⟩ |
    ⟨j, line, u, hproceeds, hu, rfl⟩ | ⟨j, line, -, hline, ⟨hs, -⟩ | ⟨⟨a, rfl⟩, u, -, -, -, rfl⟩ | ⟨c, u, -, -, -, -, rfl⟩⟩
  · exact .inl (goTo_pos ht).1
  · cases ht
  · cases ht
  · cases ht; exact absurd rfl (start_ne_of_rank hb)
  · obtain ⟨rfl, -⟩ := goTo_pos ht
    rcases goTo_cases (linesOf i s).length (j + 1) u with ⟨-, e⟩ | ⟨-, e⟩
    · exact .inr (.inl ⟨j, line, u, rfl, hproceeds, hu, e⟩)
    · rw [e] at ht; cases ht
  · exact absurd hs hi
  · cases ht; exact .inr (.inr ⟨a, hline⟩)
  · cases ht

/-! ## The bus log when a line is done -/

theorem hasJustRead_congr {s t : State} {a c : Byte} (hcfg : t.cfgReg = s.cfgReg) (hlog : t.logRev = s.logRev)
    (h : s.hasJustRead a c) : t.hasJustRead a c := by
  simpa only [State.hasJustRead, State.addrW, State.addrR, State.devAddr, hcfg, hlog] using h

theorem hasJustWritten_congr {s t : State} {a v : Byte} (hcfg : t.cfgReg = s.cfgReg) (hlog : t.logRev = s.logRev)
    (h : s.hasJustWritten a v) : t.hasJustWritten a v := by
  simpa only [State.hasJustWritten, State.addrW, State.devAddr, hcfg, hlog] using h

/-- BusStop completes ReadReg in the log (R83). -/
theorem readReg_logged {s : State} {a : Byte} {use : Byte → State → Verdict} (hf : s.nextReply.failed = false)
    (h : (Line.readReg a use).InProgress s .stop) : (recordEvent .stop s).hasJustRead a s.scratch.byte := by
  obtain ⟨d, h⟩ := h
  exact ⟨d, by simpa [answerOf, hf, State.addrW, State.addrR, State.devAddr] using h⟩

/-- BusStop completes WriteReg in the log (R85). -/
theorem writeReg_logged {s : State} {a v : Byte} {after : State → State} (hf : s.nextReply.failed = false)
    (h : (Line.writeReg a v after).InProgress s .stop) : (recordEvent .stop s).hasJustWritten a v := by
  simpa [Line.InProgress, State.hasJustWritten, answerOf, hf, State.addrW, State.devAddr] using h

/-- After a ReadReg the byte that it returned is the newest transaction's. -/
theorem Proceeds.justRead {s u : State} {j : Nat} {a : Byte} {use : Byte → State → Verdict}
    (h : Proceeds i s j (.readReg a use) u) (hd : decode s.latch = .ok i) (hin : s.InFlight) (hu : Frame i s u) :
    u.hasJustRead a s.scratch.byte := by
  have hf : s.nextReply.failed = false := h.answered.resolve_right (by rintro ⟨act, e⟩; cases e)
  have hkeeps := linesOf_sameLog i s _ (List.mem_of_getElem? h.here)
  have hlog : (use s.scratch.byte (recordEvent .stop s)).Keeps (SameLog (recordEvent .stop s)) := hkeeps _ _ _ rfl
  have hverdict : use s.scratch.byte (recordEvent .stop s) = .proceed u := h.verdict
  rw [hverdict] at hlog
  refine hasJustRead_congr ?_ hlog (readReg_logged hf ((inFlight_iff h.pos).1 hin i _ hd h.here))
  rw [hu.cfgReg, recordEvent_cfgReg]

/-- After a WriteReg it is the newest transaction. -/
theorem Proceeds.justWritten {s u : State} {j : Nat} {a v : Byte} {after : State → State}
    (h : Proceeds i s j (.writeReg a v after) u) (hd : decode s.latch = .ok i) (hin : s.InFlight) (hu : Frame i s u) :
    u.hasJustWritten a v := by
  have hf : s.nextReply.failed = false := h.answered.resolve_right (by rintro ⟨act, e⟩; cases e)
  have hkeeps := linesOf_sameLog i s _ (List.mem_of_getElem? h.here)
  have hlog : SameLog (recordEvent .stop s) (after (recordEvent .stop s)) := hkeeps _ _ rfl
  have hverdict : after (recordEvent .stop s) = u := Verdict.proceed.inj h.verdict
  rw [hverdict] at hlog
  refine hasJustWritten_congr ?_ hlog (writeReg_logged hf ((inFlight_iff h.pos).1 hin i _ hd h.here))
  rw [hu.cfgReg, recordEvent_cfgReg]

/-- A line with `WriteReg` and nothing after it leaves the text of the procedure as it is. -/
theorem Proceeds.lines_of_writeTo {s u : State} {j : Nat} {a v : Byte} (h : Proceeds i s j (writeTo a v) u) :
    linesOf i u = linesOf i s := by
  have hu : recordEvent .stop s = u := Verdict.proceed.inj h.verdict
  subst hu
  apply linesOf_congr <;> simp

/-- The line that a step completed is the one in the text after the step. -/
theorem Proceeds.line_after {s u : State} {j : Nat} {line line' : Line} (h : Proceeds i s j line u) (hu : Frame i s u)
    (hline' : (linesOf i u)[j]? = some line') : line' = line := by
  obtain ⟨l, hl, hlike⟩ := like_getElem? (linesOf_like i hu.config.symm hu.selLatch.symm) h.here
  obtain rfl : l = line' := Option.some.inj (hl.symm.trans hline')
  rcases hlike with rfl | ⟨a, v, w, rfl, rfl⟩
  · rfl
  · rw [h.lines_of_writeTo, h.here] at hl
    exact (Option.some.inj hl).symm

/-! ## The text of the procedures (R105, R106, R111) -/

/-- A silent line that may raise AUTH. -/
def raisesAuth (act : State → Verdict) : Prop := ∃ s u, act s = .raise .auth u

/-- Where a line may stand, by the line before it: a WriteReg after a busy poll, where it writes the control, the address or
the odd data register, or as one of the exceptions of R105 and R111; the verdict of AUTH after the session lock (R113). -/
def Placed (c : Config) (prev : Option Line) : Line → Prop
  | .writeReg a _ _ =>
    (prev = some (.readReg c.regEeCtrl pollTest) ∧ a ∈ [c.regEeCtrl, c.regEeAddr, c.regEeWrOdd]) ∨
    (a = c.regEeWrEven ∧ ∃ v, prev = some (writeTo c.regEeWrOdd v)) ∨
    (a = c.regAuthPwEven ∧ prev = some (writeTo c.regEeCtrl 0x50#8)) ∨
    (a = c.regAuthPwOdd ∧ ∃ v, prev = some (writeTo c.regAuthPwEven v))
  | .silent act => raisesAuth act → prev = some (writeTo c.regEeCtrl 0x00#8)
  | _ => True

/-- Every line of a text stands where it may, with the line `prev` before the first. -/
def Disciplined (c : Config) : Option Line → List Line → Prop
  | _, [] => True
  | prev, line :: rest => Placed c prev line ∧ Disciplined c (some line) rest

/-- A part of a text in which every line stands where it may, whatever stands before the part. -/
def Placeable (c : Config) (ls : List Line) : Prop := ∀ prev, Disciplined c prev ls

theorem Placeable.append {c : Config} {ls ls' : List Line} (h : Placeable c ls) (h' : Placeable c ls') :
    Placeable c (ls ++ ls') := by
  intro prev
  have hprev := h prev
  clear h
  induction ls generalizing prev with
  | nil => exact h' prev
  | cons l ls ih => exact ⟨hprev.1, ih _ hprev.2⟩

theorem Placeable.flatMap {c : Config} {α : Type} {xs : List α} {f : α → List Line} (h : ∀ x ∈ xs, Placeable c (f x)) :
    Placeable c (xs.flatMap f) := by
  induction xs with
  | nil => exact fun _ => trivial
  | cons x xs ih =>
    rw [List.flatMap_cons]
    exact (h x List.mem_cons_self).append (ih fun y hy => h y (List.mem_cons_of_mem x hy))

theorem Disciplined.getElem?_zero {c : Config} {prev : Option Line} {ls : List Line} (h : Disciplined c prev ls)
    {line : Line} (hl : ls[0]? = some line) : Placed c prev line := by
  cases ls with
  | nil => cases hl
  | cons l ls => cases hl; exact h.1

theorem Disciplined.getElem?_succ {c : Config} {ls : List Line} :
    ∀ {prev : Option Line} {j : Nat} {line : Line}, Disciplined c prev ls → ls[j + 1]? = some line →
      Placed c ls[j]? line := by
  induction ls with
  | nil => intro prev j line _ hl; cases hl
  | cons l ls ih =>
    intro prev j line h hl
    cases j with
    | zero => exact h.2.getElem?_zero (by simpa using hl)
    | succ j => exact ih h.2 (by simpa using hl)

/-- R105 and R111 in the words of the statement. -/
theorem Disciplined.pollDisciplined {c : Config} {ls : List Line} :
    ∀ {prev : Option Line}, Disciplined c prev ls → pollDisciplined c prev ls := by
  induction ls with
  | nil => exact fun _ => trivial
  | cons l ls ih =>
    intro prev h
    refine ⟨?_, ih h.2⟩
    cases l with
    | writeReg a v after => exact h.1.imp_left And.left
    | readReg | busInit | busClose | silent => trivial

theorem not_raisesAuth_proceed (f : State → State) : ¬ raisesAuth fun s => .proceed (f s) := by
  rintro ⟨s, u, h⟩
  cases h

theorem not_raisesAuth_pollReset : ¬ raisesAuth pollReset := not_raisesAuth_proceed _

theorem not_raisesAuth_readWordStore (a : Byte) : ¬ raisesAuth (readWordStore a) := by
  rintro ⟨s, u, h⟩
  rcases readWordStore_cases a s with e | e | ⟨_, _, -, -, e⟩ <;> rw [e] at h <;> cases h

theorem not_raisesAuth_fetchSourceWord (k : Nat) : ¬ raisesAuth (fetchSourceWord k) := by
  rintro ⟨s, u, h⟩
  rcases fetchSourceWord_cases k s with e | ⟨_, _, -, -, e⟩ <;> rw [e] at h <;> cases h

theorem placeable_silent {c : Config} {act : State → Verdict} (h : ¬ raisesAuth act) : Placeable c [.silent act] :=
  fun _ => ⟨fun hact => absurd hact h, trivial⟩

theorem placeable_readReg (c : Config) (a : Byte) (use : Byte → State → Verdict) : Placeable c [.readReg a use] :=
  fun _ => ⟨trivial, trivial⟩

theorem placeable_poll (c : Config) : Placeable c (linesPoll c) :=
  (placeable_silent not_raisesAuth_pollReset).append (placeable_readReg c _ _)

/-- A write of the control, the address or the odd data register after a busy poll. -/
theorem placeable_pollWrite {c : Config} {a : Byte} (h : a ∈ [c.regEeCtrl, c.regEeAddr, c.regEeWrOdd]) (v : Byte) :
    Placeable c (linesPoll c ++ [writeTo a v]) :=
  fun _ => ⟨fun hact => absurd hact not_raisesAuth_pollReset, trivial, .inl ⟨rfl, h⟩, trivial⟩

theorem placeable_lock (c : Config) : Placeable c (linesLock c) := placeable_pollWrite (by simp) _

theorem placeable_readWordDev (c : Config) (a : Byte) : Placeable c (linesReadWordDev c a) := by
  have haddr : Placeable c (linesPoll c ++ [writeTo c.regEeAddr a]) := placeable_pollWrite (by simp) _
  have hmode : Placeable c (linesPoll c ++ [writeTo c.regEeCtrl 0x55#8]) := placeable_pollWrite (by simp) _
  have hread : ∀ r use, Placeable c (linesPoll c ++ [readInto r use]) :=
    fun r use => (placeable_poll c).append (placeable_readReg c _ _)
  have h := (((haddr.append hmode).append (hread c.regEeRdOdd saveOdd)).append (hread c.regEeRdEven saveEven)).append
    (placeable_lock c)
  simpa only [linesReadWordDev, List.append_assoc] using h

theorem placeable_readWord (s : State) (a : Byte) : Placeable s.config (linesReadWord s a) := by
  unfold linesReadWord
  split
  · exact placeable_silent (not_raisesAuth_readWordStore a)
  · exact placeable_readWordDev _ a

/-- WriteWord (R99): no poll between the two data bytes. -/
theorem placeable_writeWord (c : Config) (a even odd : Byte) : Placeable c (linesWriteWord c a even odd) := by
  have hmode : Placeable c (linesPoll c ++ [writeTo c.regEeCtrl 0x52#8]) := placeable_pollWrite (by simp) _
  have haddr : Placeable c (linesPoll c ++ [writeTo c.regEeAddr a]) := placeable_pollWrite (by simp) _
  have hdata : Placeable c (linesPoll c ++ [writeTo c.regEeWrOdd odd, writeTo c.regEeWrEven even]) := fun _ =>
    ⟨fun hact => absurd hact not_raisesAuth_pollReset, trivial, .inl ⟨rfl, by simp⟩, .inr (.inl ⟨rfl, odd, rfl⟩), trivial⟩
  have h := ((hmode.append haddr).append hdata).append (placeable_lock c)
  simpa only [linesWriteWord, List.append_assoc] using h

/-- The unlock (R111): no poll before the password bytes. -/
theorem placeable_unlock (s : State) : Placeable s.config (linesUnlock s) := fun _ =>
  ⟨fun hact => absurd hact not_raisesAuth_pollReset, trivial, .inl ⟨rfl, by simp⟩, .inr (.inr (.inl ⟨rfl, rfl⟩)),
    .inr (.inr (.inr ⟨rfl, _, rfl⟩)), trivial⟩

/-- The session lock and the verdict (R113). -/
theorem placeable_lockVerdict (c : Config) : Placeable c (linesLock c ++ [.silent verdictAuth]) := fun _ =>
  ⟨fun hact => absurd hact not_raisesAuth_pollReset, trivial, .inl ⟨rfl, by simp⟩, fun _ => rfl, trivial⟩

theorem placeable_wordResult (s : State) (a : Byte) (f : State → State) :
    Placeable s.config (linesReadWord s a ++ [.silent fun t => .proceed (f t)]) :=
  (placeable_readWord s a).append (placeable_silent (not_raisesAuth_proceed f))

theorem placeable_program (s : State) : Placeable s.config (linesEeProgram s) := by
  have herase : Placeable s.config (linesPoll s.config ++ [writeTo s.config.regEeCtrl 0x53#8]) :=
    placeable_pollWrite (by simp) _
  have hloop : Placeable s.config ((List.range 64).flatMap (linesProgramWord s)) :=
    .flatMap fun k _ => ((placeable_silent (not_raisesAuth_fetchSourceWord k)).append
      (placeable_writeWord _ _ _ _)).append (placeable_silent (not_raisesAuth_proceed _))
  have h := (((((placeable_readWord s 0x7A#8).append (placeable_unlock s)).append
    (placeable_readReg _ s.config.regAuthStatus fun b t => .proceed (takeStatus b t))).append
    (placeable_lockVerdict _)).append herase).append hloop
  simpa only [linesEeProgram, readInto, List.append_assoc] using h

/-- Every line of every procedure but those of WRITE_REG and STATUS_DECODE stands where it may. -/
theorem linesOf_placeable (s : State) (hw : ∀ a v, i ≠ .writeReg a v) (hs : i ≠ .statusDecode) :
    Placeable s.config (linesOf i s) := by
  cases i with
  | writeReg a v => exact absurd rfl (hw a v)
  | statusDecode => exact absurd rfl hs
  | readReg | eeBusy | chkId => exact placeable_readReg _ _ _
  | busInit | busClose => exact fun _ => ⟨trivial, trivial⟩
  | eeLock => exact placeable_lock _
  | eeReadWord a => exact placeable_wordResult s a _
  | eeReadImage => exact .flatMap fun k _ => placeable_wordResult s _ _
  | eeWriteWord a even odd => exact placeable_writeWord _ a even odd
  | eeProgram => exact placeable_program s
  | vcell k => exact (placeable_readReg _ _ _).append (placeable_readReg _ _ _)
  | rsense => exact placeable_wordResult s _ _
  | icur =>
    exact ((placeable_readReg _ _ _).append (placeable_readReg _ _ _)).append (placeable_wordResult s _ _)
  | vthr sel => exact placeable_wordResult s _ _
  | dvolt | dsense | dcur => exact fun _ => trivial

end Sys2Proof.Machine

/-!
PROOFS. EEPROM writes follow busy polls (R105, R111) and EEPROM commands end locked (R106), in the bus log of every run;
and the state after reset meets what these statements keep.
-/

namespace Sys2Proof.Machine

open Sys2Proof

variable {i : Instr}

/-! ## Writes follow polls in the bus log (R105, R111) -/

theorem pollTest_proceed_iff (c : Byte) (s : State) : (∃ t, pollTest c s = .proceed t) ↔ c.getLsbD 7 = false := by
  rcases pollTest_cases c s with ⟨h, e⟩ | ⟨h, e | e⟩ <;> rw [e]
  · exact iff_of_true ⟨s, rfl⟩ h
  all_goals exact iff_of_false (by rintro ⟨t, ht⟩; cases ht) (by rw [← busyBit, h]; simp)

theorem followsPoll_of_pos {s : State} (hp : ∀ j b, s.pos ≠ .at j b) : s.FollowsPoll :=
  fun j _ _ _ _ h => absurd h (hp j .start)

theorem SameCommand.followsPoll {s t : State} (h : SameCommand s t) (hs : s.FollowsPoll) : t.FollowsPoll := by
  intro j i a v after hp hd hw hst hline c
  rw [h.lines] at hline
  rw [h.pos] at hp
  rw [h.latch] at hd
  have hwritten : ∀ {r x}, s.hasJustWritten r x → t.hasJustWritten r x := hasJustWritten_congr h.cfgReg h.logRev
  obtain ⟨hpolled, heven⟩ := hs j i a v after hp hd hw hst hline
  simp only [c, h.config]
  refine ⟨?_, fun ha hnot => (heven ha hnot).imp fun _ => hwritten⟩
  exact hpolled.imp
    (fun ⟨b, hb, hread⟩ => ⟨b, hb, hasJustRead_congr h.cfgReg h.logRev hread⟩)
    (Or.imp (And.imp_right (Exists.imp fun _ => hwritten))
      (Or.imp (And.imp_right hwritten) (And.imp_right (Exists.imp fun _ => hwritten))))

/-- What the log shows before a WriteReg of `a` whose line before has just been completed. -/
theorem Proceeds.polled {s u : State} {j : Nat} {line : Line} (h : Proceeds i s j line u)
    (hd : decode s.latch = .ok i) (hin : s.InFlight) (hu : Frame i s u) {a v : Byte} {after : State → State}
    (hplaced : Placed s.config (some line) (.writeReg a v after)) :
    let c := s.config
    ((∃ b, b.getLsbD 7 = false ∧ u.hasJustRead c.regEeCtrl b) ∨
      (a = c.regEeWrEven ∧ ∃ x, u.hasJustWritten c.regEeWrOdd x) ∨
      (a = c.regAuthPwEven ∧ u.hasJustWritten c.regEeCtrl 0x50#8) ∨
      (a = c.regAuthPwOdd ∧ ∃ x, u.hasJustWritten c.regAuthPwEven x)) ∧
    (a = c.regEeWrEven → a ∉ [c.regEeCtrl, c.regEeAddr, c.regEeWrOdd, c.regAuthPwEven, c.regAuthPwOdd] →
      ∃ x, u.hasJustWritten c.regEeWrOdd x) := by
  rcases hplaced with ⟨hpoll, hmem⟩ | ⟨ha, x, hodd⟩ | ⟨ha, hmode⟩ | ⟨ha, x, hpw⟩
  · obtain rfl := Option.some.inj hpoll
    have hbit : s.scratch.byte.getLsbD 7 = false := (pollTest_proceed_iff _ (recordEvent .stop s)).1 ⟨u, h.verdict⟩
    refine ⟨.inl ⟨_, hbit, h.justRead hd hin hu⟩, fun _ hnot => ?_⟩
    simp only [List.mem_cons, List.not_mem_nil, or_false] at hmem hnot
    rcases hmem with e | e | e <;> simp [e] at hnot
  · obtain rfl := Option.some.inj hodd
    have hw := h.justWritten hd hin hu
    exact ⟨.inr (.inl ⟨ha, x, hw⟩), fun _ _ => ⟨x, hw⟩⟩
  · obtain rfl := Option.some.inj hmode
    exact ⟨.inr (.inr (.inl ⟨ha, h.justWritten hd hin hu⟩)), fun _ hnot => absurd (by simp [ha]) hnot⟩
  · obtain rfl := Option.some.inj hpw
    exact ⟨.inr (.inr (.inr ⟨ha, x, h.justWritten hd hin hu⟩)), fun _ hnot => absurd (by simp [ha]) hnot⟩

/-- A step of the running command that leads to a WriteReg has just completed the line that the text has before it. -/
theorem exec_followsPoll {s t : State} (hd : decode s.latch = .ok i) (hin : s.InFlight) (h : exec i s = .next t) :
    t.FollowsPoll := by
  intro k i' a v after ht hd' hw hst hline
  have hf := exec_frame h
  rw [hf.latch, hd] at hd'
  obtain rfl := Except.ok.inj hd'
  have htext := linesOf_placeable t hw hst none
  rcases exec_to_start hst h ht with rfl | ⟨j, line, u, rfl, hproceeds, hu, rfl⟩ | ⟨b, hpoll⟩
  · have hplaced := htext.getElem?_zero hline
    simp [Placed] at hplaced
  · have hlines : linesOf i (toBeat (j + 1) .start u) = linesOf i u := linesOf_congr i rfl rfl rfl rfl
    have hplaced := htext.getElem?_succ hline
    rw [hlines, toBeat_config, hu.config] at hplaced
    have hprev : (linesOf i u)[j]? = some line := by
      obtain ⟨l, hl, -⟩ := like_getElem? (linesOf_like i hu.config.symm hu.selLatch.symm) hproceeds.here
      rw [hl, hproceeds.line_after hu hl]
    rw [hprev] at hplaced
    simp only [toBeat_config, hu.config]
    exact hproceeds.polled hd hin hu hplaced
  · obtain ⟨l, hl, hlike⟩ := like_getElem? (linesOf_like i (s := t) (t := s) hf.config.symm hf.selLatch.symm) hpoll
    rw [hline] at hl
    obtain rfl := Option.some.inj hl
    rcases hlike with e | ⟨_, _, _, e, -⟩ <;> cases e

/-- Settles O53: the text, the poll, and the bus log step by step. -/
theorem eepromWritesFollowPolls : Obligations.EepromWritesFollowPolls := by
  refine ⟨fun s i hw hst => (linesOf_placeable s hw hst none).pollDisciplined, pollTest_proceed_iff, ?_⟩
  intro s t hinv hin hfollows h
  rcases step_command hinv h with hsame | hpos | ⟨i, rest, hd, h⟩
  · exact hsame.followsPoll hfollows
  · exact followsPoll_of_pos hpos
  · exact exec_followsPoll (s := { s with inbox := rest }) hd hin h

/-! ## The state after reset -/

theorem deployed_legal : Config.deployed.Legal := by
  unfold Config.deployed
  split
  · assumption
  · decide

/-- Settles O57: reset is a state without a command. -/
theorem resetMeetsInvariant : Obligations.ResetMeetsInvariant :=
  ⟨Inv_reset (s := State.reset) deployed_legal, inFlight_of_pos fun j b => by simp [State.reset],
    followsPoll_of_pos fun j b => by simp [State.reset]⟩

/-! ## EEPROM commands end locked (R106) -/

/-- A text that ends with the write of Lock, but for a silent line that may follow it. -/
def EndsLocked (c : Config) (ls : List Line) : Prop :=
  ∃ pre, ls = pre ++ [writeTo c.regEeCtrl 0x00#8] ∨ ∃ act, ls = pre ++ [writeTo c.regEeCtrl 0x00#8, .silent act]

theorem endsLocked_lock (c : Config) (pre : List Line) : EndsLocked c (pre ++ linesLock c) :=
  ⟨pre ++ linesPoll c, .inl (List.append_assoc ..).symm⟩

theorem endsLocked_lockSilent (c : Config) (pre : List Line) (act : State → Verdict) :
    EndsLocked c (pre ++ linesLock c ++ [.silent act]) :=
  ⟨pre ++ linesPoll c, .inr ⟨act, by simp [linesLock]⟩⟩

theorem EndsLocked.append {c : Config} {ls : List Line} (h : EndsLocked c ls) (pre : List Line) :
    EndsLocked c (pre ++ ls) := by
  obtain ⟨p, rfl | ⟨act, rfl⟩⟩ := h
  · exact ⟨pre ++ p, .inl (List.append_assoc ..).symm⟩
  · exact ⟨pre ++ p, .inr ⟨act, (List.append_assoc ..).symm⟩⟩

/-- A loop over 64 words ends as its last word does. -/
theorem EndsLocked.loop {c : Config} {f : Nat → List Line} (h : EndsLocked c (f 63)) :
    EndsLocked c ((List.range 64).flatMap f) := by
  rw [List.range_succ, List.flatMap_append, List.flatMap_singleton]
  exact h.append _

/-- The commands of R106, with the variant of the word reads. -/
def locksAtEnd (i : Instr) (sel : Bool) : Prop :=
  i = .eeLock ∨ i = .eeProgram ∨ (∃ a even odd, i = .eeWriteWord a even odd) ∨
    (sel = false ∧ (i = .eeReadImage ∨ ∃ a, i = .eeReadWord a))

theorem linesOf_endsLocked {s : State} (hi : locksAtEnd i s.selLatch) : EndsLocked s.config (linesOf i s) := by
  have hword : s.selLatch = false → ∀ a act, EndsLocked s.config (linesReadWord s a ++ [.silent act]) := by
    intro hsel a act
    rw [linesReadWord, hsel, if_neg Bool.false_ne_true]
    exact endsLocked_lockSilent _ _ act
  rcases hi with rfl | rfl | ⟨a, even, odd, rfl⟩ | ⟨hsel, rfl | ⟨a, rfl⟩⟩
  · exact endsLocked_lock _ []
  · refine EndsLocked.append (EndsLocked.loop ?_) _
    rw [linesProgramWord, linesWriteWord, ← List.append_assoc]
    exact endsLocked_lockSilent _ _ _
  · exact endsLocked_lock _ _
  · exact EndsLocked.loop (hword hsel _ _)
  · exact hword hsel a _

theorem ne_of_locksAtEnd {sel : Bool} (hi : locksAtEnd i sel) : i ≠ .statusDecode ∧ ∀ a v, i ≠ .writeReg a v := by
  rcases hi with rfl | rfl | ⟨a, even, odd, rfl⟩ | ⟨-, rfl | ⟨a, rfl⟩⟩ <;> simp

/-- The write of Lock is the newest transaction. -/
def State.Locked (s : State) : Prop := s.hasJustWritten s.config.regEeCtrl 0x00#8

/-- Where command `i` stands at a silent line behind a WriteReg, that WriteReg is the newest transaction. -/
def State.AfterWrite (i : Instr) (s : State) : Prop :=
  ∀ j a v after act, s.pos = .at (j + 1) .start → (linesOf i s)[j]? = some (.writeReg a v after) →
    (linesOf i s)[j + 1]? = some (.silent act) → s.hasJustWritten a v

/-- A state of the run of a command of R106 that was accepted with the parameters, CFG and STORE_SEL of `s`. -/
structure LocksFrom (i : Instr) (s t : State) : Prop where
  alone : t.inbox = []
  latch : t.latch = s.latch
  config : t.config = s.config
  cfgReg : t.cfgReg = s.cfgReg
  selLatch : t.selLatch = s.selLatch
  running : t.phase = .running → t.InFlight ∧ t.AfterWrite i
  ended : t.phase = .done ∨ (t.phase = .fault ∧ t.fcode = .auth) → t.Locked

/-- A step of the running command leaves it, at a silent line behind a WriteReg, with that write newest in the log. -/
theorem exec_afterWrite {s t : State} (hi : i ≠ .statusDecode) (hd : decode s.latch = .ok i) (hin : s.InFlight)
    (h : exec i s = .next t) : t.AfterWrite i := by
  intro j a v after act ht hwrite hsilent
  have hf := exec_frame h
  rcases exec_to_start hi h ht with hzero | ⟨j', line, u, hk, hproceeds, hu, rfl⟩ | ⟨b, hpoll⟩
  · cases hzero
  · obtain rfl : j = j' := Nat.succ.inj hk
    have hlines : linesOf i (toBeat (j + 1) .start u) = linesOf i u := linesOf_congr i rfl rfl rfl rfl
    rw [hlines] at hwrite
    obtain rfl := hproceeds.line_after hu hwrite
    exact hproceeds.justWritten hd hin hu
  · obtain ⟨l, hl, hlike⟩ := like_getElem? (linesOf_like i (s := t) (t := s) hf.config.symm hf.selLatch.symm) hpoll
    rw [hsilent] at hl
    obtain rfl := Option.some.inj hl
    rcases hlike with e | ⟨_, _, _, e, -⟩ <;> cases e

/-- The last line of a text that ends locked leaves the device locked. -/
theorem Proceeds.locked {s u : State} {j : Nat} {line : Line} (h : Proceeds i s j line u)
    (hd : decode s.latch = .ok i) (hin : s.InFlight) (hafter : s.AfterWrite i) (hu : Frame i s u)
    (hends : EndsLocked s.config (linesOf i s)) (hlast : (linesOf i s).length ≤ j + 1) : u.Locked := by
  have hj : j < (linesOf i s).length := (List.getElem?_eq_some_iff.1 h.here).1
  have hline := h.here
  unfold State.Locked
  rw [hu.config]
  obtain ⟨pre, e | ⟨act, e⟩⟩ := hends <;> rw [e] at hj hlast hline <;> simp at hj hlast
  · obtain rfl : j = pre.length := by omega
    obtain rfl : writeTo s.config.regEeCtrl 0x00#8 = line := by simpa using hline
    exact h.justWritten hd hin hu
  · obtain rfl : j = pre.length + 1 := by omega
    obtain rfl : Line.silent act = line := by simpa using hline
    have hlog : (act s).Keeps (SameLog s) := linesOf_sameLog i s _ (List.mem_of_getElem? h.here) s s rfl
    have hverdict : act s = .proceed u := h.verdict
    rw [hverdict] at hlog
    exact hasJustWritten_congr hu.cfgReg hlog
      (hafter pre.length _ _ id act h.pos (by rw [e]; simp [writeTo]) h.here)

/-- AUTH is raised behind the session lock. -/
theorem locked_of_auth {s u : State} {j : Nat} (hst : i ≠ .statusDecode) (hw : ∀ a v, i ≠ .writeReg a v)
    (hafter : s.AfterWrite i) (hp : s.pos = .at j .start) (hline : (linesOf i s)[j]? = some (.silent verdictAuth))
    (hverdict : verdictAuth s = .raise .auth u) : s.Locked := by
  have htext := linesOf_placeable s hw hst none
  cases j with
  | zero => exact absurd (htext.getElem?_zero hline ⟨s, u, hverdict⟩) (by simp)
  | succ j => exact hafter j _ _ id _ hp (htext.getElem?_succ hline ⟨s, u, hverdict⟩) hline

/-- Every step of the run of a command of R106 keeps it such a run. -/
theorem LocksFrom.step {s t u : State} (h : LocksFrom i s t) (hd : decode s.latch = .ok i)
    (hi : locksAtEnd i s.selLatch) (hstep : step t = .next u) : LocksFrom i s u := by
  rw [step_quiet h.alone] at hstep
  have hdt : decode t.latch = .ok i := by rw [h.latch, hd]
  rcases advance_next hstep with ⟨hrun, i', hd', hexec⟩ | ⟨-, ⟨e, he⟩, -⟩ | ⟨-, rfl⟩
  · obtain rfl : i = i' := Except.ok.inj (hdt.symm.trans hd')
    obtain ⟨hin, hafter⟩ := h.running hrun
    obtain ⟨hst, hw⟩ := ne_of_locksAtEnd hi
    have hf := exec_frame hexec
    have hends : EndsLocked t.config (linesOf i t) := linesOf_endsLocked (by rwa [h.selLatch])
    refine ⟨hf.inbox.trans h.alone, hf.latch.trans h.latch, hf.config.trans h.config, hf.cfgReg.trans h.cfgReg,
      hf.selLatch.trans h.selLatch, fun _ => ⟨exec_inFlight hdt hin hexec, exec_afterWrite hst hdt hin hexec⟩, ?_⟩
    intro hended
    have hlocked : ∀ {v : State}, u.config = v.config → u.cfgReg = v.cfgReg → u.logRev = v.logRev → v.Locked →
        u.Locked := fun hc hcfg hlog hv => hasJustWritten_congr hcfg hlog (by rw [hc]; exact hv)
    have hgo : ∀ j v, v.phase = .running → u = goTo (linesOf i t).length j v →
        (linesOf i t).length ≤ j ∧ u = finish v := fun j v hv hu => by
      rcases goTo_cases (linesOf i t).length j v with ⟨-, e⟩ | ⟨hj, e⟩ <;> rw [e] at hu <;> subst hu
      · simp [hv] at hended
      · exact ⟨hj, rfl⟩
    rcases exec_cases hexec with ⟨-, ⟨v, hv, -, hu⟩ | ⟨c, -, hc, rfl⟩⟩ |
      ⟨j, b, line, -, -, ⟨p, rfl⟩ | ⟨p, x, b', -, -, rfl⟩⟩ | ⟨j, line, v, hproceeds, hv, hu⟩ |
      ⟨j, line, hp, hline, ⟨hs, -⟩ | ⟨-, v, hv, -, -, rfl⟩ | ⟨c, v, hverdict, hv, -, hauth, rfl⟩⟩
    · obtain ⟨hnone, -⟩ := hgo 0 v (hv.phase.trans hrun) hu
      obtain ⟨pre, e | ⟨act, e⟩⟩ := hends <;> rw [e] at hnone <;> simp at hnone
    · exact absurd (hended.resolve_left (by simp)).2 (by simpa using hc)
    · simp at hended
    · simp [State.recorded, hrun] at hended
    · obtain ⟨hlast, rfl⟩ := hgo (j + 1) v (hv.phase.trans hrun) hu
      exact hlocked rfl rfl rfl (hproceeds.locked hdt hin hafter hv hends hlast)
    · exact absurd hs hst
    · simp [hv.phase, hrun] at hended
    · obtain rfl : c = .auth := by simpa using hended
      obtain rfl := hauth rfl
      have hverdict' : verdictAuth t = .raise .auth v := hverdict
      have hsame : v = t := by
        rcases verdictAuth_cases t with ⟨-, e⟩ | ⟨-, e⟩ <;> rw [e] at hverdict' <;> cases hverdict'
        rfl
      exact hlocked (by rw [← hsame]; rfl) (by rw [← hsame]; rfl) (by rw [← hsame]; rfl)
        (locked_of_auth hst hw hafter hp hline hverdict')
  · rw [hdt] at he; cases he
  · exact h

theorem LocksFrom.run {s : State} (hd : decode s.latch = .ok i) (hi : locksAtEnd i s.selLatch) :
    ∀ {n : Nat} {t u : State}, LocksFrom i s t → Sys2Proof.core.run n t = .next u → LocksFrom i s u
  | 0, t, u, h, hrun => by cases hrun; exact h
  | n + 1, t, u, h, hrun => by
    cases hs : Machine.step t with
    | next v => rw [run_succ hs] at hrun; exact LocksFrom.run hd hi (h.step hd hi hs) hrun
    | fault r => rw [run_fault hs] at hrun; cases hrun
    | refused r => rw [run_refused hs] at hrun; cases hrun

/-- Settles O54: an accepted command starts such a run, and where the run has ended the device is locked. -/
theorem eepromCommandsEndLocked : Obligations.EepromCommandsEndLocked := by
  intro s t i n ⟨hrun, hpos, hd⟩ hin hi hruns hended
  have hstart : LocksFrom i s s :=
    { alone := hin, latch := rfl, config := rfl, cfgReg := rfl, selLatch := rfl
      running := fun _ => ⟨inFlight_of_pos fun j b => by simp [hpos], fun j _ _ _ _ h => by rw [hpos] at h; cases h⟩
      ended := by simp [hrun] }
  have h := hstart.run hd hi hruns
  have hlocked : t.hasJustWritten s.config.regEeCtrl 0x00#8 := h.config ▸ h.ended hended
  simpa only [State.hasJustWritten, State.addrW, State.devAddr, h.cfgReg] using hlocked

end Sys2Proof.Machine

/-!
PROOFS. With POLL_LIMIT > 0 every command ends (R175): every step of a command lessens what it has left, which is the lines to
come, then the busy answers that the poll still takes, then the bus events of the transaction.
-/

namespace Sys2Proof.Machine

open Sys2Proof

variable {i : Instr}

/-! ## The only refusal of a command (R38) -/

theorem settle_refused {n j : Nat} {v : Verdict} {r : Refusal} (h : settle n j v = .refused r) : v = .refuse r := by
  cases v <;> cases h
  rfl

theorem busCall_refused {p : BusPrim} {s : State} {k : Reply → State → Out} {r : Refusal}
    (h : busCall p s k = .refused r) : k s.nextReply (recordEvent p s) = .refused r := by
  unfold busCall at h
  split at h
  · cases h
  · exact h

/-- A refused step of a line is the line's verdict. -/
theorem runLine_refused {line : Line} {n j : Nat} {b : Beat} {s : State} {r : Refusal}
    (h : runLine n j b line s = .refused r) : line.verdict s = .refuse r := by
  cases line with
  | readReg a use =>
    simp only [runLine] at h
    cases b <;> simp only [readRegBeat] at h <;> have h := busCall_refused h
    case stop => simpa [Line.verdict] using settle_refused h
    all_goals cases h
  | writeReg a v after =>
    simp only [runLine] at h
    cases b <;> simp only [writeRegBeat, reduceCtorEq] at h <;> have h := busCall_refused h <;> cases h
  | busInit | busClose =>
    simp only [runLine] at h
    split at h
    · have h := busCall_refused h
      cases h
    · cases h
  | silent act =>
    simp only [runLine] at h
    split at h
    · exact settle_refused h
    · cases h

theorem exec_refused {s : State} {r : Refusal} (h : exec i s = .refused r) : r = .byteHoldsNoValue := by
  rw [exec_eq_runCommand] at h
  have hentry : settleEntry (linesOf i s).length (entryOf i s) ≠ .refused r := by
    rcases entryOf_checked i s with ⟨-, u, he, -⟩ | ⟨-, u, he, -⟩ <;> rw [he, settleEntry] <;> simp
  unfold runCommand at h
  split at h
  · exact absurd h hentry
  · exact absurd h hentry
  · split at h
    · next line hline =>
      have hv := runLine_refused h
      obtain ⟨w, -, -, hlawful⟩ := (linesOf_lawful i s line (List.mem_of_getElem? hline)).verdict s
      rw [hv] at hlawful
      exact hlawful
    · cases h

/-! ## What a command has left -/

/-- How many busy answers the poll in progress still takes before it faults (R93). -/
def State.pollsLeft (s : State) : Nat := (s.pollLimit.setWidth 17 - 1#17 - s.pollCount).toNat

/-- What a command with `n` lines has left at beat `b` of line `j`: one number, in which a line weighs more than all busy
answers, and a busy answer more than all bus events of a transaction. -/
def workLeft (n j : Nat) (b : Beat) (s : State) : Nat := (n - j) * 2097152 + s.pollsLeft * 16 + (10 - b.rank)

theorem pollsLeft_lt (s : State) : s.pollsLeft < 131072 := (s.pollLimit.setWidth 17 - 1#17 - s.pollCount).isLt

theorem rank_le (b : Beat) : b.rank ≤ 9 := by cases b <;> decide

theorem pollsLeft_congr {s t : State} (hcfg : t.cfgReg = s.cfgReg) (hcount : t.pollCount = s.pollCount) :
    t.pollsLeft = s.pollsLeft := by simp only [State.pollsLeft, State.pollLimit, hcfg, hcount]

/-- A busy answer below POLL_LIMIT uses one up. -/
theorem pollsLeft_busy {s t : State} (hcfg : t.cfgReg = s.cfgReg) (hcount : t.pollCount = s.pollCount + 1)
    (hlimit : (s.pollCount + 1).toNat < s.pollLimit.toNat) : t.pollsLeft < s.pollsLeft := by
  have hl := s.pollLimit.isLt
  have hp := s.pollCount.isLt
  have ht : t.pollLimit = s.pollLimit := by simp only [State.pollLimit, hcfg]
  simp only [State.pollsLeft, ht, hcount, BitVec.toNat_sub, BitVec.toNat_add, BitVec.toNat_setWidth,
    BitVec.toNat_ofNat, BitVec.ofNat_eq_ofNat] at hlimit ⊢
  omega

theorem workLeft_later_beat {n j : Nat} {b b' : Beat} {s t : State} (hp : t.pollsLeft = s.pollsLeft)
    (hb : b.rank < b'.rank) : workLeft n j b' t < workLeft n j b s := by
  have := rank_le b'
  unfold workLeft
  omega

theorem workLeft_busy {n j : Nat} {s t : State} (hp : t.pollsLeft < s.pollsLeft) :
    workLeft n j .start t < workLeft n j .stop s := by
  simp only [workLeft, Beat.rank]
  omega

theorem workLeft_later_line {n j j' : Nat} {b b' : Beat} {s t : State} (hj : j < j') (hn : j' < n) :
    workLeft n j' b' t < workLeft n j b s := by
  have := pollsLeft_lt t
  have := rank_le b
  unfold workLeft
  omega

/-! ## Every command ends -/

/-- Some number of steps from `s` the command is done, in FAULT, or refused for a byte without a value. -/
def Ends (s : State) : Prop :=
  ∃ n, (∃ t, Sys2Proof.core.run n s = .next t ∧ (t.phase = .done ∨ t.phase = .fault)) ∨
    Sys2Proof.core.run n s = .refused .byteHoldsNoValue

theorem Ends.of_ended {s : State} (h : s.phase = .done ∨ s.phase = .fault) : Ends s := ⟨0, .inl ⟨s, rfl, h⟩⟩

theorem Ends.of_next {s t : State} (h : step s = .next t) : Ends t → Ends s
  | ⟨n, hn⟩ => ⟨n + 1, by rwa [run_succ h]⟩

theorem Ends.of_refused {s : State} (h : step s = .refused .byteHoldsNoValue) : Ends s :=
  ⟨1, .inr (run_refused h 0)⟩

/-- A step of a command within its procedure ends it or leaves less. -/
theorem exec_lessens {s t : State} {j : Nat} {b : Beat} (hp : s.pos = .at j b)
    (hlimit : s.pollLimit ≠ 0) (h : exec i s = .next t) :
    (t.phase = .done ∨ t.phase = .fault) ∨
    ∃ j' b', t.pos = .at j' b' ∧ workLeft (linesOf i s).length j' b' t < workLeft (linesOf i s).length j b s := by
  have hgo : ∀ j' u, j < j' → t = goTo (linesOf i s).length j' u → (t.phase = .done ∨ t.phase = .fault) ∨
      ∃ j' b', t.pos = .at j' b' ∧ workLeft (linesOf i s).length j' b' t < workLeft (linesOf i s).length j b s := by
    rintro j' u hj rfl
    rcases goTo_cases (linesOf i s).length j' u with ⟨hn, e⟩ | ⟨-, e⟩ <;> rw [e]
    · exact .inr ⟨j', .start, rfl, workLeft_later_line hj hn⟩
    · exact .inl (.inl rfl)
  rcases exec_cases h with ⟨hnone, -⟩ | ⟨j₁, b₁, line, hp₁, -, ⟨p, rfl⟩ | ⟨p, x, b', -, hb, rfl⟩⟩ |
    ⟨j₁, line, u, hproceeds, -, ht⟩ |
    ⟨j₁, line, hp₁, -, ⟨-, u, -, ht⟩ | ⟨⟨a, rfl⟩, u, hu, hcount, hbound, rfl⟩ | ⟨c, u, -, -, -, -, rfl⟩⟩
  · exact absurd hp (hnone j b)
  · exact .inl (.inr rfl)
  · rw [hp] at hp₁
    cases hp₁
    exact .inr ⟨j, b', rfl, workLeft_later_beat (pollsLeft_congr (by simp [State.recorded]) (by simp [State.recorded])) hb⟩
  · have hj := hproceeds.pos
    rw [hp] at hj
    cases hj
    exact hgo _ u (Nat.lt_succ_self j) ht
  · rw [hp] at hp₁
    cases hp₁
    exact hgo _ u (by omega) ht
  · rw [hp] at hp₁
    cases hp₁
    have hlt : (s.pollCount + 1).toNat < s.pollLimit.toNat := Nat.not_le.1 fun hle => hbound ⟨hlimit, hle⟩
    exact .inr ⟨j, .start, rfl, workLeft_busy (pollsLeft_busy (t := toBeat j .start u) hu.cfgReg hcount hlt)⟩
  · exact .inl (.inr rfl)

/-- A command within its procedure ends, whatever the bus answers. -/
theorem ends_within {s : State} (hr : s.Runs i) (hpos : s.PositionInProcedure) (hlimit : s.pollLimit ≠ 0) {j : Nat}
    {b : Beat} (hp : s.pos = .at j b) : Ends s := by
  induction hw : workLeft (linesOf i s).length j b s using Nat.strong_induction_on generalizing s j b with
  | _ w ih =>
    have hstep : step s = exec i s := by rw [step_quiet hr.alone, advance_running hr.running hr.decodes]
    cases hexec : exec i s with
    | fault f => exact absurd hexec (exec_ne_fault hr.decodes hpos f)
    | refused r => exact .of_refused (by rw [hstep, hexec, exec_refused hexec])
    | next t =>
      refine .of_next (hstep.trans hexec) ?_
      rcases exec_lessens hp hlimit hexec with hended | ⟨j', b', ht, hless⟩
      · exact .of_ended hended
      · have hf := exec_frame hexec
        obtain ⟨u, hu, hleaves⟩ := exec_next hexec
        have hlength : (linesOf i t).length = (linesOf i s).length :=
          (linesOf_like i hf.config hf.selLatch).length_eq
        by_cases hrun : t.phase = .running
        · have hlatch : decode t.latch = .ok i := by rw [hf.latch, hr.decodes]
          have hlimit' : t.pollLimit ≠ 0 := by rwa [State.pollLimit, hf.cfgReg, ← State.pollLimit]
          rw [hw, ← hlength] at hless
          exact ih _ hless ⟨hrun, hlatch, hf.inbox.trans hr.alone⟩ (hleaves.position hu hr.decodes) hlimit' ht rfl
        · exact .of_ended ((exec_phase hexec).1.resolve_left (by rwa [hr.running]))

/-- Settles O55: the checks end the command or lead it into its procedure, in which it ends. -/
theorem boundedPollsEnd : Obligations.BoundedPollsEnd := by
  intro s i ⟨hrun, hpos, hd⟩ hin hlimit
  have hstep : step s = exec i s := by rw [step_quiet hin, advance_running hrun hd]
  rcases entryOf_checked i s with ⟨-, u, he, hfault⟩ | ⟨-, u, he, hu⟩
  · have hexec : exec i s = .next (raiseFault (checkFault i s) u) := by rw [exec_entry hpos, he, settleEntry]
    exact Ends.of_next (hstep.trans hexec) (.of_ended (.inr rfl))
  · have hexec : exec i s = .next (goTo (linesOf i s).length 0 u) := by rw [exec_entry hpos, he, settleEntry]
    refine Ends.of_next (hstep.trans hexec) ?_
    rcases goTo_cases (linesOf i s).length 0 u with ⟨hn, e⟩ | ⟨-, e⟩ <;> rw [e] at hexec ⊢
    · obtain ⟨w, hw, hleaves⟩ := exec_next hexec
      have hlatch : decode u.latch = .ok i := by rw [hu.latch, hd]
      have hlimit' : u.pollLimit ≠ 0 := by rwa [State.pollLimit, hu.cfgReg, ← State.pollLimit]
      exact ends_within (s := toBeat 0 .start u) ⟨hu.phase.trans hrun, hlatch, hu.inbox.trans hin⟩
        (hleaves.position hw hd) hlimit' rfl
    · exact .of_ended (.inl rfl)

end Sys2Proof.Machine

/-!
PROOFS. The lines of the procedures by their numbers, and one step at a line whose number is known: the buffer bytes that a
command writes (R28 to R30, R103), the last line of every command, and the lines that need a byte with a value (R38).
-/

namespace Sys2Proof.Machine

open Sys2Proof

variable {i : Instr}

/-! ## Line numbers -/

/-- A list made of blocks of one length, by block and place in the block. -/
theorem getElem?_flatMap_block {α β : Type} {f : α → List β} {len : Nat} :
    ∀ {xs : List α}, (∀ x ∈ xs, (f x).length = len) → ∀ (k : Nat) {r : Nat}, r < len →
      (xs.flatMap f)[k * len + r]? = xs[k]?.bind fun x => (f x)[r]?
  | [], _, _, _, _ => by simp
  | x :: xs, hlen, 0, r, hr => by
    have hx : (f x).length = len := hlen x List.mem_cons_self
    rw [List.flatMap_cons, List.getElem?_append_left (by omega)]
    simp
  | x :: xs, hlen, k + 1, r, hr => by
    have hx : (f x).length = len := hlen x List.mem_cons_self
    have ih := getElem?_flatMap_block (fun y hy => hlen y (List.mem_cons_of_mem x hy)) k hr
    rw [List.flatMap_cons, List.getElem?_append_right (by rw [hx, Nat.succ_mul]; omega),
      show (k + 1) * len + r - (f x).length = k * len + r by rw [hx, Nat.succ_mul]; omega, ih]
    simp

theorem length_flatMap_block {α β : Type} {f : α → List β} {len : Nat} {xs : List α}
    (h : ∀ x ∈ xs, (f x).length = len) : (xs.flatMap f).length = xs.length * len := by
  induction xs with
  | nil => simp
  | cons x xs ih =>
    rw [List.flatMap_cons, List.length_append, h x List.mem_cons_self, ih fun y hy => h y (List.mem_cons_of_mem x hy),
      List.length_cons, Nat.succ_mul, Nat.add_comm]

/-- How many lines a word read has (R96 to R98). -/
def wordLines (sel : Bool) : Nat := if sel then 1 else 15

theorem linesReadWord_length (s : State) (a : Byte) : (linesReadWord s a).length = wordLines s.selLatch := by
  unfold linesReadWord wordLines
  split <;> rfl

/-- The line behind a word read. -/
theorem wordResult_line (s : State) (a : Byte) (pre : List Line) (line : Line) :
    (pre ++ linesReadWord s a ++ [line])[pre.length + wordLines s.selLatch]? = some line := by
  rw [← linesReadWord_length s a, ← List.length_append, List.getElem?_append_right (Nat.le_refl _), Nat.sub_self]
  rfl

theorem wordResult_length (s : State) (a : Byte) (pre : List Line) (line : Line) :
    (pre ++ linesReadWord s a ++ [line]).length = pre.length + wordLines s.selLatch + 1 := by
  rw [List.length_append, List.length_append, linesReadWord_length, List.length_singleton]

/-- How many lines a word of EE_READ_IMAGE has (R103). -/
def imageLines (sel : Bool) : Nat := if sel then 2 else 16

theorem linesImageWord_length (s : State) (k : Nat) : (linesImageWord s k).length = imageLines s.selLatch := by
  rw [linesImageWord, List.length_append, linesReadWord_length, wordLines, imageLines]
  split <;> rfl

theorem linesEeReadImage_getElem? (s : State) {k : Nat} (hk : k < 64) {r : Nat} (hr : r < imageLines s.selLatch) :
    (linesEeReadImage s)[k * imageLines s.selLatch + r]? = (linesImageWord s k)[r]? := by
  rw [linesEeReadImage, getElem?_flatMap_block (fun x _ => linesImageWord_length s x) k hr, List.getElem?_range hk]
  rfl

theorem linesEeReadImage_length (s : State) : (linesEeReadImage s).length = 64 * imageLines s.selLatch := by
  rw [linesEeReadImage, length_flatMap_block fun x _ => linesImageWord_length s x, List.length_range]

/-- The last line of word `k` of EE_READ_IMAGE stores the word. -/
theorem linesImageWord_last (s : State) (k : Nat) {r : Nat} (hr : r + 1 = imageLines s.selLatch) :
    (linesImageWord s k)[r]? = some (.silent (storeImageWord k)) := by
  have hword := linesReadWord_length s (BitVec.ofNat 8 (2 * k))
  have e : wordLines s.selLatch = r := by unfold wordLines; unfold imageLines at hr; split at hr <;> simp_all
  rw [linesImageWord, List.getElem?_append_right (by omega), hword, e, Nat.sub_self]
  rfl

/-- The other lines of word `k` read the word. -/
theorem linesImageWord_read (s : State) (k : Nat) {r : Nat} (hr : r + 1 < imageLines s.selLatch) :
    (linesImageWord s k)[r]? = (linesReadWord s (BitVec.ofNat 8 (2 * k)))[r]? := by
  have hword := linesReadWord_length s (BitVec.ofNat 8 (2 * k))
  have e : wordLines s.selLatch + 1 = imageLines s.selLatch := by unfold wordLines imageLines; split <;> rfl
  rw [linesImageWord, List.getElem?_append_left (by omega)]

/-- How many lines EE_PROGRAM has before its first word (R110 to R114). -/
def programHead (sel : Bool) : Nat := wordLines sel + 13

/-- EE_PROGRAM before its first word: the password read, the session and the erase. -/
def linesProgramHead (s : State) : List Line :=
  linesReadWord s 0x7A#8 ++
  linesUnlock s ++
  [readInto s.config.regAuthStatus takeStatus] ++
  linesLock s.config ++
  [.silent verdictAuth] ++
  linesPoll s.config ++ [writeTo s.config.regEeCtrl 0x53#8]

theorem linesEeProgram_eq (s : State) :
    linesEeProgram s = linesProgramHead s ++ (List.range 64).flatMap (linesProgramWord s) := rfl

theorem linesProgramHead_length (s : State) : (linesProgramHead s).length = programHead s.selLatch := by
  simp [linesProgramHead, programHead, linesReadWord_length, linesUnlock, linesLock, linesPoll]

theorem linesEeProgram_getElem? (s : State) {k : Nat} (hk : k < 64) {r : Nat} (hr : r < 15) :
    (linesEeProgram s)[programHead s.selLatch + (k * 15 + r)]? = (linesProgramWord s k)[r]? := by
  rw [linesEeProgram_eq, ← linesProgramHead_length, List.getElem?_append_right (Nat.le_add_right ..),
    Nat.add_sub_cancel_left, getElem?_flatMap_block (len := 15) (f := linesProgramWord s) (fun _ _ => rfl) k hr,
    List.getElem?_range hk]
  rfl

theorem linesEeProgram_length (s : State) : (linesEeProgram s).length = programHead s.selLatch + 960 := by
  rw [linesEeProgram_eq, List.length_append, linesProgramHead_length,
    length_flatMap_block (len := 15) (fun _ _ => rfl), List.length_range]

/-! ## One step at a line (R17) -/

/-- At its last beat a line whose event does not fail gives its verdict. -/
theorem runLine_last {line : Line} {s : State} (hf : s.nextReply.failed = false ∨ ∃ act, line = .silent act) (n j : Nat) :
    runLine n j line.lastBeat line s = settle n j (line.verdict s) := by
  rcases hf with hf | ⟨act, rfl⟩
  · cases line <;> simp [runLine, Line.lastBeat, Line.verdict, readRegBeat, writeRegBeat, busCall_ok hf]
  · simp [runLine, Line.lastBeat, Line.verdict]

theorem exec_verdict {s : State} {j : Nat} {line : Line} (hp : s.pos = .at j line.lastBeat)
    (hline : (linesOf i s)[j]? = some line) (hf : s.nextReply.failed = false ∨ ∃ act, line = .silent act) :
    exec i s = settle (linesOf i s).length j (line.verdict s) := by
  rw [exec_at hp hline, runLine_last hf]

/-- The last line of a procedure completes the command. -/
theorem exec_done {s u : State} {j : Nat} {line : Line} (hp : s.pos = .at j line.lastBeat)
    (hline : (linesOf i s)[j]? = some line) (hlast : (linesOf i s).length = j + 1)
    (hf : s.nextReply.failed = false ∨ ∃ act, line = .silent act) (hv : line.verdict s = .proceed u) :
    exec i s = .next (finish u) := by
  rw [exec_verdict hp hline hf, hv, settle, goTo_end (Nat.le_of_eq hlast)]

/-! ## Buffer bytes (R28 to R30, R103) -/

/-- A step of a line that is lawful for another command than EE_READ_IMAGE writes no byte of the buffers. -/
theorem runLine_mem {line : Line} (hl : line.Lawful i) (hi : i ≠ .eeReadImage) {n j : Nat} {b : Beat} {s t : State}
    (h : runLine n j b line s = .next t) : t.mem = s.mem := by
  rcases runLine_next h with ⟨p, rfl⟩ | ⟨p, x, b', -, -, rfl⟩ | ⟨-, -, h⟩
  · simp
  · exact (Frame.recorded (i := i) p x s).mem hi
  · rcases hl.verdict_cases s with ⟨u, e, hu⟩ | ⟨u, e, -, hu⟩ | ⟨u, e, -, hu, -⟩ | ⟨c, u, e, hu, -⟩ | e <;>
      rw [e, settle] at h <;> cases h
    · rw [goTo_mem, hu.mem hi]
    · rw [goTo_mem, hu.mem hi]
    · exact hu.mem hi
    · exact hu.mem hi

/-- The entry of EE_READ_IMAGE writes no byte of the buffers. -/
theorem entryEeReadImage_mem {n : Nat} {s t : State} (h : settleEntry n (entryEeReadImage s) = .next t) :
    t.mem = s.mem := by
  rcases needBusForWord_cases s with ⟨-, e⟩ | ⟨-, -, e⟩ <;> rw [entryEeReadImage, e] at h <;> cases h
  · rw [goTo_mem]
    rfl
  · rfl

/-- A step of EE_READ_IMAGE at a line of its text: which line of which word. -/
theorem eeReadImage_at {s t : State} (h : exec .eeReadImage s = .next t) {k r : Nat} {b : Beat}
    (hr : r < imageLines s.selLatch) (hp : s.pos = .at (k * imageLines s.selLatch + r) b) :
    ∃ line, (linesImageWord s k)[r]? = some line ∧
      runLine (linesOf .eeReadImage s).length (k * imageLines s.selLatch + r) b line s = .next t := by
  rw [exec_eq_runCommand, runCommand, hp] at h
  have hk : k < 64 := by
    by_contra hk
    have hend : (linesOf .eeReadImage s)[k * imageLines s.selLatch + r]? = none := by
      refine List.getElem?_eq_none ?_
      rw [linesOf, linesEeReadImage_length]
      exact (Nat.mul_le_mul_right _ (Nat.le_of_not_lt hk)).trans (Nat.le_add_right ..)
    simp [hend] at h
  have hlt : r < (linesImageWord s k).length := by rwa [linesImageWord_length]
  have hline : (linesOf .eeReadImage s)[k * imageLines s.selLatch + r]? = some (linesImageWord s k)[r] := by
    rw [linesOf, linesEeReadImage_getElem? s hk hr, List.getElem?_eq_getElem hlt]
  refine ⟨_, List.getElem?_eq_getElem hlt, ?_⟩
  simpa only [hline] using h

/-- What the last line of a word of EE_READ_IMAGE leaves in the buffers. -/
theorem storeImageWord_mem {n j k : Nat} {b : Beat} {s t : State}
    (h : runLine n j b (.silent (storeImageWord k)) s = .next t) :
    t.mem = (s.mem.write (0x200 + 2 * k) s.scratch.even).write (0x200 + 2 * k + 1) s.scratch.odd := by
  simp only [runLine] at h
  split at h
  · cases h
    rw [goTo_mem]
    rfl
  · cases h

/-- Settles O27: only EE_READ_IMAGE writes the buffers, and of its lines only the last of each word. -/
theorem memoryFrame : Obligations.MemoryFrame := by
  intro i s t h
  refine ⟨fun hi x => by rw [show t.mem = s.mem from (exec_frame h).mem hi], ?_, fun hp x => ?_⟩
  · rintro rfl j b hp k r rfl hr
    obtain ⟨line, hline, hrun⟩ := eeReadImage_at h hr hp
    refine ⟨fun hlast => ?_, fun hnot x => ?_⟩
    · rw [linesImageWord_last s k hlast] at hline
      cases hline
      have hm := storeImageWord_mem hrun
      refine ⟨?_, ?_, fun x hx hx' => ?_⟩ <;> rw [hm]
      · rw [memory_read_write_other _ _ _ _ (by omega), memory_read_write_same]
      · rw [memory_read_write_same]
      · rw [memory_read_write_other _ _ _ _ hx', memory_read_write_other _ _ _ _ hx]
    · rw [linesImageWord_read s k (Nat.lt_of_le_of_ne hr hnot)] at hline
      have hl := lawful_linesReadWord (i := .eeReadWord 0) s _ line (List.mem_of_getElem? hline)
      rw [runLine_mem hl (by simp) hrun]
  · by_cases hi : i = .eeReadImage
    · subst hi
      rw [exec_eq_runCommand] at h
      rcases runCommand_next h with ⟨-, h⟩ | ⟨j, b, -, hpos, -⟩
      · rw [entryEeReadImage_mem h]
      · exact absurd hpos (hp j b)
    · rw [show t.mem = s.mem from (exec_frame h).mem hi]

/-! ## The last step of every command (R151) -/

/-- The event of a line at its last beat, answered without err. -/
theorem recordEvent_stop {s : State} (hf : s.nextReply.failed = false) : recordEvent .stop s = s.logged ⟨.stop, .ok⟩ := by
  rw [recordEvent_eq_logged, answerOf, hf]
  rfl

theorem logged_onto_toBeat (s : State) (j : Nat) (b : Beat) (e : BusEvent) :
    (toBeat j b s).logged e = toBeat j b (s.logged e) := by
  cases hs : s.replies <;> simp [State.logged, State.takeReply, toBeat, hs]

theorem exec_busInit_done {s : State} (hf : s.nextReply.failed = false) (hp : s.pos = .at 0 .start) :
    exec .busInit s = .next
      { (s.logged ⟨.init, .opened s.nextReply.clock s.nextReply.desc⟩).ended .done s.fcode with
        clkRate := holds s.nextReply.clock, rvalid := true, busReady := true } := by
  refine (exec_done hp rfl rfl (.inl hf) rfl).trans ?_
  simp [finish, State.ended, recordEvent_eq_logged, answerOf, hf, State.setClkRate, holds, OutReg.holding]

theorem exec_busClose_done {s : State} (hf : s.nextReply.failed = false) (hp : s.pos = .at 0 .start) :
    exec .busClose s = .next { (s.logged ⟨.close, .ok⟩).ended .done s.fcode with busReady := false } := by
  refine (exec_done hp rfl rfl (.inl hf) rfl).trans ?_
  simp [finish, State.ended, recordEvent_eq_logged, answerOf, hf]

/-- An accepted command of one line, whose checks pass, is done two steps later when that line completes it. -/
theorem reaches_one_line {s u : State} (ha : s.Accepted i) (hin : s.inbox = []) (he : entryOf i s = .proceed s)
    (hn : 0 < (linesOf i s).length) (h : exec i (toBeat 0 .start s) = .next u) : Reaches s u := by
  obtain ⟨hrun, hp, hd⟩ := ha
  refine (reaches_first_line ⟨hrun, hd, hin⟩ hp he hn).trans (.of_step ?_)
  rw [step_quiet (s := toBeat 0 .start s) hin, advance_running (s := toBeat 0 .start s) hrun hd, h]

/-- Settles O30. -/
theorem busLifecycleCompletes : Obligations.BusLifecycleCompletes := by
  intro s hf opened closed
  refine ⟨fun hp => ⟨exec_busInit_done hf hp, exec_busClose_done hf hp⟩, fun ha hin hbus hcfg => ?_,
    fun ha hin hbus => ?_⟩
  · refine reaches_one_line ha hin (by simp [entryOf, entryBusInit, hbus, hcfg]) Nat.one_pos ?_
    rw [exec_busInit_done (s := toBeat 0 .start s) hf rfl, logged_onto_toBeat]
    rfl
  · refine reaches_one_line ha hin (by simp [entryOf, needBus, hbus]) Nat.one_pos ?_
    rw [exec_busClose_done (s := toBeat 0 .start s) hf rfl, logged_onto_toBeat]
    rfl

/-! ## What CHK_ID does with the identity (R142, R143) -/

theorem checkIdentity_known {s : State} {id : Byte} (h : id ∈ s.config.knownIds) :
    checkIdentity id s = .proceed { s with res0 := holds (id.setWidth 32), res1 := holds 1, rvalid := true } := by
  have hk : identityKnown s.config id = true := by simpa [identityKnown] using h
  simp [checkIdentity, hk, State.setRes0, State.setRes1, zext32, holds, OutReg.holding]

theorem checkIdentity_overridden {s : State} {id : Byte} (h : id ∉ s.config.knownIds) (ho : s.cfgReg.getLsbD 9 = true) :
    checkIdentity id s =
      .proceed { s with res0 := holds (id.setWidth 32), res1 := holds 0, rvalid := true, idWarn := true } := by
  have hk : identityKnown s.config id = false := by simpa [identityKnown] using h
  simp [checkIdentity, hk, State.idOverride, State.setRes0, State.setRes1, zext32, holds, OutReg.holding, ho]

theorem checkIdentity_unknown {s : State} {id : Byte} (h : id ∉ s.config.knownIds) (ho : s.cfgReg.getLsbD 9 = false) :
    checkIdentity id s =
      .raise .unknownDevice { s with res0 := holds (id.setWidth 32), res1 := holds 0, rvalid := true } := by
  have hk : identityKnown s.config id = false := by simpa [identityKnown] using h
  simpa [checkIdentity, hk, State.idOverride, State.setRes0, State.setRes1, zext32, holds, OutReg.holding] using ho

/-- Settles O31: what the last ReadReg of each command does with its byte. -/
theorem readCommandsComplete : Obligations.ReadCommandsComplete := by
  intro s hf t b
  have hstop := recordEvent_stop hf
  refine ⟨fun hp a => ?_, fun hp => ?_, fun hp k => ?_, fun hp hknown => ?_, fun hp hunknown hover => ?_⟩
  · refine (exec_done hp rfl rfl (.inl hf) rfl).trans ?_
    rw [hstop]
    simp [finish, t, State.ended, State.setRes0, zext32, holds, OutReg.holding, b]
  · refine (exec_done hp rfl rfl (.inl hf) rfl).trans ?_
    rw [hstop]
    simp [finish, t, State.ended, State.setRes0, State.setRes1, zext32, holds, OutReg.holding, busyBit, b]
  · intro hi lo
    refine (exec_done hp rfl rfl (.inl hf) rfl).trans ?_
    have hpair : cellPair (recordEvent .stop s).config (recordEvent .stop s).scratch.first s.scratch.byte = (hi, lo) := by
      simpa [hi, lo, b] using cellPair_eq s.config s.scratch.first s.scratch.byte
    show Host.Outcome.next (finish (cellResult _ _ _)) = _
    rw [cellResult_eq hpair, hstop]
    simp [finish, t, State.ended]
  · have hv := checkIdentity_known (s := recordEvent .stop s) (id := b) (by simpa using hknown)
    refine (exec_done (line := .readReg s.config.regDeviceId checkIdentity) hp rfl rfl (.inl hf) hv).trans ?_
    rw [hstop]
    simp [finish, t, State.ended]
  · have hv := checkIdentity_overridden (s := recordEvent .stop s) (id := b) (by simpa using hunknown) (by simpa using hover)
    refine (exec_done (line := .readReg s.config.regDeviceId checkIdentity) hp rfl rfl (.inl hf) hv).trans ?_
    rw [hstop]
    simp [finish, t, State.ended]

/-- Settles O32: nothing is done after the last WriteReg. -/
theorem writeCommandsComplete : Obligations.WriteCommandsComplete := by
  intro s hf t
  have hdone : ∀ {i j a v}, s.pos = .at j .stop → (linesOf i s)[j]? = some (writeTo a v) →
      (linesOf i s).length = j + 1 → exec i s = .next t := by
    intro i j a v hp hline hlast
    refine (exec_done hp hline hlast (.inl hf) rfl).trans ?_
    simp [recordEvent_stop hf, finish, t, State.ended]
  exact ⟨fun hp a v => hdone hp rfl rfl, fun hp => hdone hp rfl rfl, fun hp a even odd => hdone hp rfl rfl⟩

/-! ## The results of the word commands (R102, R127, R130, R132) -/

theorem wordResult_eq (s : State) :
    wordResult s = .proceed
      { s with res0 := holds ((s.scratch.odd ++ s.scratch.even : BitVec 16).setWidth 32), rvalid := true } := rfl

theorem senseResult_eq (s : State) :
    let raw := if s.config.eeSenseAddr.getLsbD 0 then s.scratch.odd else s.scratch.even
    let sense : Nat := if raw = 0#8 then 25 else raw.toNat
    senseResult s = .proceed
      { s with res0 := holds (BitVec.ofNat 32 sense), res1 := holds (raw.setWidth 32), rvalid := true } := rfl

theorem thresholdResult_eq (s : State) :
    let even := s.scratch.even
    let odd := s.scratch.odd
    thresholdResult s = .proceed
      { s with
        res0 := holds (BitVec.ofNat 32 (odd.toNat * 32 + even.toNat / 8))
        res1 := holds (BitVec.ofNat 32 ((odd.toNat * 32 + even.toNat / 8) * 122))
        res2 := holds ((odd ++ even : BitVec 16).setWidth 32)
        rvalid := true } := rfl

theorem currentResult_eq (s : State) :
    let raw := if s.config.eeSenseAddr.getLsbD 0 then s.scratch.odd else s.scratch.even
    let sense : Nat := if raw = 0#8 then 25 else raw.toNat
    let hi := s.scratch.second
    let lo := s.scratch.first
    let r : Int := if s.config.currentSigned then (hi ++ lo : BitVec 16).toInt else (hi ++ lo : BitVec 16).toNat
    currentResult s = .proceed
      { s with
        res0 := holds ((hi ++ lo : BitVec 16).setWidth 32)
        res1 := holds (BitVec.ofNat 32 sense)
        res2 := holds (BitVec.ofInt 32 (r * 763))
        res3 := holds (BitVec.ofNat 32 (10000 * sense))
        rvalid := true } := by
  intro raw sense hi lo r
  have hr : rawCurrent s.config.currentSigned hi lo = r := rawCurrent_eq _ hi lo
  rw [← hr]
  rfl

/-- The last line of a command, where it is silent, completes it. -/
theorem exec_silent_done {s u : State} {j : Nat} {act : State → Verdict} (hp : s.pos = .at j .start)
    (hline : (linesOf i s)[j]? = some (.silent act)) (hlast : (linesOf i s).length = j + 1)
    (hv : act s = .proceed u) : exec i s = .next (finish u) :=
  exec_done hp hline hlast (.inr ⟨act, rfl⟩) hv

/-- The line behind the word read of a command completes it. -/
theorem exec_word_done {s u : State} {a : Byte} {pre : List Line} {act : State → Verdict}
    (hp : s.pos = .at (pre.length + wordLines s.selLatch) .start)
    (hlines : linesOf i s = pre ++ linesReadWord s a ++ [.silent act]) (hv : act s = .proceed u) :
    exec i s = .next (finish u) :=
  exec_silent_done hp (by rw [hlines, wordResult_line]) (by rw [hlines, wordResult_length]) hv

/-- Settles O33: the result lines, each behind its word read. -/
theorem wordCommandsComplete : Obligations.WordCommandsComplete := by
  intro s t even odd raw sense hi lo r
  refine ⟨fun hp => ?_, fun hp => ?_⟩
  · have hp : s.pos = .at (List.length ([] : List Line) + wordLines s.selLatch) .start := by
      simpa [wordLines] using hp
    exact ⟨fun a => exec_word_done hp rfl (wordResult_eq s), exec_word_done hp rfl (senseResult_eq s),
      fun sel => exec_word_done hp rfl (thresholdResult_eq s)⟩
  · have hp : s.pos = .at (2 + wordLines s.selLatch) .start := by
      rw [hp, wordLines]
      split <;> rfl
    exact exec_word_done (pre := [readInto s.config.regCurrentLo saveFirst, readInto s.config.regCurrentHi saveSecond])
      hp rfl (currentResult_eq s)

theorem imageLines_pos (sel : Bool) : 0 < imageLines sel := by
  unfold imageLines
  split <;> decide

/-- Settles O34: the last line of each text. -/
theorem longCommandsComplete : Obligations.LongCommandsComplete := by
  intro s t
  refine ⟨fun hp => ?_, fun hp => ?_, fun hp => ?_⟩
  · have hpos := imageLines_pos s.selLatch
    have hlast : s.pos = .at (63 * imageLines s.selLatch + (imageLines s.selLatch - 1)) .start := by
      rw [hp, imageLines]
      split <;> rfl
    refine exec_silent_done (act := storeImageWord 63) hlast ?_ ?_ rfl
    · rw [linesOf, linesEeReadImage_getElem? s (by decide) (by omega), linesImageWord_last s 63 (by omega)]
    · rw [linesOf, linesEeReadImage_length]
      omega
  · have hlast : s.pos = .at (programHead s.selLatch + (63 * 15 + 14)) .start := by
      rw [hp, programHead, wordLines]
      split <;> rfl
    refine exec_silent_done (act := countWord 63) hlast ?_ ?_ rfl
    · rw [linesOf, linesEeProgram_getElem? s (by decide) (by decide)]
      rfl
    · rw [linesOf, linesEeProgram_length]
  · have hlen := linesStatusDecode_length s.config
    refine exec_silent_done hp ?_ ?_ (u := s.setFlags s.scratch.flagBits) (act := flagsResult) rfl
    · rw [hlen, Nat.add_sub_cancel, linesOf, linesStatusDecode, List.getElem?_append_right (Nat.le_refl _), Nat.sub_self]
      rfl
    · rw [linesOf, hlen, Nat.add_sub_cancel]

/-! ## The lines that need a byte with a value (R38) -/

theorem readWordStore_short {a : Byte} {s : State} (h : s.storeLen.toNat < a.toNat + 2) :
    readWordStore a s = .raise .input s := if_pos h

theorem readWordStore_held {a even odd : Byte} {s : State} (h : a.toNat + 2 ≤ s.storeLen.toNat)
    (he : s.mem.read (0x300 + a.toNat) = some even) (ho : s.mem.read (0x300 + a.toNat + 1) = some odd) :
    readWordStore a s = .proceed (saveOdd odd (saveEven even s)) := by
  have he : memRead .store a.toNat s = some even := he
  have ho : memRead .store (a.toNat + 1) s = some odd := ho
  rw [readWordStore, if_neg (by omega), he, ho]

theorem readWordStore_missing {a : Byte} {s : State} (h : a.toNat + 2 ≤ s.storeLen.toNat)
    (hm : s.mem.read (0x300 + a.toNat) = none ∨ s.mem.read (0x300 + a.toNat + 1) = none) :
    readWordStore a s = .refuse .byteHoldsNoValue := by
  rw [readWordStore, if_neg (by omega)]
  split
  · next even odd he ho =>
    have he : s.mem.read (0x300 + a.toNat) = some even := he
    have ho : s.mem.read (0x300 + a.toNat + 1) = some odd := ho
    simp [he, ho] at hm
  · rfl

theorem fetchSourceWord_held {k : Nat} {even odd : Byte} {s : State} (he : s.mem.read (0x100 + 2 * k) = some even)
    (ho : s.mem.read (0x100 + 2 * k + 1) = some odd) :
    fetchSourceWord k s = .proceed (saveOdd odd (saveEven even s)) := by
  have he : memRead .srcbuf (2 * k) s = some even := he
  have ho : memRead .srcbuf (2 * k + 1) s = some odd := ho
  rw [fetchSourceWord, he, ho]

theorem fetchSourceWord_missing {k : Nat} {s : State}
    (hm : s.mem.read (0x100 + 2 * k) = none ∨ s.mem.read (0x100 + 2 * k + 1) = none) :
    fetchSourceWord k s = .refuse .byteHoldsNoValue := by
  rcases fetchSourceWord_cases k s with e | ⟨even, odd, he, ho, -⟩
  · exact e
  · have he : s.mem.read (0x100 + 2 * k) = some even := he
    have ho : s.mem.read (0x100 + 2 * k + 1) = some odd := ho
    simp [he, ho] at hm

/-- R126: the word address of the sense byte. -/
theorem senseWordAddr_toNat (c : Config) : (senseWordAddr c).toNat = c.eeSenseAddr.toNat / 2 * 2 := by
  have h : ∀ x : BitVec 7, (x.setWidth 8 &&& 0x7E#8).toNat = x.toNat / 2 * 2 := by decide
  exact h c.eeSenseAddr

theorem exec_silent_refused {s : State} {j : Nat} {act : State → Verdict} {r : Refusal} (hp : s.pos = .at j .start)
    (hline : (linesOf i s)[j]? = some (.silent act)) (hv : act s = .refuse r) : exec i s = .refused r := by
  rw [exec_verdict (line := .silent act) hp hline (.inr ⟨act, rfl⟩), Line.verdict, hv, settle]

theorem linesReadWord_store {s : State} (h : s.selLatch = true) (a : Byte) :
    linesReadWord s a = [.silent (readWordStore a)] := if_pos h

/-- A word of STORE that begins below STORE_LEN and of which a byte holds no value. -/
def State.unheldWord (s : State) (a : Nat) : Prop :=
  s.selLatch = true ∧ a + 2 ≤ s.storeLen.toNat ∧ (s.mem.read (0x300 + a) = none ∨ s.mem.read (0x300 + a + 1) = none)

/-- A command is refused at the line that reads such a word. -/
theorem exec_unheldWord {s : State} {a : Byte} {pre post : List Line} (hp : s.pos = .at pre.length .start)
    (hlines : linesOf i s = pre ++ linesReadWord s a ++ post) (h : s.unheldWord a.toNat) :
    exec i s = .refused .byteHoldsNoValue := by
  obtain ⟨hsel, hlen, hmissing⟩ := h
  refine exec_silent_refused hp ?_ (readWordStore_missing hlen hmissing)
  rw [hlines, linesReadWord_store hsel, List.append_assoc, List.getElem?_append_right (Nat.le_refl _), Nat.sub_self]
  rfl

/-- R131: the word address of a threshold selector. -/
theorem thresholdAddr_of_selects {c : Config} {sel a : Byte}
    (h : (sel = 0#8 ∧ a = c.eeOvTh) ∨ (sel = 1#8 ∧ a = c.eeOvRel) ∨ (sel = 2#8 ∧ a = c.eeUvTh) ∨
      (sel = 3#8 ∧ a = c.eeUvRel)) : thresholdAddr c sel = a := by
  rcases h with ⟨rfl, rfl⟩ | ⟨rfl, rfl⟩ | ⟨rfl, rfl⟩ | ⟨rfl, rfl⟩ <;> rfl

theorem toNat_ofNat_two_mul {k : Nat} (hk : k < 64) : (BitVec.ofNat 8 (2 * k)).toNat = 2 * k := by
  rw [BitVec.toNat_ofNat]
  omega

/-- Settles O35: the lines that read a word of STORE or SRCBUF, command by command. -/
theorem byteWithoutValueRefused : Obligations.ByteWithoutValueRefused := by
  intro s missing unheld stops
  refine ⟨fun hp => ⟨fun a h => ?_, fun h => ?_, fun sel a hsel h => ?_, fun h => ?_⟩, fun hp h => ?_,
    fun k hk hp h => ?_, fun k hk hp h => ?_⟩
  · exact exec_unheldWord (pre := []) hp rfl h
  · exact exec_unheldWord (pre := []) hp rfl (senseWordAddr_toNat s.config ▸ h)
  · rw [← thresholdAddr_of_selects hsel] at h
    exact exec_unheldWord (pre := []) hp rfl h
  · exact exec_unheldWord (a := 0x7A#8) (pre := []) hp (by simp only [linesOf, linesEeProgram, List.append_assoc]; rfl) h
  · exact exec_unheldWord (pre := [readInto s.config.regCurrentLo saveFirst, readInto s.config.regCurrentHi saveSecond])
      hp rfl (senseWordAddr_toNat s.config ▸ h)
  · obtain ⟨hsel, hlen, hmissing⟩ := h
    have hlines : imageLines s.selLatch = 2 := by rw [hsel]; rfl
    rw [← toNat_ofNat_two_mul hk] at hlen hmissing
    refine exec_silent_refused hp ?_ (readWordStore_missing hlen hmissing)
    have hline := linesEeReadImage_getElem? s hk (r := 0) (by omega)
    rw [hlines, Nat.add_zero, Nat.mul_comm, linesImageWord, linesReadWord_store hsel] at hline
    exact hline
  · refine exec_silent_refused (act := fetchSourceWord k) (j := programHead s.selLatch + (k * 15 + 0)) ?_ ?_
      (fetchSourceWord_missing h)
    · rw [hp, Nat.mul_comm, programHead, wordLines]
      split <;> rfl
    · rw [linesOf, linesEeProgram_getElem? s hk (by decide)]
      rfl

end Sys2Proof.Machine

/-!
PROOFS. The register transactions step by step with any answers that do not fail (R83, R85), and the runs of READ_REG, of
WRITE_REG and of a busy poll without a limit (R86, R87, R93, R175).
-/

namespace Sys2Proof.Machine

open Sys2Proof

variable {i : Instr}

/-! ## The transactions with any answers -/

theorem busCall_onBus {s : State} {r : Reply} (hf : r.failed = false) (rs : List Reply) (log : List BusEvent) (x : Byte)
    (q : Position) (p : BusPrim) (k : Reply → State → Out) :
    busCall p (s.onBus (r :: rs) log x q) k = k r (s.onBus rs (⟨p, answerOf p r⟩ :: log) x q) := by
  rw [busCall_scripted (s := s.onBus (r :: rs) log x q) rfl hf]
  rfl

/-- A step at beat `b` of line `j`, answered by `r`, logs the event `p` with the answer `y` and goes on with beat `b'`; the
byte of the transaction is then `z`, a function of the one before. -/
def BeatsTo (s : State) (j : Nat) (r : Reply) (b b' : Beat) (p : BusPrim) (y : Answer) (z : Byte → Byte) : Prop :=
  ∀ rs log x, step (s.onBus (r :: rs) log x (.at j b)) = .next (s.onBus rs (⟨p, y⟩ :: log) (z x) (.at j b'))

/-- The beats of a ReadReg of `a` before its BusStop, when the answer `r` does not fail. -/
structure ReadBeats (s : State) (j : Nat) (a : Byte) (r : Reply) : Prop where
  start : BeatsTo s j r .start .send .start .ok id
  send : BeatsTo s j r .send .ackSend (.write [s.addrW, a]) .ok id
  ackSend : r.nack = false → BeatsTo s j r .ackSend .restart .getAck .ack id
  restart : BeatsTo s j r .restart .sendRead .start .ok id
  sendRead : BeatsTo s j r .sendRead .ackRead (.write [s.addrR]) .ok id
  ackRead : r.nack = false → BeatsTo s j r .ackRead .data .getAck .ack id
  data : BeatsTo s j r .data .dummy (.read true) (.byte r.byte) fun _ => r.byte
  dummy : BeatsTo s j r .dummy .stop (.read false) (.byte r.byte) id

theorem readBeats {s : State} (hr : s.Runs i) {j : Nat} {a : Byte} {use : Byte → State → Verdict}
    (hl : (linesOf i s)[j]? = some (.readReg a use)) {r : Reply} (hf : r.failed = false) : ReadBeats s j a r := by
  have hstep : ∀ rs log x b, step (s.onBus (r :: rs) log x (.at j b)) =
      readRegBeat (linesOf i s).length j a use b (s.onBus (r :: rs) log x (.at j b)) :=
    fun rs log x b => step_onBus hr hl _ _ _ _
  constructor
  case ackSend | ackRead =>
    intro h rs log x
    simp only [hstep, readRegBeat, busCall_onBus hf, answerOf, hf, h]
    rfl
  all_goals
    intro rs log x
    simp only [hstep, readRegBeat, busCall_onBus hf, answerOf, hf]
    rfl

/-- ReadReg up to its BusStop takes eight steps, whatever the answers carry, when none fails and both acknowledgements are
ACK. -/
theorem run_to_stop {s : State} (hr : s.Runs i) {j : Nat} {a : Byte} {use : Byte → State → Verdict}
    (hp : s.pos = .at j .start) (hl : (linesOf i s)[j]? = some (.readReg a use))
    {r1 r2 r3 r4 r5 r6 r7 r8 : Reply} {rest : List Reply}
    (hs : s.replies = [r1, r2, r3, r4, r5, r6, r7, r8] ++ rest)
    (hf : ∀ r ∈ [r1, r2, r3, r4, r5, r6, r7, r8], r.failed = false) (h3 : r3.nack = false) (h6 : r6.nack = false) :
    Sys2Proof.core.run 8 s = .next (s.onBus rest
      ([⟨.read false, .byte r8.byte⟩, ⟨.read true, .byte r7.byte⟩, ⟨.getAck, .ack⟩, ⟨.write [s.addrR], .ok⟩, ⟨.start, .ok⟩,
        ⟨.getAck, .ack⟩, ⟨.write [s.addrW, a], .ok⟩, ⟨.start, .ok⟩] ++ s.logRev) r7.byte (.at j .stop)) := by
  simp only [List.mem_cons, List.not_mem_nil, or_false, forall_eq_or_imp, forall_eq] at hf
  obtain ⟨f1, f2, f3, f4, f5, f6, f7, f8⟩ := hf
  have hs : s.replies = r1 :: r2 :: r3 :: r4 :: r5 :: r6 :: r7 :: r8 :: rest := hs
  have start : s.onBus (r1 :: r2 :: r3 :: r4 :: r5 :: r6 :: r7 :: r8 :: rest) s.logRev s.scratch.byte (.at j .start) = s := by
    rw [← hs, ← hp, s.onBus_self]
  have run : Sys2Proof.core.run 8
      (s.onBus (r1 :: r2 :: r3 :: r4 :: r5 :: r6 :: r7 :: r8 :: rest) s.logRev s.scratch.byte (.at j .start)) = _ :=
    (run_succ ((readBeats hr hl f1).start _ _ _) 7).trans <|
    (run_succ ((readBeats hr hl f2).send _ _ _) 6).trans <|
    (run_succ ((readBeats hr hl f3).ackSend h3 _ _ _) 5).trans <|
    (run_succ ((readBeats hr hl f4).restart _ _ _) 4).trans <|
    (run_succ ((readBeats hr hl f5).sendRead _ _ _) 3).trans <|
    (run_succ ((readBeats hr hl f6).ackRead h6 _ _ _) 2).trans <|
    (run_succ ((readBeats hr hl f7).data _ _ _) 1).trans <|
    run_succ ((readBeats hr hl f8).dummy _ _ _) 0
  rwa [start] at run

/-- BusStop of a ReadReg, answered without err, is followed by what the line does with the byte. -/
theorem step_readStop {s : State} (hr : s.Runs i) {j : Nat} {a : Byte} {use : Byte → State → Verdict}
    (hl : (linesOf i s)[j]? = some (.readReg a use)) {r : Reply} (hf : r.failed = false) (rest : List Reply)
    (log : List BusEvent) (x : Byte) :
    step (s.onBus (r :: rest) log x (.at j .stop)) =
      settle (linesOf i s).length j (use x (s.onBus rest (⟨.stop, .ok⟩ :: log) x (.at j .stop))) := by
  rw [step_onBus hr hl]
  simp only [runLine, readRegBeat, busCall_onBus hf, answerOf, hf]
  rfl

/-- Settles O36: eight steps to BusStop, and the step that completes the command. -/
theorem readRegRun : Obligations.ReadRegRun := by
  intro s a r1 r2 r3 r4 r5 r6 r7 r8 r9 rest ha hin hbus hs hf h3 h6
  obtain ⟨hrun, hp, hd⟩ := ha
  have first : Reaches s (toBeat 0 .start s) :=
    reaches_first_line ⟨hrun, hd, hin⟩ hp (by simp [entryOf, needBus, hbus]) Nat.one_pos
  have hr : (toBeat 0 .start s).Runs (.readReg a) := ⟨hrun, hd, hin⟩
  have toStop := run_to_stop hr (a := a) (j := 0) (rest := r9 :: rest) rfl rfl hs
    (fun r h => hf r (List.mem_append_left [r9] h)) h3 h6
  have last := step_readStop hr (a := a) (j := 0) rfl (hf r9 (by simp)) rest
  exact first.trans (Reaches.trans ⟨8, toStop⟩ (.of_step (last _ _)))

/-- The beats of a WriteReg, when the answer does not fail; no acknowledgement is asked for. -/
theorem writeBeats {s : State} (hr : s.Runs i) {j : Nat} {a v : Byte} {after : State → State}
    (hl : (linesOf i s)[j]? = some (.writeReg a v after)) {r : Reply} (hf : r.failed = false) :
    BeatsTo s j r .start .send .start .ok id ∧ BeatsTo s j r .send .stop (.write [s.addrW, a, v]) .ok id ∧
    ∀ rs log x, step (s.onBus (r :: rs) log x (.at j .stop)) =
      .next (goTo (linesOf i s).length (j + 1) (after (s.onBus rs (⟨.stop, .ok⟩ :: log) x (.at j .stop)))) := by
  have hstep : ∀ rs log x b, step (s.onBus (r :: rs) log x (.at j b)) =
      writeRegBeat (linesOf i s).length j a v after b (s.onBus (r :: rs) log x (.at j b)) :=
    fun rs log x b => step_onBus hr hl _ _ _ _
  refine ⟨?_, ?_, ?_⟩ <;> intro rs log x <;> simp only [hstep, writeRegBeat, busCall_onBus hf, answerOf, hf] <;> rfl

/-- Settles O37: the three steps of the one WriteReg. -/
theorem writeRegRun : Obligations.WriteRegRun := by
  intro s a v r1 r2 r3 rest ha hin hbus hs hf
  simp only [List.mem_cons, List.not_mem_nil, or_false, forall_eq_or_imp, forall_eq] at hf
  obtain ⟨f1, f2, f3⟩ := hf
  obtain ⟨hrun, hp, hd⟩ := ha
  let t := toBeat 0 .start s
  have first : Reaches s t :=
    reaches_first_line ⟨hrun, hd, hin⟩ hp (by simp [entryOf, needBus, hbus]) Nat.one_pos
  have hr : t.Runs (.writeReg a v) := ⟨hrun, hd, hin⟩
  have hl : (linesOf (.writeReg a v) t)[0]? = some (writeTo a v) := rfl
  have start : t.onBus (r1 :: r2 :: r3 :: rest) t.logRev t.scratch.byte (.at 0 .start) = t := by
    have hs : t.replies = r1 :: r2 :: r3 :: rest := hs
    rw [← hs]
    rfl
  obtain ⟨beat1, -, -⟩ := writeBeats hr hl f1
  obtain ⟨-, beat2, -⟩ := writeBeats hr hl f2
  obtain ⟨-, -, beat3⟩ := writeBeats hr hl f3
  have run := (Reaches.of_step (beat1 _ t.logRev t.scratch.byte)).trans
    ((Reaches.of_step (beat2 _ _ _)).trans (.of_step (beat3 rest _ _)))
  rw [start] at run
  exact first.trans run

/-! ## The busy poll (R93) -/

theorem pollTest_clear {c : Byte} (h : c.getLsbD 7 = false) (s : State) : pollTest c s = .proceed s := by
  rw [pollTest, busyBit, h]
  rfl

theorem pollTest_again {c : Byte} (h : c.getLsbD 7 = true) {s : State}
    (hlimit : s.pollLimit = 0 ∨ (s.pollCount + 1).toNat < s.pollLimit.toNat) :
    pollTest c s = .again { s with pollCount := s.pollCount + 1 } := by
  have hcond : ¬ (s.pollLimit ≠ 0 ∧ s.pollLimit.toNat ≤ (s.pollCount + 1).toNat) := by
    rintro ⟨hne, hle⟩
    rcases hlimit with h0 | hlt
    · exact hne h0
    · omega
  rw [pollTest, busyBit, if_pos h]
  exact if_neg hcond

theorem pollTest_timeout {c : Byte} (h : c.getLsbD 7 = true) {s : State} (hne : s.pollLimit ≠ 0)
    (hlimit : s.pollLimit.toNat ≤ (s.pollCount + 1).toNat) :
    pollTest c s = .raise .timeout { s with pollCount := s.pollCount + 1 } := by
  rw [pollTest, busyBit, if_pos h]
  exact if_pos ⟨hne, hlimit⟩

theorem afterXfers_append (s : State) (xs ys : List Xfer) (between rest : List Reply) :
    (s.afterXfers xs between).afterXfers ys rest = s.afterXfers (xs ++ ys) rest := by
  show { s with
    replies := rest
    logRev := (ys.flatMap (Xfer.events s)).reverse ++ ((xs.flatMap (Xfer.events s)).reverse ++ s.logRev) } = _
  simp [State.afterXfers]

/-- Where a busy answer leaves the block: the transaction is in the bus log, the answer is counted, and the poll stands at
its read again. -/
def State.polledBusy (s : State) (j : Nat) (a busy : Byte) (rest : List Reply) : State :=
  { s.afterXfers [.rd a busy] rest with
    pollCount := s.pollCount + 1, pos := .at j .start, scratch := { s.scratch with byte := busy } }

/-- A poll without a limit makes its read in nine steps and stands there again. -/
theorem run_busy {s : State} (hr : s.Runs i) {j : Nat} {a busy : Byte} (hp : s.pos = .at j .start)
    (hl : (linesOf i s)[j]? = some (.readReg a pollTest)) (hb : busy.getLsbD 7 = true) (hlimit : s.pollLimit = 0)
    {rest : List Reply} (hs : s.replies = serveAll [.rd a busy] ++ rest) :
    Sys2Proof.core.run 9 s = .next (s.polledBusy j a busy rest) := by
  let r := Reply.serving busy
  have toStop := run_to_stop hr hp hl (r1 := r) (r2 := r) (r3 := r) (r4 := r) (r5 := r) (r6 := r) (r7 := r) (r8 := r)
    (rest := r :: rest) hs (by simp [r, Reply.serving]) rfl rfl
  have last := step_readStop hr hl (r := r) rfl rest
  rw [run_add toStop 1]
  have again : ∀ t : State, t.pollLimit = 0 → pollTest r.byte t = .again { t with pollCount := t.pollCount + 1 } :=
    fun t h => pollTest_again hb (.inl h)
  exact run_succ ((last _ _).trans (by rw [again _ (by exact hlimit)]; rfl)) 0

/-- A poll without a limit that is answered busy `n` times stands at its read after `9n` steps. -/
theorem run_busy_forever {busy : Byte} (hb : busy.getLsbD 7 = true) {rest : List Reply} {a : Byte} {j : Nat} :
    ∀ (n : Nat) {s : State}, s.Runs i → s.pos = .at j .start → (linesOf i s)[j]? = some (.readReg a pollTest) →
      s.pollLimit = 0 → s.replies = serveAll (List.replicate n (.rd a busy)) ++ rest →
      ∃ t, Sys2Proof.core.run (9 * n) s = .next t ∧ t.phase = .running ∧
        t.logRev = (s.afterXfers (List.replicate n (.rd a busy)) rest).logRev ∧ t.replies = rest
  | 0, s, hr, _, _, _, hs => ⟨s, rfl, hr.running, rfl, hs⟩
  | n + 1, s, hr, hp, hl, hlimit, hs => by
    rw [List.replicate_succ, serveAll_cons] at hs
    have one := run_busy hr hp hl hb hlimit hs
    have same : linesOf i (s.polledBusy j a busy (serveAll (List.replicate n (.rd a busy)) ++ rest)) = linesOf i s :=
      linesOf_congr i rfl rfl rfl rfl
    obtain ⟨t, hrun, hphase, hlog, hreplies⟩ :=
      run_busy_forever hb n (s := s.polledBusy j a busy _) ⟨hr.running, hr.decodes, hr.alone⟩ rfl (same ▸ hl) hlimit rfl
    refine ⟨t, ?_, hphase, ?_, hreplies⟩
    · rw [Nat.mul_succ, Nat.add_comm, run_add one, hrun]
    · rw [hlog, List.replicate_succ, ← List.singleton_append, ← afterXfers_append s _ _ [] rest]
      rfl

/-- Settles O40: after the check and the clearing of POLLCOUNT, nine steps a busy answer. -/
theorem unboundedPollRunsOn : Obligations.UnboundedPollRunsOn := by
  intro s n busy rest ha hin hbus hb hlimit xs hs
  obtain ⟨hrun, hp, hd⟩ := ha
  have hr : s.Runs .eeLock := ⟨hrun, hd, hin⟩
  have hentry : step s = .next (toBeat 0 .start s) := by
    rw [step_at_entry hr hp]
    simp [entryOf, needBus, hbus, settleEntry, linesOf, linesLock, linesPoll, goTo, toBeat]
  let t : State := { s with pollCount := 0, pos := .at 1 .start }
  have hreset : step (toBeat 0 .start s) = .next t :=
    step_at_line (s := toBeat 0 .start s) ⟨hrun, hd, hin⟩ (line := .silent pollReset) rfl rfl
  obtain ⟨u, hu, hphase, hlog, hreplies⟩ :=
    run_busy_forever hb n (s := t) (j := 1) ⟨hrun, hd, hin⟩ rfl rfl hlimit hs
  exact ⟨u, by rw [run_succ hentry, run_succ hreset, hu], hphase, hlog, hreplies⟩

end Sys2Proof.Machine

/-!
PROOFS. Running a part of a command's text: a calculus in which the position and the byte of the transaction, which no later
line reads, are left out; the parts that several commands share (R93, R95 to R99), and the runs of EE_LOCK (R101, R107),
EE_BUSY, CHK_ID and EE_WRITE_WORD.
-/

namespace Sys2Proof.Machine

open Sys2Proof

variable {i : Instr} {A B : State → List Line} {s u v : State} {c : FaultCode}

/-! ## Standing before a part of the text -/

/-- The state `s` with another position and another byte of the transaction. -/
def State.placed (s : State) (p : Position) (x : Byte) : State :=
  { s with pos := p, scratch := { s.scratch with byte := x } }

/-- The state `u` belongs to the same run of the same command with the same text as `s`. -/
structure State.SameRun (s u : State) : Prop where
  phase : u.phase = s.phase
  latch : u.latch = s.latch
  inbox : u.inbox = s.inbox
  config : u.config = s.config
  selLatch : u.selLatch = s.selLatch

theorem State.SameRun.runs (h : s.SameRun u) (hr : s.Runs i) : u.Runs i :=
  ⟨h.phase.trans hr.running, by rw [h.latch, hr.decodes], h.inbox.trans hr.alone⟩

theorem State.SameRun.length (h : s.SameRun u) : (linesOf i u).length = (linesOf i s).length :=
  (linesOf_like i h.config h.selLatch).length_eq

/-- What the text of a command is made from, but for the word in the local variables, is in `s'` as in `s`. -/
structure State.SameText (s s' : State) : Prop where
  config : s'.config = s.config
  selLatch : s'.selLatch = s.selLatch

theorem State.SameText.trans (h : s.SameText u) (k : u.SameText v) : s.SameText v :=
  ⟨k.config.trans h.config, k.selLatch.trans h.selLatch⟩

theorem State.SameRun.sameText (h : s.SameRun u) : s.SameText u := ⟨h.config, h.selLatch⟩

/-- The block runs command `i` and stands before the part `T` of its text, or is done when nothing of it is left; but for the
position and the byte of the transaction its state is `s`. The text is a function of the state, since that of EE_PROGRAM names
the word in the local variables. -/
def Stands (i : Instr) (T : State → List Line) (s t : State) : Prop :=
  s.Runs i ∧ ∃ j p x, (∀ s', s.SameText s' → (linesOf i s').drop j = T s') ∧
    t = goTo (linesOf i s).length j (s.placed p x)

/-- The line before which the block stands, and where the next one is. -/
theorem Stands.line {L : State → Line} {T : State → List Line} {t : State}
    (h : Stands i (fun s' => [L s'] ++ T s') s t) :
    t.Runs i ∧ ∃ j x, t = s.placed (.at j .start) x ∧ (linesOf i t)[j]? = some (L t) ∧
      (∀ u, s.SameRun u → ∀ p y, Stands i T u (goTo (linesOf i t).length (j + 1) (u.placed p y))) ∧
      ∀ u, s.SameRun u → ∀ y, Stands i (fun s' => [L s'] ++ T s') u (u.placed (.at j .start) y) := by
  obtain ⟨hr, j, p, x, htext, rfl⟩ := h
  have hhere : ∀ s', s.SameText s' → (linesOf i s')[j]? = some (L s') := fun s' hs' => by
    rw [← List.head?_drop, htext s' hs']
    rfl
  have hnext : ∀ s', s.SameText s' → (linesOf i s').drop (j + 1) = T s' := fun s' hs' => by
    rw [← List.tail_drop, htext s' hs']
    rfl
  have hlt : ∀ s', s.SameText s' → j < (linesOf i s').length := fun s' hs' =>
    (List.getElem?_eq_some_iff.1 (hhere s' hs')).1
  rw [goTo_line (hlt s ⟨rfl, rfl⟩)]
  have hlen : (linesOf i (s.placed (.at j .start) x)).length = (linesOf i s).length :=
    State.SameRun.length ⟨rfl, rfl, rfl, rfl, rfl⟩
  refine ⟨⟨hr.running, hr.decodes, hr.alone⟩, j, x, rfl, hhere _ ⟨rfl, rfl⟩, fun u hu p y => ?_, fun u hu y => ?_⟩
  · refine ⟨hu.runs hr, j + 1, p, y, fun s' hs' => hnext s' (hu.sameText.trans hs'), ?_⟩
    rw [← hu.length] at hlen
    exact congrArg (goTo · _ _) hlen
  · refine ⟨hu.runs hr, j, .none, y, fun s' hs' => htext s' (hu.sameText.trans hs'), ?_⟩
    rw [goTo_line (hlt u hu.sameText)]
    rfl

/-! ## Running a part of the text -/

/-- The part `A` of the text of command `i`, begun in `s`, runs to its end and leaves `u`. -/
def Does (i : Instr) (A : State → List Line) (s u : State) : Prop :=
  ∀ (T : State → List Line) (t : State), Stands i (fun s' => A s' ++ T s') s t → ∃ t', Stands i T u t' ∧ Reaches t t'

/-- The part `A` of the text of command `i`, begun in `s`, raises the fault `c` in state `u`. -/
def Faults (i : Instr) (A : State → List Line) (s : State) (c : FaultCode) (u : State) : Prop :=
  ∀ (T : State → List Line) (t : State), Stands i (fun s' => A s' ++ T s') s t → Reaches t (raiseFault c u)

theorem Does.append (h : Does i A s u) (k : Does i B u v) : Does i (fun s' => A s' ++ B s') s v := by
  intro T t ht
  simp only [List.append_assoc] at ht
  obtain ⟨t', ht', hreach⟩ := h _ t ht
  obtain ⟨t'', ht'', hreach'⟩ := k _ t' ht'
  exact ⟨t'', ht'', hreach.trans hreach'⟩

theorem Does.append_faults (h : Does i A s u) (k : Faults i B u c v) : Faults i (fun s' => A s' ++ B s') s c v := by
  intro T t ht
  simp only [List.append_assoc] at ht
  obtain ⟨t', ht', hreach⟩ := h _ t ht
  exact hreach.trans (k _ t' ht')

theorem Faults.append (h : Faults i A s c u) : Faults i (fun s' => A s' ++ B s') s c u := by
  intro T t ht
  simp only [List.append_assoc] at ht
  exact h _ t ht

theorem Stands.congr {T T' : State → List Line} {t : State} (h : ∀ s', s.SameText s' → T s' = T' s')
    (ht : Stands i T s t) : Stands i T' s t := by
  obtain ⟨hr, j, p, x, htext, e⟩ := ht
  exact ⟨hr, j, p, x, fun s' hs' => (htext s' hs').trans (h s' hs'), e⟩

/-- Parts of the text that are equal under the sampled STORE_SEL run alike. -/
theorem Does.congr (h : ∀ s', s.SameText s' → B s' = A s') (k : Does i A s u) : Does i B s u :=
  fun T t ht => k T t (ht.congr fun s' hs' => by rw [h s' hs'])

theorem Faults.congr (h : ∀ s', s.SameText s' → B s' = A s') (k : Faults i A s c u) : Faults i B s c u :=
  fun T t ht => k T t (ht.congr fun s' hs' => by rw [h s' hs'])

theorem does_nil (s : State) : Does i (fun _ => []) s s := fun _ t ht => ⟨t, ht, .refl t⟩

/-- A loop of the text, from what one round does under an invariant. -/
theorem does_range {f : State → Nat → List Line} {P : Nat → State → Prop} {n : Nat}
    (h : ∀ k < n, ∀ u, P k u → ∃ v, P (k + 1) v ∧ Does i (fun s' => f s' k) u v) (h0 : P 0 s) :
    ∃ v, P n v ∧ Does i (fun s' => (List.range n).flatMap (f s')) s v := by
  induction n with
  | zero => exact ⟨s, h0, does_nil s⟩
  | succ n ih =>
    obtain ⟨u, hu, hdoes⟩ := ih fun k hk => h k (Nat.lt_succ_of_lt hk)
    obtain ⟨v, hv, hlast⟩ := h n (Nat.lt_succ_self n) u hu
    refine ⟨v, hv, (hdoes.append hlast).congr fun s' _ => ?_⟩
    rw [List.range_succ, List.flatMap_append, List.flatMap_singleton]

/-! ## One line -/

theorem does_silent {act : State → Verdict} (hact : ∀ p x, act (s.placed p x) = .proceed (u.placed p x))
    (hu : s.SameRun u) : Does i (fun _ => [.silent act]) s u := by
  intro T t ht
  obtain ⟨hr, j, x, rfl, hl, hnext, -⟩ := ht.line
  exact ⟨_, hnext u hu _ x, run_silent hr rfl hl (by rw [hact, settle])⟩

theorem faults_silent {act : State → Verdict} (hact : ∀ p x, act (s.placed p x) = .raise c (u.placed p x)) :
    Faults i (fun _ => [.silent act]) s c u := by
  intro T t ht
  obtain ⟨hr, j, x, rfl, hl, -⟩ := ht.line
  exact run_silent hr rfl hl (by rw [hact, settle]; rfl)

theorem afterXfers_singleton (s : State) (x : Xfer) (rest : List Reply) :
    s.afterXfers [x] rest = { s with replies := rest, logRev := (Xfer.events s x).reverse ++ s.logRev } := by
  rw [State.afterXfers, List.flatMap_singleton]

/-- A line `WriteReg(a, v)` whose events are served. -/
theorem does_write {L : State → Line} {a w : Byte} {rest : List Reply} (hL : ∀ p x, L (s.placed p x) = writeTo a w)
    (hs : s.replies = serveAll [.wr a w] ++ rest) : Does i (fun s' => [L s']) s (s.afterXfers [.wr a w] rest) := by
  intro T t ht
  obtain ⟨hr, j, x, rfl, hl, hnext, -⟩ := ht.line
  rw [hL] at hl
  refine ⟨_, hnext (s.afterXfers [.wr a w] rest) ⟨rfl, rfl, rfl, rfl, rfl⟩ (.at j .stop) x, ?_⟩
  rw [afterXfers_singleton]
  exact run_wr hr rfl hl hs

/-- A line `b <- ReadReg(a)` whose events are served. -/
theorem does_read {L : State → Line} {a b : Byte} {use : Byte → State → Verdict} {rest : List Reply}
    (hL : ∀ p x, L (s.placed p x) = .readReg a use) (hs : s.replies = serveAll [.rd a b] ++ rest)
    (huse : ∀ p x, use b ((s.afterXfers [.rd a b] rest).placed p x) = .proceed (u.placed p x)) (hu : s.SameRun u) :
    Does i (fun s' => [L s']) s u := by
  intro T t ht
  obtain ⟨hr, j, x, rfl, hl, hnext, -⟩ := ht.line
  rw [hL] at hl
  refine ⟨_, hnext u hu (.at j .stop) b, run_rd hr rfl hl hs ?_⟩
  have huse := huse (.at j .stop) b
  rw [afterXfers_singleton] at huse
  exact congrArg (settle _ j) huse

theorem faults_read {L : State → Line} {a b : Byte} {use : Byte → State → Verdict} {rest : List Reply}
    (hL : ∀ p x, L (s.placed p x) = .readReg a use) (hs : s.replies = serveAll [.rd a b] ++ rest)
    (huse : ∀ p x, use b ((s.afterXfers [.rd a b] rest).placed p x) = .raise c (u.placed p x)) :
    Faults i (fun s' => [L s']) s c u := by
  intro T t ht
  obtain ⟨hr, j, x, rfl, hl, -⟩ := ht.line
  rw [hL] at hl
  refine run_rd hr rfl hl hs ?_
  have huse := huse (.at j .stop) b
  rw [afterXfers_singleton] at huse
  exact congrArg (settle _ j) huse

/-- The busy poll's read answered busy, below the limit: the same line again, with the answer counted. -/
theorem reads_busy {L : State → Line} {a b : Byte} {rest : List Reply} {T : State → List Line} {t : State}
    (hL : ∀ p x, L (s.placed p x) = .readReg a pollTest) (hs : s.replies = serveAll [.rd a b] ++ rest)
    (hb : b.getLsbD 7 = true) (hlimit : s.pollLimit = 0 ∨ (s.pollCount + 1).toNat < s.pollLimit.toNat)
    (ht : Stands i (fun s' => [L s'] ++ T s') s t) :
    ∃ t', Stands i (fun s' => [L s'] ++ T s') { s.afterXfers [.rd a b] rest with pollCount := s.pollCount + 1 } t' ∧
      Reaches t t' := by
  obtain ⟨hr, j, x, rfl, hl, -, hagain⟩ := ht.line
  rw [hL] at hl
  refine ⟨_, hagain { s.afterXfers [.rd a b] rest with pollCount := s.pollCount + 1 } ⟨rfl, rfl, rfl, rfl, rfl⟩ b,
    run_rd hr rfl hl hs ?_⟩
  rw [pollTest_again hb (by exact hlimit), afterXfers_singleton]
  rfl

/-! ## From acceptance to the end -/

/-- An accepted command whose checks pass stands before the whole of its text. -/
theorem stands_first (ha : s.Accepted i) (hin : s.inbox = []) (he : entryOf i s = .proceed u) :
    ∃ t, Stands i (fun s' => linesOf i s' ++ []) u t ∧ Reaches s t := by
  obtain ⟨hrun, hp, hd⟩ := ha
  have hr : s.Runs i := ⟨hrun, hd, hin⟩
  rcases entryOf_checked i s with ⟨-, w, e, -⟩ | ⟨-, w, e, hw⟩
  · rw [he] at e; cases e
  · rw [he] at e; cases e
    have hu : s.SameRun u := ⟨hw.phase, hw.latch, hw.inbox, hw.config, hw.selLatch⟩
    refine ⟨goTo (linesOf i u).length 0 u, ⟨hu.runs hr, 0, u.pos, u.scratch.byte, fun s' _ => ?_, rfl⟩, .of_step ?_⟩
    · simp
    · rw [step_at_entry hr hp, he, settleEntry, hu.length]

/-- A command whose text runs to its end is done. -/
theorem reaches_done (ha : s.Accepted i) (hin : s.inbox = []) (he : entryOf i s = .proceed u)
    (h : Does i (linesOf i) u v) : Reaches s (finish v) := by
  obtain ⟨t, ht, hreach⟩ := stands_first ha hin he
  obtain ⟨t', ⟨-, j, p, x, htext, rfl⟩, hreach'⟩ := h _ t ht
  have hend : (linesOf i v).length ≤ j := List.drop_eq_nil_iff.1 (htext v ⟨rfl, rfl⟩)
  rw [goTo_end hend] at hreach'
  exact hreach.trans hreach'

/-- A command whose text raises a fault ends in FAULT. -/
theorem reaches_fault (ha : s.Accepted i) (hin : s.inbox = []) (he : entryOf i s = .proceed u)
    (h : Faults i (linesOf i) u c v) : Reaches s (raiseFault c v) := by
  obtain ⟨t, ht, hreach⟩ := stands_first ha hin he
  exact hreach.trans (h _ t ht)

/-! ## Transactions between polls that are answered not busy -/

/-- The transactions `xs` have happened, and POLLCOUNT is 0, as a poll leaves it that is answered not busy at once (R93). -/
def State.polled (s : State) (xs : List Xfer) (rest : List Reply) : State := { s.afterXfers xs rest with pollCount := 0 }

theorem polled_polled (s : State) (xs ys : List Xfer) (between rest : List Reply) :
    (s.polled xs between).polled ys rest = s.polled (xs ++ ys) rest := by
  show ({ (s.afterXfers xs between).afterXfers ys rest with pollCount := 0 } : State) = _
  rw [afterXfers_append]
  rfl

theorem polled_of_zero {s : State} (h : s.pollCount = 0) (xs : List Xfer) (rest : List Reply) :
    s.afterXfers xs rest = s.polled xs rest := by
  rw [State.polled, ← h]
  rfl

theorem serveAll_append (xs ys : List Xfer) (rest : List Reply) :
    serveAll (xs ++ ys) ++ rest = serveAll xs ++ (serveAll ys ++ rest) := by
  simp [serveAll]

/-- A change of the state that the bus port and POLLCOUNT do not see. -/
structure OffBus (g : State → State) : Prop where
  replies : ∀ t, (g t).replies = t.replies
  polled : ∀ t xs rest, (g t).polled xs rest = g (t.polled xs rest)
  placed : ∀ t p x, g (t.placed p x) = (g t).placed p x
  sameRun : ∀ t : State, t.SameRun (g t)

theorem offBus_id : OffBus id := ⟨fun _ => rfl, fun _ _ _ => rfl, fun _ _ _ => rfl, fun _ => ⟨rfl, rfl, rfl, rfl, rfl⟩⟩

theorem offBus_saveOdd (b : Byte) : OffBus (saveOdd b) :=
  ⟨fun _ => rfl, fun _ _ _ => rfl, fun _ _ _ => rfl, fun _ => ⟨rfl, rfl, rfl, rfl, rfl⟩⟩

theorem offBus_saveEven (b : Byte) : OffBus (saveEven b) :=
  ⟨fun _ => rfl, fun _ _ _ => rfl, fun _ _ _ => rfl, fun _ => ⟨rfl, rfl, rfl, rfl, rfl⟩⟩

theorem offBus_takeStatus (b : Byte) : OffBus (takeStatus b) :=
  ⟨fun _ => rfl, fun _ _ _ => rfl, fun _ _ _ => rfl, fun _ => ⟨rfl, rfl, rfl, rfl, rfl⟩⟩

theorem OffBus.comp {g h : State → State} (hg : OffBus g) (hh : OffBus h) : OffBus fun t => h (g t) where
  replies t := (hh.replies _).trans (hg.replies t)
  polled t xs rest := by rw [hh.polled, hg.polled]
  placed t p x := by rw [hg.placed, hh.placed]
  sameRun t :=
    ⟨(hh.sameRun _).phase.trans (hg.sameRun t).phase, (hh.sameRun _).latch.trans (hg.sameRun t).latch,
      (hh.sameRun _).inbox.trans (hg.sameRun t).inbox, (hh.sameRun _).config.trans (hg.sameRun t).config,
      (hh.sameRun _).selLatch.trans (hg.sameRun t).selLatch⟩

/-- When the answers serve the transactions `xs`, the part `A` of the text performs them and then makes the change `g`. -/
structure Transacts (i : Instr) (A : State → List Line) (s : State) (xs : List Xfer) (g : State → State) : Prop where
  offBus : OffBus g
  does : ∀ rest, s.replies = serveAll xs ++ rest → Does i A s (g (s.polled xs rest))

theorem Transacts.append {xs ys : List Xfer} {g h : State → State} (hA : Transacts i A s xs g)
    (hB : ∀ rest, Transacts i B (g (s.polled xs rest)) ys h) :
    Transacts i (fun s' => A s' ++ B s') s (xs ++ ys) fun t => h (g t) := by
  obtain ⟨hg, hA⟩ := hA
  refine ⟨hg.comp (hB []).offBus, fun rest hs => ?_⟩
  rw [serveAll_append] at hs
  have first := hA _ hs
  have second := (hB (serveAll ys ++ rest)).does rest (hg.replies _)
  rw [hg.polled, polled_polled] at second
  exact first.append second

theorem Transacts.congr {xs : List Xfer} {g : State → State} (h : ∀ s', s.SameText s' → B s' = A s')
    (k : Transacts i A s xs g) : Transacts i B s xs g :=
  ⟨k.offBus, fun rest hs => (k.does rest hs).congr h⟩

/-- A WriteReg right after another transaction, without a poll. -/
theorem transacts_write {L : State → Line} {a w : Byte} (hp : s.pollCount = 0)
    (hL : ∀ p x, L (s.placed p x) = writeTo a w) : Transacts i (fun s' => [L s']) s [.wr a w] id := by
  refine ⟨offBus_id, fun rest hs => ?_⟩
  rw [← polled_of_zero hp]
  exact does_write hL hs

/-- A line `b <- ReadReg(a)` right after another transaction. -/
theorem transacts_read {L : State → Line} {a b : Byte} {use : Byte → State → State} (hp : s.pollCount = 0)
    (hL : ∀ p x, L (s.placed p x) = readInto a use) (huse : OffBus (use b)) :
    Transacts i (fun s' => [L s']) s [.rd a b] (use b) := by
  refine ⟨huse, fun rest hs => ?_⟩
  rw [← polled_of_zero hp]
  have same := huse.sameRun (s.afterXfers [.rd a b] rest)
  exact does_read hL hs (fun p x => congrArg _ (huse.placed _ p x))
    ⟨same.phase, same.latch, same.inbox, same.config, same.selLatch⟩

section Parts

variable {q : Byte} (hq : q.getLsbD 7 = false) (cfg : Config)

include hq

/-- `PollNotBusy()` answered not busy at once (R93). -/
theorem transacts_poll (hc : s.config = cfg) :
    Transacts i (fun s' => linesPoll s'.config) s [.rd cfg.regEeCtrl q] id := by
  subst hc
  refine ⟨offBus_id, fun rest hs => ?_⟩
  let t : State := { s with pollCount := 0 }
  have reset : Does i (fun _ => [.silent pollReset]) s t :=
    does_silent (fun p x => rfl) ⟨rfl, rfl, rfl, rfl, rfl⟩
  have read : Does i (fun s' => [.readReg s'.config.regEeCtrl pollTest]) t (t.afterXfers [.rd s.config.regEeCtrl q] rest) :=
    does_read (fun p x => rfl) hs (fun p x => pollTest_clear hq _) ⟨rfl, rfl, rfl, rfl, rfl⟩
  exact reset.append read

/-- A poll and a WriteReg. -/
theorem transacts_pollWrite {L : State → Line} {a w : Byte} (hL : ∀ s', s'.config = cfg → L s' = writeTo a w)
    (hc : s.config = cfg) :
    Transacts i (fun s' => linesPoll s'.config ++ [L s']) s [.rd cfg.regEeCtrl q, .wr a w] id :=
  (transacts_poll hq cfg hc).append fun _ => transacts_write rfl fun _ _ => hL _ hc

/-- A poll and a line `b <- ReadReg(a)`. -/
theorem transacts_pollRead {L : State → Line} {a b : Byte} {use : Byte → State → State}
    (hL : ∀ s', s'.config = cfg → L s' = readInto a use) (huse : OffBus (use b)) (hc : s.config = cfg) :
    Transacts i (fun s' => linesPoll s'.config ++ [L s']) s [.rd cfg.regEeCtrl q, .rd a b] (use b) :=
  (transacts_poll hq cfg hc).append fun _ => transacts_read rfl (fun _ _ => hL _ hc) huse

/-- `Lock()` (R95). -/
theorem transacts_lock (hc : s.config = cfg) : Transacts i (fun s' => linesLock s'.config) s (lockXfers cfg q) id :=
  transacts_pollWrite hq cfg (fun s' hs' => by rw [hs']) hc

/-- A poll and the write of a mode to the control register (R94). -/
theorem transacts_mode (m : Byte) (hc : s.config = cfg) :
    Transacts i (fun s' => linesPoll s'.config ++ [writeTo s'.config.regEeCtrl m]) s
      [.rd cfg.regEeCtrl q, .wr cfg.regEeCtrl m] id :=
  transacts_pollWrite hq cfg (fun s' hs' => by rw [hs']) hc

/-- A poll and the write of the word address. -/
theorem transacts_address (a : Byte) (hc : s.config = cfg) :
    Transacts i (fun s' => linesPoll s'.config ++ [writeTo s'.config.regEeAddr a]) s
      [.rd cfg.regEeCtrl q, .wr cfg.regEeAddr a] id :=
  transacts_pollWrite hq cfg (fun s' hs' => by rw [hs']) hc

/-- `ReadWordDev(a)` (R96). -/
theorem transacts_readWordDev (a even odd : Byte) (hc : s.config = cfg) :
    Transacts i (fun s' => linesReadWordDev s'.config a) s (readWordXfers cfg q a even odd)
      fun t => saveEven even (saveOdd odd t) := by
  have upToMode := (transacts_address (i := i) hq cfg a hc).append fun _ => transacts_mode hq cfg 0x55#8 hc
  have upToOdd := upToMode.append fun _ =>
    transacts_pollRead hq cfg (L := fun s' => readInto s'.config.regEeRdOdd saveOdd) (fun s' hs' => by rw [hs'])
      (offBus_saveOdd odd) hc
  have upToEven := upToOdd.append fun _ =>
    transacts_pollRead hq cfg (L := fun s' => readInto s'.config.regEeRdEven saveEven) (fun s' hs' => by rw [hs'])
      (offBus_saveEven even) hc
  have all := upToEven.append fun _ => transacts_lock hq cfg hc
  refine Transacts.congr (fun s' _ => ?_) all
  simp only [linesReadWordDev, List.append_assoc]

/-- `WriteWord(a, even, odd)` (R99), where the word is a function of the word in the local variables. -/
theorem transacts_writeWord (a : Byte) {even odd : Byte} {fe fo : State → Byte}
    (hword : ∀ s', s'.scratch.even = s.scratch.even → s'.scratch.odd = s.scratch.odd → fe s' = even ∧ fo s' = odd)
    (hc : s.config = cfg) :
    Transacts i (fun s' => linesWriteWord s'.config a (fe s') (fo s')) s (writeWordXfers cfg q a even odd) id := by
  have upToAddr := (transacts_mode (i := i) hq cfg 0x52#8 hc).append fun _ => transacts_address hq cfg a hc
  have upToPoll := upToAddr.append fun _ => transacts_poll hq cfg hc
  have upToOdd := upToPoll.append fun _ =>
    transacts_write (L := fun s' => writeTo s'.config.regEeWrOdd (fo s')) (a := cfg.regEeWrOdd) (w := odd) rfl
      fun p x => congrArg₂ writeTo (congrArg Config.regEeWrOdd hc) (hword _ (by rfl) (by rfl)).2
  have upToEven := upToOdd.append fun _ =>
    transacts_write (L := fun s' => writeTo s'.config.regEeWrEven (fe s')) (a := cfg.regEeWrEven) (w := even) rfl
      fun p x => congrArg₂ writeTo (congrArg Config.regEeWrEven hc) (hword _ (by rfl) (by rfl)).1
  have all := upToEven.append fun _ => transacts_lock hq cfg hc
  refine Transacts.congr (fun s' _ => ?_) all
  simp [linesWriteWord]

end Parts

/-! ## Whole commands -/

theorem entryOf_needBus {s : State} (h : s.busReady = true) : needBus s = .proceed s := by simp [needBus, h]

theorem wordAddrLegal_of_even {a : Byte} (heven : a.toNat % 2 = 0) (hle : a.toNat ≤ 126) : wordAddrLegal a = true := by
  simp [wordAddrLegal_eq, heven, hle]

/-- Settles O45. -/
theorem writeWordRun : Obligations.WriteWordRun := by
  intro s a q even odd rest ha hin hbus heven hle hq xs hs
  have text := (transacts_writeWord (i := .eeWriteWord a even odd) hq s.config a (even := even) (odd := odd)
    (fe := fun _ => even) (fo := fun _ => odd) (fun _ _ _ => ⟨rfl, rfl⟩) rfl).does rest hs
  have hentry : entryOf (.eeWriteWord a even odd) s = .proceed s := by
    simp [entryOf, requireOperand, wordAddrLegal_of_even heven hle, needBus, hbus]
  exact reaches_done ha hin hentry text

/-- Settles O49: the one read of each command, and what is done with its byte. -/
theorem busyAndIdentityRuns : Obligations.BusyAndIdentityRuns := by
  intro s b rest hin hbus
  refine ⟨fun ha hs => ?_, fun ha hs => ?_⟩
  · have text : Does .eeBusy (linesOf .eeBusy) s _ :=
      does_read (u := { s.afterXfers [.rd s.config.regEeCtrl b] rest with
        res0 := holds (b.setWidth 32), res1 := holds (if b.getLsbD 7 then 1 else 0), rvalid := true })
        (fun _ _ => rfl) hs (fun _ _ => rfl) ⟨rfl, rfl, rfl, rfl, rfl⟩
    exact reaches_done ha hin (entryOf_needBus hbus) text
  · intro t
    refine ⟨fun hk => ?_, fun hk ho => ?_, fun hk ho => ?_⟩
    · have text : Does .chkId (linesOf .chkId) s
          { t with res0 := holds (b.setWidth 32), res1 := holds 1, rvalid := true } :=
        does_read (fun _ _ => rfl) hs (fun _ _ => checkIdentity_known hk) ⟨rfl, rfl, rfl, rfl, rfl⟩
      exact reaches_done ha hin (entryOf_needBus hbus) text
    · have text : Does .chkId (linesOf .chkId) s
          { t with res0 := holds (b.setWidth 32), res1 := holds 0, rvalid := true, idWarn := true } :=
        does_read (fun _ _ => rfl) hs (fun _ _ => checkIdentity_overridden hk ho) ⟨rfl, rfl, rfl, rfl, rfl⟩
      exact reaches_done ha hin (entryOf_needBus hbus) text
    · have text : Faults .chkId (linesOf .chkId) s .unknownDevice
          { t with res0 := holds (b.setWidth 32), res1 := holds 0, rvalid := true } :=
        faults_read (fun _ _ => rfl) hs (fun _ _ => checkIdentity_unknown hk ho)
      exact reaches_fault ha hin (entryOf_needBus hbus) text

/-! ## The busy poll that is answered busy (R93) -/

/-- The read of the busy poll. -/
def pollRead (s : State) : List Line := [.readReg s.config.regEeCtrl pollTest]

/-- The transactions of `k` busy answers. -/
def busyXfers (cfg : Config) (busy : Byte) (k : Nat) : List Xfer := List.replicate k (.rd cfg.regEeCtrl busy)

theorem busyXfers_succ (cfg : Config) (busy : Byte) (k : Nat) :
    busyXfers cfg busy (k + 1) = [.rd cfg.regEeCtrl busy] ++ busyXfers cfg busy k := rfl

/-- The state after transactions of a poll that counted `n` busy answers. -/
def State.counted (s : State) (n : Nat) (xs : List Xfer) (rest : List Reply) : State :=
  { s.afterXfers xs rest with pollCount := s.pollCount + BitVec.ofNat 17 n }

theorem counted_counted (s : State) (m n : Nat) (xs ys : List Xfer) (between rest : List Reply) :
    (s.counted m xs between).counted n ys rest = s.counted (m + n) (xs ++ ys) rest := by
  show ({ (s.afterXfers xs between).afterXfers ys rest with
    pollCount := s.pollCount + BitVec.ofNat 17 m + BitVec.ofNat 17 n } : State) = _
  rw [afterXfers_append, BitVec.add_assoc, ← BitVec.ofNat_add]
  rfl

theorem counted_afterXfers (s : State) (n : Nat) (xs ys : List Xfer) (between rest : List Reply) :
    (s.counted n xs between).afterXfers ys rest = s.counted n (xs ++ ys) rest := by
  show ({ (s.afterXfers xs between).afterXfers ys rest with pollCount := s.pollCount + BitVec.ofNat 17 n } : State) = _
  rw [afterXfers_append]
  rfl

/-- A poll counts from 0. -/
theorem counted_from_zero (s : State) (n : Nat) (xs : List Xfer) (rest : List Reply) :
    ({ s with pollCount := 0 } : State).counted n xs rest =
      { s.afterXfers xs rest with pollCount := BitVec.ofNat 17 n } := by
  show ({ s.afterXfers xs rest with pollCount := 0#17 + BitVec.ofNat 17 n } : State) = _
  rw [BitVec.zero_add]

/-- The count of busy answers does not wrap below the 16-bit POLL_LIMIT. -/
theorem toNat_count_succ {p : BitVec 17} {limit : BitVec 16} {k : Nat} (h : p.toNat + (k + 1) ≤ limit.toNat) :
    (p + 1).toNat = p.toNat + 1 := by
  have := limit.isLt
  rw [BitVec.toNat_add]
  simp only [BitVec.ofNat_eq_ofNat, BitVec.toNat_ofNat]
  omega

/-- A busy answer below the limit. -/
theorem stands_busy {busy : Byte} (hb : busy.getLsbD 7 = true) {rest : List Reply} {T : State → List Line} {t : State}
    (hs : s.replies = serveAll [.rd s.config.regEeCtrl busy] ++ rest)
    (hlimit : s.pollLimit = 0 ∨ (s.pollCount + 1).toNat < s.pollLimit.toNat)
    (ht : Stands i (fun s' => pollRead s' ++ T s') s t) :
    ∃ t', Stands i (fun s' => pollRead s' ++ T s') (s.counted 1 [.rd s.config.regEeCtrl busy] rest) t' ∧ Reaches t t' :=
  reads_busy (L := fun s' => .readReg s'.config.regEeCtrl pollTest) (fun _ _ => rfl) hs hb hlimit ht

/-- `k` busy answers below the limit and then a clear one: the poll goes on. -/
theorem does_busyPoll {busy q : Byte} (hb : busy.getLsbD 7 = true) (hq : q.getLsbD 7 = false) {rest : List Reply} :
    ∀ (k : Nat) {s : State}, s.pollLimit = 0 ∨ s.pollCount.toNat + k < s.pollLimit.toNat →
      s.replies = serveAll (busyXfers s.config busy k ++ [.rd s.config.regEeCtrl q]) ++ rest →
      Does i pollRead s (s.counted k (busyXfers s.config busy k ++ [.rd s.config.regEeCtrl q]) rest)
  | 0, s, _, hs =>
    does_read (fun _ _ => rfl) hs (fun p x => (pollTest_clear hq _).trans (by simp [State.counted, State.placed, busyXfers]))
      ⟨rfl, rfl, rfl, rfl, rfl⟩
  | k + 1, s, hlimit, hs => by
    intro T t ht
    rw [busyXfers_succ, List.append_assoc, serveAll_append] at hs
    obtain ⟨t', ht', hreach⟩ := stands_busy hb hs (hlimit.imp_right fun h => by
      rw [toNat_count_succ (Nat.le_of_lt h)]; omega) ht
    let u := s.counted 1 [.rd s.config.regEeCtrl busy]
      (serveAll (busyXfers s.config busy k ++ [.rd s.config.regEeCtrl q]) ++ rest)
    have hcount : u.pollLimit = 0 ∨ u.pollCount.toNat + k < u.pollLimit.toNat := hlimit.imp_right fun h => by
      show (s.pollCount + 1).toNat + k < s.pollLimit.toNat
      rw [toNat_count_succ (Nat.le_of_lt h)]
      omega
    obtain ⟨t'', ht'', hreach'⟩ := does_busyPoll hb hq k (s := u) hcount rfl T t' ht'
    refine ⟨t'', ?_, hreach.trans hreach'⟩
    rw [counted_counted, Nat.add_comm 1 k] at ht''
    rw [busyXfers_succ, List.append_assoc]
    exact ht''

/-- The busy answer that reaches the limit: TIMEOUT. -/
theorem faults_busyPoll {busy : Byte} (hb : busy.getLsbD 7 = true) {rest : List Reply} :
    ∀ (k : Nat) {s : State}, s.pollCount.toNat + (k + 1) = s.pollLimit.toNat →
      s.replies = serveAll (busyXfers s.config busy (k + 1)) ++ rest →
      Faults i pollRead s .timeout (s.counted (k + 1) (busyXfers s.config busy (k + 1)) rest)
  | 0, s, hlimit, hs => by
    refine faults_read (fun _ _ => rfl) hs fun p x => pollTest_timeout hb ?_ ?_
    · show s.pollLimit ≠ 0
      rintro h0
      simp [h0] at hlimit
    · show s.pollLimit.toNat ≤ (s.pollCount + 1).toNat
      rw [toNat_count_succ (Nat.le_of_eq hlimit), ← hlimit]
  | k + 1, s, hlimit, hs => by
    intro T t ht
    rw [busyXfers_succ, serveAll_append] at hs
    have hone := toNat_count_succ (Nat.le_of_eq hlimit)
    obtain ⟨t', ht', hreach⟩ := stands_busy hb hs (.inr (by omega)) ht
    let u := s.counted 1 [.rd s.config.regEeCtrl busy] (serveAll (busyXfers s.config busy (k + 1)) ++ rest)
    have hcount : u.pollCount.toNat + (k + 1) = u.pollLimit.toNat := by
      show (s.pollCount + 1).toNat + (k + 1) = s.pollLimit.toNat
      omega
    have hrest := faults_busyPoll hb k (s := u) hcount rfl T t' ht'
    rw [counted_counted, Nat.add_comm 1 (k + 1)] at hrest
    rw [busyXfers_succ]
    exact hreach.trans hrest

/-- The poll begins with POLLCOUNT 0. -/
theorem does_pollReset (s : State) : Does i (fun _ => [.silent pollReset]) s { s with pollCount := 0 } :=
  does_silent (fun _ _ => rfl) ⟨rfl, rfl, rfl, rfl, rfl⟩

/-- Settles O38: the clearing of POLLCOUNT, the poll with its busy answers, and the write of 0x00. -/
theorem lockWaitsForClear : Obligations.LockWaitsForClear := by
  intro s k busy q rest ha hin hbus hb hq hlimit xs hs
  have hxs : xs = (busyXfers s.config busy k ++ [.rd s.config.regEeCtrl q]) ++ [.wr s.config.regEeCtrl 0x00#8] := by
    simp only [xs, busyXfers, lockXfers, List.append_assoc, List.cons_append, List.nil_append]
  rw [hxs, serveAll_append] at hs
  rw [hxs]
  let t : State := { s with pollCount := 0 }
  have hcount : t.pollLimit = 0 ∨ t.pollCount.toNat + k < t.pollLimit.toNat := hlimit.imp_right fun h => by
    show 0 + k < s.pollLimit.toNat
    omega
  have poll := (does_pollReset (i := .eeLock) s).append (does_busyPoll hb hq k (s := t) hcount hs)
  have text := poll.append (does_write (L := fun s' => writeTo s'.config.regEeCtrl 0x00#8) (fun _ _ => rfl) rfl)
  have h := reaches_done ha hin (entryOf_needBus hbus) text
  rwa [counted_afterXfers, counted_from_zero] at h

/-- Settles O39: every answer is busy, and the one that reaches POLL_LIMIT faults. -/
theorem pollTimesOut : Obligations.PollTimesOut := by
  intro s busy rest ha hin hbus hb hlimit xs hs
  obtain ⟨k, hk⟩ : ∃ k, s.pollLimit.toNat = k + 1 := Nat.exists_eq_succ_of_ne_zero fun h => hlimit (BitVec.eq_of_toNat_eq h)
  have hxs : xs = busyXfers s.config busy (k + 1) := by rw [busyXfers, ← hk]
  have hfinal : s.pollLimit.setWidth 17 = BitVec.ofNat 17 (k + 1) := by
    rw [← hk]
    simp
  rw [hxs] at hs
  rw [hxs, hfinal]
  let t : State := { s with pollCount := 0 }
  have hcount : t.pollCount.toNat + (k + 1) = t.pollLimit.toNat := (Nat.zero_add _).trans hk.symm
  have text := (does_pollReset (i := .eeLock) s).append_faults (faults_busyPoll hb k (s := t) hcount hs)
  have h := reaches_fault ha hin (entryOf_needBus hbus) (text.append (B := fun s' => [writeTo s'.config.regEeCtrl 0x00#8]))
  rwa [raiseFault_eq_ended, counted_from_zero] at h

end Sys2Proof.Machine

/-!
PROOFS. ReadWord in its two variants (R96 to R98) and the commands that read one word: EE_READ_WORD (R102), RSENSE and ICUR
(R126, R127, R130), VTHR (R131, R132), from acceptance to their end.
-/

namespace Sys2Proof.Machine

open Sys2Proof

variable {i : Instr} {s u : State}

/-! ## ReadWord (R98) -/

/-- ReadWord in the device variant. -/
theorem transacts_readWord {q : Byte} (hq : q.getLsbD 7 = false) (hsel : s.selLatch = false) (a even odd : Byte) :
    Transacts i (fun s' => linesReadWord s' a) s (readWordXfers s.config q a even odd)
      fun t => saveEven even (saveOdd odd t) := by
  refine Transacts.congr (fun s' hs' => ?_) (transacts_readWordDev hq s.config a even odd rfl)
  rw [linesReadWord, hs'.selLatch, hsel]
  rfl

/-- ReadWord in the store variant, where STORE holds the word. -/
theorem does_readWordStore {a even odd : Byte} (hsel : s.selLatch = true) (hlen : a.toNat + 2 ≤ s.storeLen.toNat)
    (he : s.mem.read (0x300 + a.toNat) = some even) (ho : s.mem.read (0x300 + a.toNat + 1) = some odd) :
    Does i (fun s' => linesReadWord s' a) s (saveEven even (saveOdd odd s)) := by
  have h : Does i (fun _ => [.silent (readWordStore a)]) s (saveEven even (saveOdd odd s)) :=
    does_silent (fun p x => readWordStore_held (s := s.placed p x) hlen he ho) ⟨rfl, rfl, rfl, rfl, rfl⟩
  exact h.congr fun s' hs' => linesReadWord_store (hs'.selLatch.trans hsel) a

/-- ReadWord in the store variant, where the word does not lie below STORE_LEN. -/
theorem faults_readWordStore {a : Byte} (hsel : s.selLatch = true) (hlen : s.storeLen.toNat < a.toNat + 2) :
    Faults i (fun s' => linesReadWord s' a) s .input s := by
  have h : Faults i (fun _ => [.silent (readWordStore a)]) s .input s :=
    faults_silent fun p x => readWordStore_short (s := s.placed p x) hlen
  exact h.congr fun s' hs' => linesReadWord_store (hs'.selLatch.trans hsel) a

/-! ## EE_READ_WORD (R102) -/

theorem entryOf_needBusForWord (h : s.selLatch = true ∨ s.busReady = true) : needBusForWord s = .proceed s := by
  rcases h with h | h <;> simp [needBusForWord, needBus, h]

theorem entryOf_eeReadWord {a : Byte} (heven : a.toNat % 2 = 0) (hle : a.toNat ≤ 126)
    (h : s.selLatch = true ∨ s.busReady = true) : entryOf (.eeReadWord a) s = .proceed s := by
  rw [entryOf, requireOperand, wordAddrLegal_of_even heven hle]
  exact entryOf_needBusForWord h

/-- The line behind a ReadWord of `[even, odd]`. -/
theorem does_wordResult (even odd : Byte) (t : State) :
    Does i (fun _ => [.silent wordResult]) (saveEven even (saveOdd odd t))
      { saveEven even (saveOdd odd t) with res0 := holds ((odd ++ even : BitVec 16).setWidth 32), rvalid := true } :=
  does_silent (fun _ _ => rfl) ⟨rfl, rfl, rfl, rfl, rfl⟩

theorem finish_wordResult (u : State) (even odd : Byte) (v : Word32) :
    finish { saveEven even (saveOdd odd u) with res0 := holds v, rvalid := true } =
      { u.ended .done u.fcode with res0 := holds v, rvalid := true } := rfl

/-- Settles O41. -/
theorem readWordDeviceRun : Obligations.ReadWordDeviceRun := by
  intro s a q even odd rest ha hin hbus hsel heven hle hq xs hs
  have word := (transacts_readWord (i := .eeReadWord a) hq hsel a even odd).does rest hs
  have h := reaches_done ha hin (entryOf_eeReadWord heven hle (.inr hbus)) (word.append (does_wordResult even odd _))
  rwa [finish_wordResult] at h

/-- A command that stands at a line where it is refused. -/
theorem run_refused_at {t : State} {r : Refusal} (hreach : Reaches s t) (ht : t.Runs i) (h : exec i t = .refused r) :
    ∃ n, Sys2Proof.core.run n s = .refused r := by
  obtain ⟨m, hm⟩ := hreach
  have hstep : step t = .refused r := by rw [step_quiet ht.alone, advance_running ht.running ht.decodes, h]
  exact ⟨m + 1, by rw [run_add hm, run_refused hstep]⟩

/-- Settles O42: the three outcomes of the one line that reads STORE. -/
theorem readWordStoreRun : Obligations.ReadWordStoreRun := by
  intro s a ha hin hsel heven hle
  have hentry := entryOf_eeReadWord heven hle (.inl hsel)
  refine ⟨fun hlen => ?_, fun hlen => ⟨fun even odd he ho => ?_, fun hmissing => ?_⟩⟩
  · have text := (faults_readWordStore (i := .eeReadWord a) hsel hlen).append (B := fun _ => [.silent wordResult])
    exact reaches_fault ha hin hentry text
  · have word := does_readWordStore (i := .eeReadWord a) hsel hlen he ho
    exact reaches_done ha hin hentry (word.append (does_wordResult even odd s))
  · obtain ⟨hrun, hp, hd⟩ := ha
    have first : Reaches s (toBeat 0 .start s) :=
      reaches_first_line ⟨hrun, hd, hin⟩ hp hentry ((linesOf_pos_iff _ _).2 (by simp))
    exact run_refused_at first ⟨hrun, hd, hin⟩
      (exec_unheldWord (s := toBeat 0 .start s) (pre := []) rfl rfl ⟨hsel, hlen, hmissing⟩)

/-! ## RSENSE and ICUR (R126, R127, R130) -/

/-- RSENSE's and ICUR's word is read at the address of the parameter's even byte. -/
theorem sameText_senseWord (s s' : State) (h : s.SameText s') :
    linesReadWord s' (senseWordAddr s'.config) = linesReadWord s' (senseWordAddr s.config) := by rw [h.config]

/-- The two current reads of ICUR. -/
theorem does_current {lo hi : Byte} {rest : List Reply}
    (hs : s.replies = serveAll [.rd s.config.regCurrentLo lo, .rd s.config.regCurrentHi hi] ++ rest) :
    Does i (fun s' => [readInto s'.config.regCurrentLo saveFirst, readInto s'.config.regCurrentHi saveSecond]) s
      (saveSecond hi (saveFirst lo (s.afterXfers [.rd s.config.regCurrentLo lo, .rd s.config.regCurrentHi hi] rest))) := by
  rw [serveAll_cons] at hs
  let t := saveFirst lo (s.afterXfers [.rd s.config.regCurrentLo lo] (serveAll [.rd s.config.regCurrentHi hi] ++ rest))
  have first : Does i (fun s' => [readInto s'.config.regCurrentLo saveFirst]) s t :=
    does_read (fun _ _ => rfl) hs (fun _ _ => rfl) ⟨rfl, rfl, rfl, rfl, rfl⟩
  have second : Does i (fun s' => [readInto s'.config.regCurrentHi saveSecond]) t
      (saveSecond hi (t.afterXfers [.rd s.config.regCurrentHi hi] rest)) :=
    does_read (fun _ _ => rfl) rfl (fun _ _ => rfl) ⟨rfl, rfl, rfl, rfl, rfl⟩
  have both := afterXfers_append s [.rd s.config.regCurrentLo lo] [.rd s.config.regCurrentHi hi]
    (serveAll [.rd s.config.regCurrentHi hi] ++ rest) rest
  rw [List.singleton_append] at both
  rw [← both]
  exact first.append second

/-- The state with RSENSE's results from the word in the local variables. -/
def State.sensed (s : State) : State :=
  let raw := if s.config.eeSenseAddr.getLsbD 0 then s.scratch.odd else s.scratch.even
  let sense : Nat := if raw = 0#8 then 25 else raw.toNat
  { s with res0 := holds (BitVec.ofNat 32 sense), res1 := holds (raw.setWidth 32), rvalid := true }

/-- The state with ICUR's results from the word and the current bytes in the local variables. -/
def State.measured (s : State) : State :=
  let raw := if s.config.eeSenseAddr.getLsbD 0 then s.scratch.odd else s.scratch.even
  let sense : Nat := if raw = 0#8 then 25 else raw.toNat
  let hi := s.scratch.second
  let lo := s.scratch.first
  let r : Int := if s.config.currentSigned then (hi ++ lo : BitVec 16).toInt else (hi ++ lo : BitVec 16).toNat
  { s with
    res0 := holds ((hi ++ lo : BitVec 16).setWidth 32)
    res1 := holds (BitVec.ofNat 32 sense)
    res2 := holds (BitVec.ofInt 32 (r * 763))
    res3 := holds (BitVec.ofNat 32 (10000 * sense))
    rvalid := true }

theorem finish_measured {u : State} {c : Config} (hc : u.config = c) (lo hi even odd : Byte) :
    let raw := if c.eeSenseAddr.getLsbD 0 then odd else even
    let sense : Nat := if raw = 0#8 then 25 else raw.toNat
    let r : Int := if c.currentSigned then (hi ++ lo : BitVec 16).toInt else (hi ++ lo : BitVec 16).toNat
    finish (saveEven even (saveOdd odd (saveSecond hi (saveFirst lo u)))).measured =
      { u.ended .done u.fcode with
        res0 := holds ((hi ++ lo : BitVec 16).setWidth 32)
        res1 := holds (BitVec.ofNat 32 sense)
        res2 := holds (BitVec.ofInt 32 (r * 763))
        res3 := holds (BitVec.ofNat 32 (10000 * sense))
        rvalid := true } := by
  subst hc
  simp only [State.measured, saveEven, saveOdd, saveSecond, saveFirst, finish, State.ended]
  rfl

theorem does_senseResult (s : State) : Does i (fun _ => [.silent senseResult]) s s.sensed :=
  does_silent (fun p x => senseResult_eq (s.placed p x)) ⟨rfl, rfl, rfl, rfl, rfl⟩

theorem does_currentResult (s : State) : Does i (fun _ => [.silent currentResult]) s s.measured :=
  does_silent (fun p x => currentResult_eq (s.placed p x)) ⟨rfl, rfl, rfl, rfl, rfl⟩

/-- RSENSE from what ReadWord of its word does. -/
theorem reaches_rsense (ha : s.Accepted .rsense) (hin : s.inbox = []) (hword : s.selLatch = true ∨ s.busReady = true)
    (h : Does .rsense (fun s' => linesReadWord s' (senseWordAddr s.config)) s u) : Reaches s (finish u.sensed) :=
  reaches_done ha hin (entryOf_needBusForWord hword)
    ((h.congr fun s' hs' => sameText_senseWord s s' hs').append (does_senseResult u))

/-- ICUR from what ReadWord of its word does after the current reads. -/
theorem reaches_icur {t : State} {lo hi even odd : Byte} (ha : s.Accepted .icur) (hin : s.inbox = [])
    (hbus : s.busReady = true)
    (hcur : Does .icur (fun s' => [readInto s'.config.regCurrentLo saveFirst, readInto s'.config.regCurrentHi saveSecond])
      s t) (hc : t.config = s.config)
    (h : Does .icur (fun s' => linesReadWord s' (senseWordAddr s.config)) t
      (saveEven even (saveOdd odd (saveSecond hi (saveFirst lo u))))) (hu : u.config = s.config) :
    let raw := if s.config.eeSenseAddr.getLsbD 0 then odd else even
    let sense : Nat := if raw = 0#8 then 25 else raw.toNat
    let r : Int := if s.config.currentSigned then (hi ++ lo : BitVec 16).toInt else (hi ++ lo : BitVec 16).toNat
    Reaches s
      { u.ended .done u.fcode with
        res0 := holds ((hi ++ lo : BitVec 16).setWidth 32)
        res1 := holds (BitVec.ofNat 32 sense)
        res2 := holds (BitVec.ofInt 32 (r * 763))
        res3 := holds (BitVec.ofNat 32 (10000 * sense))
        rvalid := true } := by
  intro raw sense r
  have word := h.congr fun s' hs' => hc ▸ sameText_senseWord t s' hs'
  have hdone := reaches_done ha hin (entryOf_needBus hbus) ((hcur.append word).append (does_currentResult _))
  rwa [finish_measured hu] at hdone

theorem offBus_current (lo hi : Byte) : OffBus fun t => saveSecond hi (saveFirst lo t) :=
  ⟨fun _ => rfl, fun _ _ _ => rfl, fun _ _ _ => rfl, fun _ => ⟨rfl, rfl, rfl, rfl, rfl⟩⟩

theorem afterXfers_polled (s : State) (xs ys : List Xfer) (between rest : List Reply) :
    (s.afterXfers xs between).polled ys rest = s.polled (xs ++ ys) rest := by
  rw [State.polled, afterXfers_append, State.polled]

/-- ICUR's ReadWord in the device variant, after the current reads. -/
theorem does_currentWord {q lo hi even odd : Byte} (hq : q.getLsbD 7 = false) (hsel : s.selLatch = false)
    (xs : List Xfer) (a : Byte) (rest : List Reply) :
    let word := readWordXfers s.config q a even odd
    Does i (fun s' => linesReadWord s' a) (saveSecond hi (saveFirst lo (s.afterXfers xs (serveAll word ++ rest))))
      (saveEven even (saveOdd odd (saveSecond hi (saveFirst lo (s.polled (xs ++ word) rest))))) := by
  intro word
  let t := saveSecond hi (saveFirst lo (s.afterXfers xs (serveAll word ++ rest)))
  have h := (transacts_readWord (i := i) (s := t) hq hsel a even odd).does rest rfl
  rw [(offBus_current lo hi).polled, afterXfers_polled] at h
  exact h

/-- Settles O50. -/
theorem senseAndCurrentRuns : Obligations.SenseAndCurrentRuns := by
  intro s lo hi even odd rest hin current raw sense r sensed measured
  refine ⟨fun hsel hbus q hq => ?_, fun hsel => ?_⟩
  · intro word
    refine ⟨fun ha hs => ?_, fun ha hs => ?_⟩
    · exact reaches_rsense ha hin (.inr hbus) ((transacts_readWord hq hsel (senseWordAddr s.config) even odd).does rest hs)
    · rw [serveAll_append] at hs
      have hcur := does_current (i := .icur) hs
      have hword := does_currentWord (i := .icur) (lo := lo) (hi := hi) (even := even) (odd := odd) hq hsel current
        (senseWordAddr s.config) rest
      exact reaches_icur ha hin hbus hcur rfl hword rfl
  · intro a
    have haddr : (senseWordAddr s.config).toNat = a := senseWordAddr_toNat s.config
    refine ⟨fun hlen he ho => ⟨fun ha => ?_, fun ha hbus hs => ?_⟩, fun hlen => ⟨fun ha => ?_, fun ha hbus hs => ?_⟩⟩ <;>
      rw [← haddr] at hlen
    · rw [← haddr] at he ho
      exact reaches_rsense ha hin (.inl hsel) (does_readWordStore hsel hlen he ho)
    · rw [← haddr] at he ho
      let t := saveSecond hi (saveFirst lo (s.afterXfers current rest))
      exact reaches_icur ha hin hbus (does_current hs) rfl (does_readWordStore (s := t) hsel hlen he ho) rfl
    · have word := (faults_readWordStore (i := .rsense) hsel hlen).congr fun s' hs' => sameText_senseWord s s' hs'
      exact reaches_fault ha hin (entryOf_needBusForWord (.inl hsel)) (word.append (B := fun _ => [.silent senseResult]))
    · let t := saveSecond hi (saveFirst lo (s.afterXfers current rest))
      have word := (faults_readWordStore (i := .icur) (s := t) hsel hlen).congr fun s' hs' => sameText_senseWord t s' hs'
      exact reaches_fault ha hin (entryOf_needBus hbus)
        (((does_current hs).append_faults word).append (B := fun _ => [.silent currentResult]))

/-! ## VTHR (R131, R132) -/

/-- The state with VTHR's results from the word in the local variables. -/
def State.compared (s : State) : State :=
  let even := s.scratch.even
  let odd := s.scratch.odd
  { s with
    res0 := holds (BitVec.ofNat 32 (odd.toNat * 32 + even.toNat / 8))
    res1 := holds (BitVec.ofNat 32 ((odd.toNat * 32 + even.toNat / 8) * 122))
    res2 := holds ((odd ++ even : BitVec 16).setWidth 32)
    rvalid := true }

theorem does_thresholdResult (s : State) : Does i (fun _ => [.silent thresholdResult]) s s.compared :=
  does_silent (fun p x => thresholdResult_eq (s.placed p x)) ⟨rfl, rfl, rfl, rfl, rfl⟩

/-- The text of VTHR whose selector names the word at `a`. -/
theorem linesOf_vthr {sel a : Byte} (ha : thresholdAddr s.config sel = a) (s' : State) (h : s.SameText s') :
    linesOf (.vthr sel) s' = linesReadWord s' a ++ [.silent thresholdResult] := by
  rw [linesOf, linesVthr, h.config, ha]

theorem entryOf_vthr {sel : Byte} (hsel : sel.toNat ≤ 3) (h : s.selLatch = true ∨ s.busReady = true) :
    entryOf (.vthr sel) s = .proceed s := by
  rw [entryOf, requireOperand, selectorLegal, if_pos (by simpa using hsel)]
  exact entryOf_needBusForWord h

/-- Settles O51. -/
theorem vthrRun : Obligations.VthrRun := by
  intro s sel a even odd ha hin hselects result
  have haddr := linesOf_vthr (s := s) (thresholdAddr_of_selects hselects)
  have hle : sel.toNat ≤ 3 := by rcases hselects with ⟨rfl, -⟩ | ⟨rfl, -⟩ | ⟨rfl, -⟩ | ⟨rfl, -⟩ <;> decide
  refine ⟨fun hsel hbus q rest hq hs => ?_, fun hsel hlen he ho => ?_, fun hsel hlen => ?_⟩
  · have word := (transacts_readWord (i := .vthr sel) hq hsel a even odd).does rest hs
    exact reaches_done ha hin (entryOf_vthr hle (.inr hbus)) ((word.append (does_thresholdResult _)).congr haddr)
  · have word := does_readWordStore (i := .vthr sel) hsel hlen he ho
    exact reaches_done ha hin (entryOf_vthr hle (.inl hsel)) ((word.append (does_thresholdResult _)).congr haddr)
  · have word := (faults_readWordStore (i := .vthr sel) hsel hlen).append (B := fun _ => [.silent thresholdResult])
    exact reaches_fault ha hin (entryOf_vthr hle (.inl hsel)) (word.congr haddr)

end Sys2Proof.Machine

/-!
PROOFS. The word loops: EE_READ_IMAGE from the device and from STORE (R103).
-/

namespace Sys2Proof.Machine

open Sys2Proof

variable {i : Instr} {s u : State}

/-! ## Where a word loop stands -/

/-- The state of a word loop that began in `s`, once `k` words are done: the transactions `xs` have happened, RES0 counts the
words, and the buffers, POLLCOUNT and the local variables are `m`, `c` and `x`. -/
def State.atWord (s : State) (k : Nat) (xs : List Xfer) (rest : List Reply) (m : Memory) (c : BitVec 17) (x : Scratch) :
    State :=
  { s.afterXfers xs rest with
    res0 := holds (BitVec.ofNat 32 k), rvalid := true, mem := m, pollCount := c, scratch := x }

theorem setRes0_eq_atWord (s : State) : s.setRes0 0 = s.atWord 0 [] s.replies s.mem s.pollCount s.scratch := rfl

theorem atWord_polled (s : State) (k : Nat) (xs ys : List Xfer) (between rest : List Reply) (m : Memory) (c : BitVec 17)
    (x : Scratch) : (s.atWord k xs between m c x).polled ys rest = s.atWord k (xs ++ ys) rest m 0 x := by
  show { (s.afterXfers xs between).afterXfers ys rest with
    res0 := holds (BitVec.ofNat 32 k), rvalid := true, mem := m, pollCount := 0, scratch := x } = _
  rw [afterXfers_append]
  rfl

theorem finish_atWord (s : State) (k : Nat) (xs : List Xfer) (rest : List Reply) (m : Memory) (c : BitVec 17) (x : Scratch) :
    finish (s.atWord k xs rest m c x) =
      { (s.afterXfers xs rest).ended .done s.fcode with
        pollCount := c, res0 := holds (BitVec.ofNat 32 k), rvalid := true, mem := m } := rfl

theorem raiseFault_atWord (s : State) (k : Nat) (xs : List Xfer) (rest : List Reply) (m : Memory) (c : BitVec 17)
    (x : Scratch) (f : FaultCode) :
    raiseFault f (s.atWord k xs rest m c x) =
      { (s.afterXfers xs rest).ended .fault f with
        pollCount := c, res0 := holds (BitVec.ofNat 32 k), rvalid := true, mem := m } := rfl

/-! ## The transactions of a word loop -/

/-- The transactions of the words before word `k`. -/
def xfersBefore (W : Nat → List Xfer) (k : Nat) : List Xfer := (List.range k).flatMap W

/-- The answers that are left before word `k` of `n`. -/
def repliesFrom (W : Nat → List Xfer) (n k : Nat) (rest : List Reply) : List Reply :=
  serveAll (((List.range n).drop k).flatMap W) ++ rest

theorem xfersBefore_succ (W : Nat → List Xfer) (k : Nat) : xfersBefore W (k + 1) = xfersBefore W k ++ W k := by
  rw [xfersBefore, List.range_succ, List.flatMap_append, List.flatMap_singleton]
  rfl

theorem repliesFrom_lt (W : Nat → List Xfer) {n k : Nat} (hk : k < n) (rest : List Reply) :
    repliesFrom W n k rest = serveAll (W k) ++ repliesFrom W n (k + 1) rest := by
  have hlen : k < (List.range n).length := by rwa [List.length_range]
  rw [repliesFrom, List.drop_eq_getElem_cons hlen, List.getElem_range, List.flatMap_cons, serveAll_append]
  rfl

theorem repliesFrom_self (W : Nat → List Xfer) (n : Nat) (rest : List Reply) : repliesFrom W n n rest = rest := by
  rw [repliesFrom, List.drop_eq_nil_of_le (by rw [List.length_range])]
  rfl

/-! ## IMGBUF while EE_READ_IMAGE fills it -/

/-- The buffers `m` with the first `k` words of `img` in IMGBUF. -/
def withWords (m : Memory) (img : Nat → Byte) : Nat → Memory
  | 0 => m
  | k + 1 => ((withWords m img k).write (0x200 + 2 * k) (img (2 * k))).write (0x200 + (2 * k + 1)) (img (2 * k + 1))

theorem withWords_inside (m : Memory) (img : Nat → Byte) {a : Nat} :
    ∀ {k : Nat}, a < 2 * k → (withWords m img k).read (0x200 + a) = some (img a)
  | 0, h => by omega
  | k + 1, h => by
    rw [withWords]
    by_cases hodd : a = 2 * k + 1
    · rw [hodd, memory_read_write_same]
    · rw [memory_read_write_other _ _ _ _ (by omega)]
      by_cases heven : a = 2 * k
      · rw [heven, memory_read_write_same]
      · rw [memory_read_write_other _ _ _ _ (by omega), withWords_inside m img (by omega)]

theorem withWords_outside (m : Memory) (img : Nat → Byte) {x : Nat} :
    ∀ {k : Nat}, x < 0x200 ∨ 0x200 + 2 * k ≤ x → (withWords m img k).read x = m.read x
  | 0, _ => rfl
  | k + 1, h => by
    rw [withWords, memory_read_write_other _ _ _ _ (by omega), memory_read_write_other _ _ _ _ (by omega),
      withWords_outside m img (by omega)]

/-- The last line of word `k` stores it and counts it. -/
theorem does_storeImageWord (k : Nat) (even odd : Byte) (u : State) :
    Does i (fun _ => [.silent (storeImageWord k)]) (saveEven even (saveOdd odd u))
      { saveEven even (saveOdd odd u) with
        mem := (u.mem.write (0x200 + 2 * k) even).write (0x200 + (2 * k + 1)) odd
        res0 := holds (BitVec.ofNat 32 (k + 1))
        rvalid := true } :=
  does_silent (fun _ _ => rfl) ⟨rfl, rfl, rfl, rfl, rfl⟩

theorem atWord_store (s : State) (k : Nat) (xs : List Xfer) (rest : List Reply) (m m' : Memory) (c : BitVec 17)
    (x : Scratch) (even odd : Byte) :
    ({ saveEven even (saveOdd odd (s.atWord k xs rest m c x)) with
        mem := m', res0 := holds (BitVec.ofNat 32 (k + 1)), rvalid := true } : State) =
      s.atWord (k + 1) xs rest m' c { x with even := even, odd := odd } := rfl

/-- ReadWord of word `k` and the line that stores it. -/
theorem does_imageWord {img : Nat → Byte} {k : Nat} {t : State} {xs : List Xfer} {rest : List Reply} {c : BitVec 17}
    {x : Scratch} (h : Does i (fun s' => linesReadWord s' (BitVec.ofNat 8 (2 * k))) t
      (saveEven (img (2 * k)) (saveOdd (img (2 * k + 1)) (s.atWord k xs rest (withWords s.mem img k) c x)))) :
    Does i (fun s' => linesImageWord s' k) t
      (s.atWord (k + 1) xs rest (withWords s.mem img (k + 1)) c { x with even := img (2 * k), odd := img (2 * k + 1) }) := by
  have both := h.append (does_storeImageWord k (img (2 * k)) (img (2 * k + 1)) _)
  rwa [atWord_store] at both

theorem entryOf_eeReadImage (h : s.selLatch = true ∨ s.busReady = true) :
    entryOf .eeReadImage s = .proceed (s.setRes0 0) := by
  rw [entryOf, entryEeReadImage, entryOf_needBusForWord h]
  rfl

/-! ## EE_READ_IMAGE (R103) -/

/-- Where EE_READ_IMAGE in the device variant stands after `k` words. -/
def deviceImageAt (s : State) (img : Nat → Byte) (W : Nat → List Xfer) (rest : List Reply) (k : Nat) (u : State) : Prop :=
  ∃ c x, (k ≠ 0 → c = 0) ∧
    u = s.atWord k (xfersBefore W k) (repliesFrom W 64 k rest) (withWords s.mem img k) c x

/-- Settles O43: each round reads one word and stores it. -/
theorem readImageDeviceRun : Obligations.ReadImageDeviceRun := by
  intro s q img rest ha hin hbus hsel hq xs hs
  let W : Nat → List Xfer := fun k =>
    readWordXfers s.config q (BitVec.ofNat 8 (2 * k)) (img (2 * k)) (img (2 * k + 1))
  have round : ∀ k < 64, ∀ u, deviceImageAt s img W rest k u →
      ∃ v, deviceImageAt s img W rest (k + 1) v ∧ Does .eeReadImage (fun s' => linesImageWord s' k) u v := by
    rintro k hk _ ⟨c, x, -, rfl⟩
    let t := s.atWord k (xfersBefore W k) (repliesFrom W 64 k rest) (withWords s.mem img k) c x
    have word := (transacts_readWord (i := .eeReadImage) (s := t) hq hsel (BitVec.ofNat 8 (2 * k))
      (img (2 * k)) (img (2 * k + 1))).does (repliesFrom W 64 (k + 1) rest) (repliesFrom_lt W hk rest)
    have before : xfersBefore W k ++ readWordXfers t.config q (BitVec.ofNat 8 (2 * k)) (img (2 * k)) (img (2 * k + 1)) =
      xfersBefore W (k + 1) := (xfersBefore_succ W k).symm
    rw [atWord_polled, before] at word
    exact ⟨_, ⟨0, _, fun _ => rfl, rfl⟩, does_imageWord word⟩
  have start : deviceImageAt s img W rest 0 (s.setRes0 0) := by
    refine ⟨s.pollCount, s.scratch, fun h => absurd rfl h, ?_⟩
    rw [setRes0_eq_atWord, hs]
    rfl
  obtain ⟨v, ⟨c, x, hc, rfl⟩, text⟩ := does_range round start
  have h := reaches_done ha hin (entryOf_eeReadImage (.inr hbus)) text
  rw [finish_atWord, repliesFrom_self, hc (by decide)] at h
  exact ⟨_, h, fun a ha => withWords_inside _ _ (by omega), fun x hx => withWords_outside _ _ (by omega)⟩

/-- The text of EE_READ_IMAGE around word `n`. -/
theorem linesEeReadImage_split (s : State) {n : Nat} (hn : n < 64) :
    linesEeReadImage s = (List.range n).flatMap (linesImageWord s) ++ linesImageWord s n ++
      ((List.range 64).drop (n + 1)).flatMap (linesImageWord s) := by
  have hlen : n < (List.range 64).length := by rwa [List.length_range]
  have htake : (List.range 64).take n = List.range n := by rw [List.take_range, Nat.min_eq_left (Nat.le_of_lt hn)]
  have hsplit : List.range 64 = List.range n ++ n :: (List.range 64).drop (n + 1) := by
    conv_lhs => rw [← List.take_append_drop n (List.range 64), List.drop_eq_getElem_cons hlen, List.getElem_range, htake]
  conv_lhs => rw [linesEeReadImage, hsplit, List.flatMap_append, List.flatMap_cons, ← List.append_assoc]

/-- Where EE_READ_IMAGE in the store variant stands after `k` words. -/
def storeImageAt (s : State) (img : Nat → Byte) (k : Nat) (u : State) : Prop :=
  ∃ x, u = s.atWord k [] s.replies (withWords s.mem img k) s.pollCount x

/-- The words that lie below STORE_LEN are copied. -/
theorem does_storeImage {img : Nat → Byte} (hsel : s.selLatch = true) {n : Nat} (hn : n ≤ 64)
    (hlen : 2 * n ≤ s.storeLen.toNat) (himg : ∀ a, a < 2 * n → s.mem.read (0x300 + a) = some (img a)) :
    ∃ v, storeImageAt s img n v ∧
      Does .eeReadImage (fun s' => (List.range n).flatMap (linesImageWord s')) (s.setRes0 0) v := by
  refine does_range (f := linesImageWord) (fun k hk u hu => ?_) ⟨s.scratch, setRes0_eq_atWord s⟩
  obtain ⟨x, rfl⟩ := hu
  have haddr : (BitVec.ofNat 8 (2 * k)).toNat = 2 * k := toNat_ofNat_two_mul (by omega)
  have word := does_readWordStore (i := .eeReadImage) (a := BitVec.ofNat 8 (2 * k)) (even := img (2 * k))
    (odd := img (2 * k + 1)) (s := s.atWord k [] s.replies (withWords s.mem img k) s.pollCount x) hsel
    (by rw [haddr]; exact (by omega : 2 * k + 2 ≤ s.storeLen.toNat))
    (by
      rw [haddr]
      exact (withWords_outside s.mem img (by omega)).trans (himg _ (by omega)))
    (by
      rw [haddr, Nat.add_assoc]
      exact (withWords_outside s.mem img (by omega)).trans (himg _ (by omega)))
  exact ⟨_, ⟨_, rfl⟩, does_imageWord word⟩

/-- Settles O44: the words below STORE_LEN, and INPUT at the first that is not. -/
theorem readImageStoreRun : Obligations.ReadImageStoreRun := by
  intro s img ha hin hsel himg n
  have hentry := entryOf_eeReadImage (s := s) (.inl hsel)
  obtain ⟨v, ⟨x, rfl⟩, text⟩ := does_storeImage (s := s) (img := img) hsel (n := n) (by omega) (by omega)
    fun a ha => himg a (by omega)
  refine ⟨withWords s.mem img n, ?_, fun a ha => withWords_inside _ _ ha, fun x hx => withWords_outside _ _ hx⟩
  split
  · next hn =>
    rw [hn] at text ⊢
    have h := reaches_done ha hin hentry text
    rwa [finish_atWord] at h
  · next hn =>
    have haddr : (BitVec.ofNat 8 (2 * n)).toNat = 2 * n := toNat_ofNat_two_mul (by omega)
    let t := s.atWord n [] s.replies (withWords s.mem img n) s.pollCount x
    have short := faults_readWordStore (i := .eeReadImage) (s := t) (a := BitVec.ofNat 8 (2 * n)) hsel
      (by rw [haddr]; exact (by omega : s.storeLen.toNat < 2 * n + 2))
    have word : Faults .eeReadImage (fun s' => linesImageWord s' n) t .input t := short.append
    have whole := (text.append_faults word).append
      (B := fun s' => ((List.range 64).drop (n + 1)).flatMap (linesImageWord s'))
    have h := reaches_fault ha hin hentry (whole.congr fun s' _ => linesEeReadImage_split s' (by omega))
    rwa [raiseFault_atWord] at h

end Sys2Proof.Machine

/-!
PROOFS. EE_PROGRAM from acceptance to its end (R110 to R117): the password read, the session, AUTH or the rewrite of the image.
-/

namespace Sys2Proof.Machine

open Sys2Proof

variable {i : Instr} {s u : State}

/-! ## The parts before the word loop -/

/-- The word in the local variables. -/
def Scratch.withWord (x : Scratch) (even odd : Byte) : Scratch := { x with even := even, odd := odd }

theorem atWord_saveWord (s : State) (k : Nat) (xs : List Xfer) (rest : List Reply) (m : Memory) (c : BitVec 17)
    (x : Scratch) (even odd : Byte) :
    saveEven even (saveOdd odd (s.atWord k xs rest m c x)) = s.atWord k xs rest m c (x.withWord even odd) := rfl

theorem atWord_takeStatus (s : State) (k : Nat) (xs : List Xfer) (rest : List Reply) (m : Memory) (c : BitVec 17)
    (x : Scratch) (st : Byte) :
    takeStatus st (s.atWord k xs rest m c x) = (s.latchAuth st).atWord k xs rest m c { x with status := st } := rfl

/-- The transactions of the password read (R110). -/
def passwordXfers (s : State) (q pe po : Byte) : List Xfer :=
  if s.selLatch then [] else readWordXfers s.config q 0x7A#8 pe po

/-- The password read, from the device or from STORE. -/
theorem does_password {q pe po : Byte} (hq : q.getLsbD 7 = false) (hheld : s.passwordHeld pe po) {rest : List Reply}
    (hs : s.replies = serveAll (passwordXfers s q pe po) ++ rest) :
    ∃ c, Does i (fun s' => linesReadWord s' 0x7A#8) (s.setRes0 0)
      (s.atWord 0 (passwordXfers s q pe po) rest s.mem c (s.scratch.withWord pe po)) := by
  cases hsel : s.selLatch with
  | true =>
    obtain ⟨hlen, he, ho⟩ := hheld hsel
    have hnone : passwordXfers s q pe po = [] := if_pos hsel
    have word := does_readWordStore (i := i) (s := s.setRes0 0) (a := 0x7A#8) hsel hlen he ho
    rw [hnone] at hs ⊢
    obtain rfl : rest = s.replies := hs.symm
    rw [setRes0_eq_atWord, atWord_saveWord] at word
    exact ⟨s.pollCount, word⟩
  | false =>
    have hsome : passwordXfers s q pe po = readWordXfers s.config q 0x7A#8 pe po := if_neg (by simp [hsel])
    rw [hsome] at hs ⊢
    have word := (transacts_readWord (i := i) (s := s.setRes0 0) hq hsel 0x7A#8 pe po).does rest hs
    simp only [setRes0_eq_atWord, atWord_polled, atWord_saveWord, List.nil_append] at word
    exact ⟨0, word⟩

/-- The text of the session: unlock, status, session lock (R111 to R113). -/
def linesSession (s : State) : List Line :=
  linesUnlock s ++ [readInto s.config.regAuthStatus takeStatus] ++ linesLock s.config

theorem transacts_session {q pe po st : Byte} (hq : q.getLsbD 7 = false) (he : s.scratch.even = pe)
    (ho : s.scratch.odd = po) :
    Transacts i linesSession s (sessionXfers s.config q pe po st) (takeStatus st) := by
  have upToEven := (transacts_mode (i := i) (s := s) hq s.config 0x50#8 rfl).append fun _ =>
    transacts_write (L := fun s' => writeTo s'.config.regAuthPwEven s'.scratch.even) (a := s.config.regAuthPwEven)
      (w := pe) rfl fun p x => congrArg _ he
  have upToOdd := upToEven.append fun _ =>
    transacts_write (L := fun s' => writeTo s'.config.regAuthPwOdd s'.scratch.odd) (a := s.config.regAuthPwOdd)
      (w := po) rfl fun p x => congrArg _ ho
  have upToStatus := upToOdd.append fun _ =>
    transacts_read (L := fun s' => readInto s'.config.regAuthStatus takeStatus) (a := s.config.regAuthStatus)
      (b := st) rfl (fun p x => rfl) (offBus_takeStatus st)
  have all := upToStatus.append fun _ => transacts_lock hq s.config rfl
  refine Transacts.congr (fun s' _ => ?_) all
  simp [linesSession, linesUnlock]

theorem entryOf_eeProgram (hbus : s.busReady = true) (hlen : s.srcLen = 128#16) :
    entryOf .eeProgram s = .proceed (s.setRes0 0) := by
  rw [entryOf, entryEeProgram, if_neg (by simp [hlen]), entryOf_needBus hbus]
  rfl

/-- The text of EE_PROGRAM by its parts. -/
theorem linesEeProgram_parts (s : State) :
    linesEeProgram s = linesReadWord s 0x7A#8 ++ linesSession s ++ [.silent verdictAuth] ++
      (linesPoll s.config ++ [writeTo s.config.regEeCtrl 0x53#8]) ++ (List.range 64).flatMap (linesProgramWord s) := by
  simp only [linesEeProgram, linesSession, List.append_assoc]

/-- The password read and the session: the status is latched, and the EEPROM is locked again. -/
theorem does_session {q pe po st : Byte} (hq : q.getLsbD 7 = false) (hheld : s.passwordHeld pe po) {rest : List Reply}
    (hs : s.replies = serveAll (passwordXfers s q pe po ++ sessionXfers s.config q pe po st) ++ rest) :
    ∃ x : Scratch, x.status = st ∧ Does i (fun s' => linesReadWord s' 0x7A#8 ++ linesSession s') (s.setRes0 0)
      ((s.latchAuth st).atWord 0 (passwordXfers s q pe po ++ sessionXfers s.config q pe po st) rest s.mem 0 x) := by
  rw [serveAll_append] at hs
  obtain ⟨c, password⟩ := does_password (i := i) hq hheld hs
  let t := s.atWord 0 (passwordXfers s q pe po) (serveAll (sessionXfers s.config q pe po st) ++ rest) s.mem c
    (s.scratch.withWord pe po)
  have session := (transacts_session (i := i) (s := t) (st := st) hq rfl rfl).does rest rfl
  rw [atWord_polled, atWord_takeStatus] at session
  exact ⟨_, rfl, password.append session⟩

theorem verdictAuth_permits (h : s.scratch.status.getLsbD s.config.authOkBit = true) : verdictAuth s = .proceed s :=
  if_pos h

theorem verdictAuth_refuses (h : s.scratch.status.getLsbD s.config.authOkBit = false) :
    verdictAuth s = .raise .auth s := if_neg (by rw [authPermits, h]; decide)

theorem latchAuth_afterXfers {st : Byte} {ok : Bool} (h : st.getLsbD s.config.authOkBit = ok) (xs : List Xfer)
    (rest : List Reply) :
    (s.latchAuth st).afterXfers xs rest =
      { s.afterXfers xs rest with
        authValid := true, authFail := st.getLsbD s.config.authFailBit, authOk := ok,
        authBusy := st.getLsbD s.config.authBusyBit } := by
  subst h
  rfl

/-- Settles O47: the verdict after the session lock is AUTH. -/
theorem programAuthFailure : Obligations.ProgramAuthFailure := by
  intro s q pe po st rest ha hin hbus hlen hq hok hheld password xs hs
  obtain ⟨x, rfl, session⟩ := does_session (i := .eeProgram) (st := st) hq hheld hs
  have verdict : Faults .eeProgram (fun _ => [.silent verdictAuth]) _ .auth _ :=
    faults_silent (s := (s.latchAuth x.status).atWord 0 xs rest s.mem 0 x) fun p y => verdictAuth_refuses hok
  have whole := ((session.append_faults verdict).append
    (B := fun s' => linesPoll s'.config ++ [writeTo s'.config.regEeCtrl 0x53#8])).append
    (B := fun s' => (List.range 64).flatMap (linesProgramWord s'))
  have h := reaches_fault ha hin (entryOf_eeProgram hbus hlen) (whole.congr fun s' _ => linesEeProgram_parts s')
  rwa [raiseFault_atWord, latchAuth_afterXfers hok] at h

/-! ## The rewrite (R114, R115) -/

/-- Where the rewrite stands after `k` words, when the transactions `before` came before it. -/
def rewriteAt (s : State) (before : List Xfer) (W : Nat → List Xfer) (rest : List Reply) (k : Nat) (u : State) : Prop :=
  ∃ x, u = s.atWord k (before ++ xfersBefore W k) (repliesFrom W 64 k rest) s.mem 0 x

theorem does_fetchSourceWord {k : Nat} {even odd : Byte} {xs : List Xfer} {rest : List Reply} {c : BitVec 17} {x : Scratch}
    (he : s.mem.read (0x100 + 2 * k) = some even) (ho : s.mem.read (0x100 + 2 * k + 1) = some odd) :
    Does i (fun _ => [.silent (fetchSourceWord k)]) (s.atWord k xs rest s.mem c x)
      (s.atWord k xs rest s.mem c (x.withWord even odd)) := by
  let t := s.atWord k xs rest s.mem c x
  have h : Does i (fun _ => [.silent (fetchSourceWord k)]) t (saveEven even (saveOdd odd t)) :=
    does_silent (fun p y => fetchSourceWord_held (s := t.placed p y) he ho) ⟨rfl, rfl, rfl, rfl, rfl⟩
  rwa [atWord_saveWord] at h

theorem does_countWord (k : Nat) (xs : List Xfer) (rest : List Reply) (m : Memory) (c : BitVec 17) (x : Scratch) :
    Does i (fun _ => [.silent (countWord k)]) (s.atWord k xs rest m c x) (s.atWord (k + 1) xs rest m c x) := by
  have h : ∀ t : State, Does i (fun _ => [.silent (countWord k)]) t
      { t with res0 := holds (BitVec.ofNat 32 (k + 1)), rvalid := true } :=
    fun t => does_silent (fun _ _ => rfl) ⟨rfl, rfl, rfl, rfl, rfl⟩
  exact h _

/-- The rewrite of the image in SRCBUF. -/
theorem does_rewrite {q : Byte} (hq : q.getLsbD 7 = false) {img : Nat → Byte}
    (himg : ∀ a, a < 128 → s.mem.read (0x100 + a) = some (img a)) (before : List Xfer) (rest : List Reply) (x : Scratch) :
    ∃ y, Does i (fun s' => (linesPoll s'.config ++ [writeTo s'.config.regEeCtrl 0x53#8]) ++
        (List.range 64).flatMap (linesProgramWord s'))
      (s.atWord 0 before (serveAll (rewriteXfers s.config q img) ++ rest) s.mem 0 x)
      (s.atWord 64 (before ++ rewriteXfers s.config q img) rest s.mem 0 y) := by
  let erase : List Xfer := [.rd s.config.regEeCtrl q, .wr s.config.regEeCtrl 0x53#8]
  let W : Nat → List Xfer := fun k =>
    writeWordXfers s.config q (BitVec.ofNat 8 (2 * k)) (img (2 * k)) (img (2 * k + 1))
  have hsplit : rewriteXfers s.config q img = erase ++ xfersBefore W 64 := rfl
  let t := s.atWord 0 before (serveAll (rewriteXfers s.config q img) ++ rest) s.mem 0 x
  have erased := (transacts_mode (i := i) (s := t) hq s.config 0x53#8 rfl).does (serveAll (xfersBefore W 64) ++ rest)
    (by rw [← serveAll_append, ← hsplit]; rfl)
  rw [id, atWord_polled] at erased
  have round : ∀ k < 64, ∀ u, rewriteAt s (before ++ erase) W rest k u →
      ∃ v, rewriteAt s (before ++ erase) W rest (k + 1) v ∧ Does i (fun s' => linesProgramWord s' k) u v := by
    rintro k hk _ ⟨y, rfl⟩
    have fetch := does_fetchSourceWord (i := i) (s := s) (xs := (before ++ erase) ++ xfersBefore W k)
      (rest := repliesFrom W 64 k rest) (c := 0) (x := y) (himg (2 * k) (by omega)) (himg (2 * k + 1) (by omega))
    let t := s.atWord k ((before ++ erase) ++ xfersBefore W k) (repliesFrom W 64 k rest) s.mem 0
      (y.withWord (img (2 * k)) (img (2 * k + 1)))
    have write := (transacts_writeWord (i := i) (s := t) hq s.config (BitVec.ofNat 8 (2 * k)) (even := img (2 * k))
      (odd := img (2 * k + 1)) (fe := fun s' => s'.scratch.even) (fo := fun s' => s'.scratch.odd)
      (fun _ he ho => ⟨he, ho⟩) rfl).does (repliesFrom W 64 (k + 1) rest) (repliesFrom_lt W hk rest)
    have hnext : ((before ++ erase) ++ xfersBefore W k) ++ W k = (before ++ erase) ++ xfersBefore W (k + 1) := by
      rw [xfersBefore_succ, List.append_assoc]
    rw [id, atWord_polled, hnext] at write
    exact ⟨_, ⟨_, rfl⟩, (fetch.append write).append (does_countWord k _ _ _ _ _)⟩
  obtain ⟨v, ⟨y, rfl⟩, loop⟩ := does_range round ⟨x, rfl⟩
  have hall : (before ++ erase) ++ xfersBefore W 64 = before ++ rewriteXfers s.config q img := by
    rw [hsplit, List.append_assoc]
  have hnone : (before ++ erase) ++ xfersBefore W 0 = before ++ erase := List.append_nil _
  rw [repliesFrom_self, hall, hnone] at loop
  exact ⟨y, erased.append loop⟩

/-- Settles O46. -/
theorem programRun : Obligations.ProgramRun := by
  intro s ha hin hbus hlen
  have hentry := entryOf_eeProgram hbus hlen
  refine ⟨fun q pe po st img rest hq hok hheld himg => ?_, fun hsel hshort => ?_⟩
  · intro password xs hs
    rw [serveAll_append] at hs
    obtain ⟨x, rfl, session⟩ := does_session (i := .eeProgram) (st := st) hq hheld hs
    let t := (s.latchAuth x.status).atWord 0 (password ++ sessionXfers s.config q pe po x.status)
      (serveAll (rewriteXfers s.config q img) ++ rest) s.mem 0 x
    have verdict : Does .eeProgram (fun _ => [.silent verdictAuth]) t t :=
      does_silent (fun p y => verdictAuth_permits hok) ⟨rfl, rfl, rfl, rfl, rfl⟩
    obtain ⟨y, rewritten⟩ := does_rewrite (i := .eeProgram) (s := s.latchAuth x.status) hq himg
      (password ++ sessionXfers s.config q pe po x.status) rest x
    have whole := (session.append verdict).append rewritten
    have h := reaches_done ha hin hentry (whole.congr fun s' _ => by
      rw [linesOf, linesEeProgram_parts, List.append_assoc])
    rwa [finish_atWord, latchAuth_afterXfers hok] at h
  · have short := (faults_readWordStore (i := .eeProgram) (s := s.setRes0 0) (a := 0x7A#8) hsel hshort).append
      (B := fun s' => linesSession s' ++ ([.silent verdictAuth] ++
        ((linesPoll s'.config ++ [writeTo s'.config.regEeCtrl 0x53#8]) ++ (List.range 64).flatMap (linesProgramWord s'))))
    exact reaches_fault ha hin hentry (short.congr fun s' _ => by
      rw [linesOf, linesEeProgram_parts]
      simp only [List.append_assoc])

end Sys2Proof.Machine
